-- ==== Sys2Proof/Word.lean ====
section
/-! DEFINITION. The word types of HUFFCORE and their names (rules R3, R4, R5). Every quantity of the block is
an unsigned bit vector of a fixed width; no rule of the spec uses a signed one (rule R4). -/

namespace Sys2Proof

/-- One byte: a symbol, a payload byte, an element of `OUT`. -/
abbrev Byte := BitVec 8

/-- A symbol, 0..255 (rule R3, `NSYMMAX = 256`). -/
abbrev Sym := BitVec 8

/-- A frequency count, `CW = 32` bits (rule R3). -/
abbrev Count := BitVec 32

/-- A node weight, `WW = 40` bits (rule R3). -/
abbrev Weight := BitVec 40

/-- A node index, 9 bits; 0..510 name arena entries, 511 is `NIL` (rules R3, R21). -/
abbrev NodeIdx := BitVec 9

/-- A command word, `CMDW = 64` bits (rules R3, R60). -/
abbrev CmdWord := BitVec 64

/-- A bit sequence: position 0 is the first, oldest, leftmost bit (rule R5). -/
abbrev BitSeq := List Bool

/-- The 9-bit index value that names no node (rule R3). -/
abbrev NIL : NodeIdx := 511#9

end Sys2Proof
end

