-- ==== Sys2Proof/Syntax.lean ====
section
/-! DEFINITION. The commands of HUFFCORE as syntax: one constructor per row of spec/opcode_table.json
(rule R64), with the operands of rule R63. -/

namespace Sys2Proof

/-- A command of HUFFCORE (rules R64, R67). -/
inductive Instr where
  /-- `SRST`: soft reset (rule R155). -/
  | srst
  /-- `FCLR`: empty the frequency table (rule R81). -/
  | fclr
  /-- `FSET sym, count`: set one frequency (rule R82). -/
  | fset (sym : Sym) (count : Count)
  /-- `FGET sym`: read one frequency (rule R83). -/
  | fget (sym : Sym)
  /-- `TBUILD`: build the tree (rule R95). -/
  | tbuild
  /-- `TGET idx`: read one arena entry; `idx = 511` is ill-formed (rules R62, R100). -/
  | tget (idx : NodeIdx)
  /-- `CGEN`: generate the code table (rule R114). -/
  | cgen
  /-- `CGET sym`: read one code word (rule R115). -/
  | cget (sym : Sym)
  /-- `CSTART`: open a compression stream (rule R121). -/
  | cstart
  /-- `CPUT byte`: compress one byte (rule R122). -/
  | cput (byte : Byte)
  /-- `CEND`: close the compression stream (rule R124). -/
  | cend
  /-- `DSTART tbc`: rebuild the tree and open a decompression stream (rule R136). -/
  | dstart (tbc : BitVec 3)
  /-- `DBYTE byte [, LAST]`: decode one byte (rule R138). -/
  | dbyte (byte : Byte) (last : Bool)
  deriving DecidableEq, Repr

end Sys2Proof
end

