-- ==== Sys2Proof/WellFormed.lean ====
section
/-! DEFINITION. Which terms of `Instr` are commands of the block. Every operand's width is its type's, so the
one check left is the node index of `TGET`, 0..510 (rules R62 format `N`, R63, R44). -/

namespace Sys2Proof

/-- The well-formed commands: a `TGET` names an arena entry, not `NIL` (rules R62, R65(c)). -/
def Instr.wf : Instr → Bool
  | .tget idx => decide (idx ≠ NIL)
  | .srst | .fclr | .fset _ _ | .fget _ | .tbuild | .cgen | .cget _ | .cstart | .cput _ | .cend
  | .dstart _ | .dbyte _ _ => true

end Sys2Proof
end

