-- ==== Sys2Proof/Decode.lean ====
section
/-! DEFINITION. The decoder of command words (rules R60 to R67), total on all 64-bit words and rejecting by
name, and after it the encoder by the assembly formula of rule R64. Also the opcode table itself, as rows of
match and mask, so that the two descriptions the spec gives of a legal word can be held against each other. -/

namespace Sys2Proof

/-- Why a word is illegal: the three cases (a), (b), (c) of rule R65. -/
inductive IllegalWord where
  /-- (a) `OP` is none of the thirteen opcodes. -/
  | unknownOpcode
  /-- (b) a reserved bit of the command's format is 1. -/
  | reservedBit
  /-- (c) the command is `TGET` and its node index is 511. -/
  | nilIndex
  deriving DecidableEq, Repr

/-- What a word decodes to: the type `Cmd` of rule R67, `Illegal(op)` carrying its reason as well. -/
inductive Cmd where
  | instr (i : Instr)
  | illegal (why : IllegalWord) (op : BitVec 8)
  deriving DecidableEq, Repr

/-- The field `OP = w[63:56]` (rule R61). -/
def wordOP (w : CmdWord) : BitVec 8 := w.extractLsb' 56 8
/-- The field `FLG = w[55:48]` (rule R61). -/
def wordFLG (w : CmdWord) : BitVec 8 := w.extractLsb' 48 8
/-- The field `A = w[47:32]` (rule R61). -/
def wordA (w : CmdWord) : BitVec 16 := w.extractLsb' 32 16
/-- The field `IMM = w[31:0]` (rule R61). -/
def wordIMM (w : CmdWord) : BitVec 32 := w.extractLsb' 0 32

/-- The operand `sym` or `byte`, `A[7:0]` (rule R63). -/
def operandA8 (w : CmdWord) : BitVec 8 := (wordA w).extractLsb' 0 8
/-- The operand `idx`, `A[8:0]` (rule R63). -/
def operandIdx (w : CmdWord) : NodeIdx := (wordA w).extractLsb' 0 9
/-- The operand `tbc`, `A[2:0]` (rule R63). -/
def operandTbc (w : CmdWord) : BitVec 3 := (wordA w).extractLsb' 0 3
/-- The operand `last`, `FLG[0]` (rule R63). -/
def operandLast (w : CmdWord) : Bool := (wordFLG w).getLsbD 0

/-- A command whose reserved bits must be 0: illegal when they are not (rules R62, R66). -/
def checked (reservedZero : Bool) (w : CmdWord) (c : Cmd) : Cmd :=
  if reservedZero then c else .illegal .reservedBit (wordOP w)

/-- Format `Z`: no operand; `FLG`, `A`, `IMM` reserved (rule R62). -/
def formatZ (w : CmdWord) (i : Instr) : Cmd :=
  checked (wordFLG w == 0 && wordA w == 0 && wordIMM w == 0) w (.instr i)

/-- Format `S`: `A[7:0]`; `FLG`, `A[15:8]`, `IMM` reserved (rule R62). -/
def formatS (w : CmdWord) (mk : BitVec 8 → Instr) : Cmd :=
  checked (wordFLG w == 0 && (wordA w).extractLsb' 8 8 == 0 && wordIMM w == 0) w (.instr (mk (operandA8 w)))

/-- Format `SI`: `A[7:0]` and `IMM`; `FLG`, `A[15:8]` reserved (rule R62). -/
def formatSI (w : CmdWord) (mk : BitVec 8 → BitVec 32 → Instr) : Cmd :=
  checked (wordFLG w == 0 && (wordA w).extractLsb' 8 8 == 0) w (.instr (mk (operandA8 w) (wordIMM w)))

/-- Format `N`: `A[8:0]`, value 0..510; `FLG`, `A[15:9]`, `IMM` reserved; 511 illegal (rule R62). -/
def formatN (w : CmdWord) (mk : NodeIdx → Instr) : Cmd :=
  checked (wordFLG w == 0 && (wordA w).extractLsb' 9 7 == 0 && wordIMM w == 0) w
    (if operandIdx w = NIL then .illegal .nilIndex (wordOP w) else .instr (mk (operandIdx w)))

/-- Format `T`: `A[2:0]`; `FLG`, `A[15:3]`, `IMM` reserved (rule R62). -/
def formatT (w : CmdWord) (mk : BitVec 3 → Instr) : Cmd :=
  checked (wordFLG w == 0 && (wordA w).extractLsb' 3 13 == 0 && wordIMM w == 0) w (.instr (mk (operandTbc w)))

/-- Format `BL`: `A[7:0]` and `FLG[0]`; `FLG[7:1]`, `A[15:8]`, `IMM` reserved (rule R62). -/
def formatBL (w : CmdWord) (mk : BitVec 8 → Bool → Instr) : Cmd :=
  checked ((wordFLG w).extractLsb' 1 7 == 0 && (wordA w).extractLsb' 8 8 == 0 && wordIMM w == 0) w
    (.instr (mk (operandA8 w) (operandLast w)))

/-- Decoding, total on 64-bit words and a function of the word alone (rules R64, R65, R67). -/
def decode (w : CmdWord) : Cmd :=
  if wordOP w = 0x01#8 then formatZ w .srst
  else if wordOP w = 0x10#8 then formatZ w .fclr
  else if wordOP w = 0x11#8 then formatSI w .fset
  else if wordOP w = 0x12#8 then formatS w .fget
  else if wordOP w = 0x20#8 then formatZ w .tbuild
  else if wordOP w = 0x21#8 then formatN w .tget
  else if wordOP w = 0x30#8 then formatZ w .cgen
  else if wordOP w = 0x31#8 then formatS w .cget
  else if wordOP w = 0x40#8 then formatZ w .cstart
  else if wordOP w = 0x41#8 then formatS w .cput
  else if wordOP w = 0x42#8 then formatZ w .cend
  else if wordOP w = 0x50#8 then formatT w .dstart
  else if wordOP w = 0x51#8 then formatBL w .dbyte
  else .illegal .unknownOpcode (wordOP w)

/-- The instruction the decoder reads from a word numbered as spec/opcode_table.json numbers it: a command is
one whole 64-bit word, bit 0 its least significant (rules R43, R60, R61). -/
def decodeTableWord (nbits w : Nat) : Option Instr :=
  match decode (BitVec.ofNat 64 (w % 2 ^ nbits)) with
  | .instr i => some i
  | .illegal _ _ => none

/-! ## The encoder -/

/-- The opcode `OP` of each command (rule R64). -/
def Instr.opcode : Instr → BitVec 8
  | .srst => 0x01#8
  | .fclr => 0x10#8
  | .fset _ _ => 0x11#8
  | .fget _ => 0x12#8
  | .tbuild => 0x20#8
  | .tget _ => 0x21#8
  | .cgen => 0x30#8
  | .cget _ => 0x31#8
  | .cstart => 0x40#8
  | .cput _ => 0x41#8
  | .cend => 0x42#8
  | .dstart _ => 0x50#8
  | .dbyte _ _ => 0x51#8

/-- The field `FLG` of each command: only `DBYTE` uses its bit 0, `LAST` (rules R61, R62). -/
def Instr.fieldFLG : Instr → BitVec 8
  | .dbyte _ last => (BitVec.ofBool last).setWidth 8
  | .srst | .fclr | .fset _ _ | .fget _ | .tbuild | .tget _ | .cgen | .cget _ | .cstart | .cput _ | .cend
  | .dstart _ => 0#8

/-- The field `A` of each command, its operand zero-extended (rules R61 to R63). -/
def Instr.fieldA : Instr → BitVec 16
  | .fset sym _ => sym.setWidth 16
  | .fget sym => sym.setWidth 16
  | .tget idx => idx.setWidth 16
  | .cget sym => sym.setWidth 16
  | .cput byte => byte.setWidth 16
  | .dstart tbc => tbc.setWidth 16
  | .dbyte byte _ => byte.setWidth 16
  | .srst | .fclr | .tbuild | .cgen | .cstart | .cend => 0#16

/-- The field `IMM` of each command: the count of `FSET` (rules R61, R62). -/
def Instr.fieldIMM : Instr → BitVec 32
  | .fset _ count => count
  | .srst | .fclr | .fget _ | .tbuild | .tget _ | .cgen | .cget _ | .cstart | .cput _ | .cend
  | .dstart _ | .dbyte _ _ => 0#32

/-- `w = (OP << 56) | (FLG << 48) | (A << 32) | IMM` (rule R64). -/
def assemble (op flg : BitVec 8) (a : BitVec 16) (imm : BitVec 32) : CmdWord :=
  (op.setWidth 64 <<< 56) ||| (flg.setWidth 64 <<< 48) ||| (a.setWidth 64 <<< 32) ||| imm.setWidth 64

/-- The command word of an instruction (rule R64). -/
def encode (i : Instr) : CmdWord := assemble i.opcode i.fieldFLG i.fieldA i.fieldIMM

/-! ## The opcode table as match and mask -/

/-- One row of rule R64's table: a word `w` selects it when `w & mask = match`. -/
structure OpcodeRow where
  mnemonic : String
  pattern : CmdWord
  mask : CmdWord
  deriving DecidableEq, Repr

/-- The thirteen rows of rule R64, in the table's order. -/
def opcodeTable : List OpcodeRow := [
  ⟨"SRST", 0x0100000000000000, 0xFFFFFFFFFFFFFFFF⟩,
  ⟨"FCLR", 0x1000000000000000, 0xFFFFFFFFFFFFFFFF⟩,
  ⟨"FSET", 0x1100000000000000, 0xFFFFFF0000000000⟩,
  ⟨"FGET", 0x1200000000000000, 0xFFFFFF00FFFFFFFF⟩,
  ⟨"TBUILD", 0x2000000000000000, 0xFFFFFFFFFFFFFFFF⟩,
  ⟨"TGET", 0x2100000000000000, 0xFFFFFE00FFFFFFFF⟩,
  ⟨"CGEN", 0x3000000000000000, 0xFFFFFFFFFFFFFFFF⟩,
  ⟨"CGET", 0x3100000000000000, 0xFFFFFF00FFFFFFFF⟩,
  ⟨"CSTART", 0x4000000000000000, 0xFFFFFFFFFFFFFFFF⟩,
  ⟨"CPUT", 0x4100000000000000, 0xFFFFFF00FFFFFFFF⟩,
  ⟨"CEND", 0x4200000000000000, 0xFFFFFFFFFFFFFFFF⟩,
  ⟨"DSTART", 0x5000000000000000, 0xFFFFFFF8FFFFFFFF⟩,
  ⟨"DBYTE", 0x5100000000000000, 0xFFFEFF00FFFFFFFF⟩]

/-- The table's name of each command (rule R64). -/
def Instr.mnemonic : Instr → String
  | .srst => "SRST"
  | .fclr => "FCLR"
  | .fset _ _ => "FSET"
  | .fget _ => "FGET"
  | .tbuild => "TBUILD"
  | .tget _ => "TGET"
  | .cgen => "CGEN"
  | .cget _ => "CGET"
  | .cstart => "CSTART"
  | .cput _ => "CPUT"
  | .cend => "CEND"
  | .dstart _ => "DSTART"
  | .dbyte _ _ => "DBYTE"

/-- `w` selects `row`: `w & mask = match`, and for `TGET` also `A[8:0] != 511` (rule R64). -/
def OpcodeRow.selects (row : OpcodeRow) (w : CmdWord) : Bool :=
  (w &&& row.mask == row.pattern) && (row.mnemonic != "TGET" || operandIdx w != NIL)

end Sys2Proof
end

