-- ==== Sys2Proof/Config.lean ====
section
/-! DEFINITION. The parameters of a HUFFCORE instance (rule R3). All are fixed but `MAXLEN`, which a model
takes as an argument: an instance of the block is a value of `Config`. The spec leaves no value free, so
this file holds no opaque constant. -/

namespace Sys2Proof

/-- One instance's parameters. `maxLen` is `MAXLEN`, the longest code word CG accepts (rules R3, R113). -/
structure Config where
  maxLen : Nat
  deriving DecidableEq, Repr

/-- The default instance: `MAXLEN = 63` (rule R3). -/
def Config.default : Config := ⟨63⟩

/-- The legal range of `MAXLEN`, 1..63 (rule R3). -/
def Config.legal (c : Config) : Bool := decide (1 ≤ c.maxLen) && decide (c.maxLen ≤ 63)

/-- Instantiation: a `MAXLEN` outside 1..63 is rejected here (93_implementation_defined.md U15); log entry 11. -/
def Config.make (maxLen : Nat) : Option Config :=
  if Config.legal ⟨maxLen⟩ then some ⟨maxLen⟩ else none

/-- `NSYMMAX`, the size of the symbol alphabet (rule R3). -/
def Config.nSymMax : Nat := 256

/-- `NNODE`, the size of the node arena: 256 leaves and 255 internal nodes (rule R3). -/
def Config.nNode : Nat := 511

end Sys2Proof
end

