-- ==== Sys2Proof/Machine/State.lean ====
section
/-! DEFINITION. The state of HUFFCORE as plain data (rule R10), its reset value (rule R31), and the reasons a
step of the model can stop. Two fields are the model's own and no state of the spec's: `cfg`, the instance's
parameter `MAXLEN` (rule R11(a)), and `port`, what the outside world will still do at the input pins
(rule R11(b)). -/

namespace Sys2Proof.Machine

/-- `PHASE`, the sequencing state (rule R12). The value 6 is never held and has no constructor. -/
inductive Phase where
  /-- 0: the frequency table may be loaded. -/
  | idle
  /-- 1: a tree has been built from `FREQ` and is valid. -/
  | tree
  /-- 2: tree and code table are valid. -/
  | codes
  /-- 3: a compression stream is open. -/
  | comp
  /-- 4: a decompression stream is open. -/
  | decode
  /-- 5: the pass is complete. -/
  | done
  /-- 7: an error was detected and the pass is dead. -/
  | fault
  deriving DecidableEq, Repr

/-- The faults the HARDWARE detects and records in `ERR` (rule R161). Raising one is a next state of the model
(rule R170), never a stop of it. -/
inductive HwFault where
  | emptyFrequencyTable
  | maxCodeLengthExceeded
  | corruptTree
  | symbolNotInCodeTable
  | truncatedStream
  | illegalCommand
  | badSequence
  | invalidCodeBit
  deriving DecidableEq, Repr

/-- One arena entry `NODE[i]` (rule R21); leaf or internal is told by the index. -/
structure Node where
  weight : Weight
  left : NodeIdx
  right : NodeIdx
  deriving DecidableEq, Repr

/-- One code-table entry `CODE[s]`: `len = 0` means no code, else the code word is `seq(bits, len)` (rule R24). -/
structure Code where
  len : BitVec 6
  bits : BitVec 63
  deriving DecidableEq, Repr

/-- What the outside world does at the input pins, one event at a time (rules R34, R190, R195). -/
inductive PortInput where
  /-- the host presents a command word and the port takes it -/
  | command (w : CmdWord)
  /-- `rst` is sampled 1 at a rising edge of `clk` -/
  | rst
  deriving DecidableEq, Repr

/-- A table of the block (`FREQ`, `NODE`, `CODE`): pairs of index and entry. The canonical form has indices
strictly rising and lists no entry equal to what an unlisted index reads as. DESIGN CHOICE, log entry 5. -/
abbrev Table (α : Type) := List (Nat × α)

/-- What an unlisted `FREQ[s]` reads as: 0, the absent key and the reset value (rules R20, R31). -/
abbrev freqDefault : Count := 0#32

/-- What an unlisted `NODE[i]` reads as. The spec leaves the reset contents unspecified and unobservable and
names this value its reference choice (93_implementation_defined.md U2). DESIGN CHOICE, log entry 3. -/
abbrev nodeDefault : Node := ⟨0#40, NIL, NIL⟩

/-- What an unlisted `CODE[s]` reads as. The spec leaves the reset contents unspecified and unobservable and
names this value its reference choice (93_implementation_defined.md U3). DESIGN CHOICE, log entry 4. -/
abbrev codeDefault : Code := ⟨0#6, 0#63⟩

end Sys2Proof.Machine

namespace Sys2Proof.Machine

/-- The complete state (rule R10), with the model's own two fields first. -/
structure State where
  /-- the instance's parameter (rules R3, R11(a)); no step changes it; DESIGN CHOICE, log entry 2 -/
  cfg : Config
  /-- what the outside world will still do, soonest first (rules R11(b), R195); DESIGN CHOICE, log entry 1 -/
  port : List PortInput
  /-- `PHASE`, 3 bits (rule R12) -/
  phase : Phase
  /-- `ERR` (rule R14) -/
  err : BitVec 8
  /-- `EINFO` (rule R15) -/
  einfo : BitVec 16
  /-- `TBC`, the trailing-bit count (rule R17) -/
  tbc : BitVec 3
  /-- `ROOT` (rule R18) -/
  root : NodeIdx
  /-- `NSYM` (rule R19) -/
  nsym : BitVec 9
  /-- `NINT` (rule R19) -/
  nint : BitVec 8
  /-- `RDATA` (rule R25) -/
  rdata : BitVec 64
  /-- `RAUX` (rule R25) -/
  raux : BitVec 8
  /-- `PCNT`, the number of pending bits (rule R27) -/
  pcnt : BitVec 3
  /-- `PBITS`, the pending bits left-aligned (rule R27) -/
  pbits : BitVec 7
  /-- `DCUR`, the node at which the decompressor's walk stands (rule R28) -/
  dcur : NodeIdx
  /-- `FREQ[0..255]` (rule R20) -/
  freq : Table Count
  /-- `NODE[0..510]` (rule R21) -/
  node : Table Node
  /-- `CODE[0..255]` (rule R24) -/
  code : Table Code
  /-- `OUT`, every byte emitted since the last reset, in order (rule R30); unbounded, log entry 8 -/
  out : List Byte
  deriving DecidableEq, Repr

/-- The reset state of an instance whose host has nothing to say yet (rules R31, R201 `Fresh`). -/
def State.resetOf (c : Config) : State :=
  { cfg := c, port := [], phase := .idle, err := 0, einfo := 0, tbc := 0, root := NIL, nsym := 0, nint := 0,
    rdata := 0, raux := 0, pcnt := 0, pbits := 0, dcur := NIL, freq := [], node := [], code := [], out := [] }

/-- The machine right after reset, at the default `MAXLEN = 63` (rules R3, R31). -/
def State.reset : State := State.resetOf Config.default

/-- The reasons the MODEL stops. Every one is raised only in a state that breaks the tree invariants of
rule R23, which no run from reset reaches; every one is safe, since the model stops where the spec gives
nothing (rule R44: inside the block indices are in range by those invariants). DESIGN CHOICE, log entry 6. -/
inductive Fault where
  /-- A tree walk reads `NODE[511]`, an entry that does not exist (rules R21, R40). Raised by `CGEN` and
  `DBYTE`. Safe. -/
  | noSuchNode
  /-- `CGEN`'s descent from `ROOT` is longer than any path of a tree in the arena, so it would never end
  (rule R198). Raised by `CGEN`. Safe. -/
  | endlessWalk
  /-- A key of `FREQ` is no leaf below `ROOT`, so it has no path (rule R111). Raised by `CGEN`. Safe. -/
  | keyWithoutPath
  deriving DecidableEq, Repr

/-- The reasons the model has no meaning for an instruction. -/
inductive Refusal where
  /-- The instruction with this mnemonic has no meaning in the model yet. Raised by an arm of `exec` only; no
  arm raises it any more. Safe. -/
  | notModelled (mnemonic : String)
  deriving DecidableEq, Repr

end Sys2Proof.Machine
end

