-- ==== Sys2Proof/Machine/Flags.lean ====
section
/-! DEFINITION. What the status pins show. HUFFCORE has no condition codes: no command sets a flag as a side
effect of arithmetic (rules R16, R33). The one derived output is the level `fault`, and every register stands
on a pin (rules R34, R179). -/

namespace Sys2Proof.Machine

/-- The 3-bit encoding of `PHASE` (rule R12). -/
def Phase.code : Phase → BitVec 3
  | .idle => 0#3
  | .tree => 1#3
  | .codes => 2#3
  | .comp => 3#3
  | .decode => 4#3
  | .done => 5#3
  | .fault => 7#3

/-- The codes of the hardware's faults in `ERR` (rule R161). -/
def HwFault.code : HwFault → BitVec 8
  | .emptyFrequencyTable => 0x01#8
  | .maxCodeLengthExceeded => 0x02#8
  | .corruptTree => 0x03#8
  | .symbolNotInCodeTable => 0x04#8
  | .truncatedStream => 0x05#8
  | .illegalCommand => 0x10#8
  | .badSequence => 0x11#8
  | .invalidCodeBit => 0x12#8

/-- The output `fault`, the level `ERR != 0` (rule R16). -/
def State.faultLevel (s : State) : Bool := s.err != 0

/-- The status outputs of rule R34, each at its pin's width. -/
structure StatusPins where
  phase : BitVec 3
  err : BitVec 8
  einfo : BitVec 16
  fault : Bool
  tbc : BitVec 3
  root : BitVec 9
  nsym : BitVec 9
  nint : BitVec 8
  rdata : BitVec 64
  raux : BitVec 8
  pcnt : BitVec 3
  pbits : BitVec 7
  dcur : BitVec 9
  deriving DecidableEq, Repr

/-- What the status pins show between two commands (rules R34, R195). -/
def State.pins (s : State) : StatusPins :=
  { phase := s.phase.code, err := s.err, einfo := s.einfo, fault := s.faultLevel, tbc := s.tbc, root := s.root,
    nsym := s.nsym, nint := s.nint, rdata := s.rdata, raux := s.raux, pcnt := s.pcnt, pbits := s.pbits,
    dcur := s.dcur }

end Sys2Proof.Machine
end

