-- ==== Sys2Proof/Machine/Operands.lean ====
section
/-! DEFINITION. Bit sequences and their conversions to bit vectors (rules R5, R42), the pending-bit buffer as a
sequence (rule R27), and the record formats of the read-back registers (rules R83, R101, R116). -/

namespace Sys2Proof.Machine

/-- `seq(v, n) = [v[n-1], ..., v[0]]` (rule R5). -/
def seqOf (v : Nat) : Nat → BitSeq
  | 0 => []
  | n + 1 => v.testBit n :: seqOf v n

/-- `val(bs)`, the number whose binary numeral is `bs` read left to right (rule R5). -/
def valOf : BitSeq → Nat
  | [] => 0
  | b :: bs => b.toNat * 2 ^ bs.length + valOf bs

/-- `pack8(bs) = val(bs)` for `|bs| = 8`: the first bit becomes the most significant (rules R5, R42). -/
def pack8 (bs : BitSeq) : Byte := BitVec.ofNat 8 (valOf bs)

/-- `unpack8(b) = seq(b, 8)`, most significant bit first (rules R5, R42). -/
def unpack8 (b : Byte) : BitSeq := seqOf b.toNat 8

/-- `zeros(n)` (rule R27). -/
def zeros (n : Nat) : BitSeq := List.replicate n false

/-- The pending bits held in `PCNT`, `PBITS`: `take(PCNT, seq(PBITS, 7))` (rules R27, R122). -/
def pendingBits (pcnt : BitVec 3) (pbits : BitVec 7) : BitSeq := (seqOf pbits.toNat 7).take pcnt.toNat

/-- `PCNT` for a pending sequence `P` (rule R27). -/
def pendingCount (p : BitSeq) : BitVec 3 := BitVec.ofNat 3 p.length

/-- `PBITS` for a pending sequence `P`: `val(P ++ zeros(7 - |P|))`, left-aligned (rule R27). -/
def pendingImage (p : BitSeq) : BitVec 7 := BitVec.ofNat 7 (valOf (p ++ zeros (7 - p.length)))

/-- The code word of an entry: `seq(bits, len)` (rule R24). -/
def Code.word (e : Code) : BitSeq := seqOf e.bits.toNat e.len.toNat

/-- The entry that stores a code word: right-aligned, first bit at `bits[len-1]` (rules R24, R114). -/
def codeEntry (path : BitSeq) : Code := ⟨BitVec.ofNat 6 path.length, BitVec.ofNat 63 (valOf path)⟩

/-- A node index below 256 is a leaf and is its own symbol (rule R21). -/
def isLeafIdx (i : NodeIdx) : Bool := decide (i.toNat < 256)

/-- The symbol of a leaf, `i[7:0]` (rules R21, R140). -/
def leafSym (i : NodeIdx) : Sym := i.extractLsb' 0 8

/-- The leaf of a symbol (rule R21). -/
def leafIdx (s : Sym) : NodeIdx := s.setWidth 9

/-- The record of an allocated node in `RDATA` (rules R100, R101). -/
def nodeRecord (idx : NodeIdx) (n : Node) : BitVec 64 :=
  (1#64 <<< 63) ||| ((if isLeafIdx idx then 0#64 else 1#64) <<< 62) ||| (n.left.setWidth 64 <<< 49) |||
    (n.right.setWidth 64 <<< 40) ||| n.weight.setWidth 64

/-- How many bits of a payload byte are valid: `TBC` of the last byte if it is not 0, else 8 (rule R139). -/
def validBits (last : Bool) (tbc : BitVec 3) : Nat := if last && tbc != 0 then tbc.toNat else 8

/-- The information word of `BadSequence`: `(PHASE << 8) | OP` (rules R68, R161). -/
def badSequenceInfo (phase : BitVec 3) (op : BitVec 8) : BitVec 16 :=
  (phase.setWidth 16 <<< 8) ||| op.setWidth 16

end Sys2Proof.Machine
end

