-- ==== Sys2Proof/Machine/Ops.lean ====
section
/-! DEFINITION. The named operations all commands share: reading and writing the tables (rules R6, R41), the
named updates of State, `emit` (rule R30), `raise` (rules R7, R170), reset (rules R155, R190), and the front
end every command passes (rules R68, R69). The block has no return from a fault: the only exits from `FAULT`
are the two resets (rule R174), so `resetState` is what stands in a return's place. -/

namespace Sys2Proof.Machine

/-! ## Tables -/

/-- The entry at an index: the listed one, else what an unlisted index reads as. -/
def Table.read {α : Type} (d : α) : Table α → Nat → α
  | [], _ => d
  | e :: t, i => if i = e.1 then e.2 else Table.read d t i

/-- Put an entry before the first listed index above its own. -/
def Table.insert {α : Type} (i : Nat) (v : α) : Table α → Table α
  | [] => [(i, v)]
  | e :: t => if i < e.1 then (i, v) :: e :: t else e :: Table.insert i v t

/-- Write one entry, keeping the canonical form: an entry equal to the default is not listed. -/
def Table.write {α : Type} [DecidableEq α] (d : α) (t : Table α) (i : Nat) (v : α) : Table α :=
  let others := t.filter (fun e => e.1 != i)
  if v = d then others else Table.insert i v others

/-- The canonical form: indices strictly rising and below `n`, no entry equal to the default. -/
def Table.wf {α : Type} [DecidableEq α] (n : Nat) (d : α) : Table α → Bool
  | [] => true
  | e :: t => decide (e.1 < n) && decide (e.2 ≠ d) && t.all (fun x => decide (e.1 < x.1)) && Table.wf n d t

/-- `FREQ[s]` of a frequency table (rule R20). -/
def freqOf (t : Table Count) (s : Sym) : Count := Table.read freqDefault t s.toNat

/-- `NODE[i]` of an arena, for an index below 511 (rule R21). -/
def nodeOf (t : Table Node) (i : NodeIdx) : Node := Table.read nodeDefault t i.toNat

/-- `NODE[i]`, or nothing for the index 511, which names no entry (rules R3, R21). -/
def nodeOf? (t : Table Node) (i : NodeIdx) : Option Node := if i = NIL then none else some (nodeOf t i)

/-- `CODE[s]` of a code table (rule R24). -/
def codeOf (t : Table Code) (s : Sym) : Code := Table.read codeDefault t s.toNat

/-- `FREQ[s]` (rules R6, R20). -/
def State.readFreq (s : State) (sym : Sym) : Count := freqOf s.freq sym

/-- `NODE[i]` (rules R6, R21). -/
def State.readNode (s : State) (i : NodeIdx) : Node := nodeOf s.node i

/-- `CODE[s]` (rules R6, R24). -/
def State.readCode (s : State) (sym : Sym) : Code := codeOf s.code sym

/-- All symbols, ascending. -/
def allSyms : List Sym := (List.range 256).map (BitVec.ofNat 8)

/-- The keys of a frequency table, ascending: the symbols `s` with `FREQ[s] != 0` (rules R20, R80). -/
def keysOf (t : Table Count) : List Sym := allSyms.filter (fun s => freqOf t s != 0)

/-- In these phases the tree is valid (rule R22). -/
def Phase.treeValid : Phase → Bool
  | .tree | .codes | .comp | .decode => true
  | .idle | .done | .fault => false

/-- The allocated indices of a tree over `freq` with `nint` internal nodes (rule R22, without the phase). -/
def allocIn (freq : Table Count) (nint : BitVec 8) (i : NodeIdx) : Bool :=
  if isLeafIdx i then freqOf freq (leafSym i) != 0 else decide (i.toNat < 256 + nint.toNat)

/-- `ALLOC(i)` (rule R22). -/
def State.alloc (s : State) (i : NodeIdx) : Bool := s.phase.treeValid && allocIn s.freq s.nint i

/-! ## Named updates -/

/-- `PHASE <- p`, the only control transfer (rule R6). -/
def State.setPhase (s : State) (p : Phase) : State := { s with phase := p }

/-- `emit(b)` for each byte in order: append to `OUT` (rules R6, R30). -/
def State.emit (s : State) (bs : List Byte) : State := { s with out := s.out ++ bs }

/-- `FREQ[sym] <- count` (rule R82). -/
def State.writeFreq (s : State) (sym : Sym) (count : Count) : State :=
  { s with freq := Table.write freqDefault s.freq sym.toNat count }

/-- `FREQ[s] <- 0` for every symbol (rule R81). -/
def State.clearFreq (s : State) : State := { s with freq := [] }

/-- Write both read-back registers (rule R25). -/
def State.readBack (s : State) (data : BitVec 64) (aux : BitVec 8) : State := { s with rdata := data, raux := aux }

/-- Write what the build procedure writes: `NODE`, `ROOT`, `NSYM`, `NINT` (rule R94). -/
def State.setTree (s : State) (node : Table Node) (root : NodeIdx) (nsym : BitVec 9) (nint : BitVec 8) : State :=
  { s with node := node, root := root, nsym := nsym, nint := nint }

/-- Write the whole code table (rule R114). -/
def State.setCode (s : State) (code : Table Code) : State := { s with code := code }

/-- Hold the pending bits `P` in `PCNT`, `PBITS` (rule R27). -/
def State.setPending (s : State) (p : BitSeq) : State :=
  { s with pcnt := pendingCount p, pbits := pendingImage p }

/-- `TBC <- n` (rule R17). -/
def State.setTbc (s : State) (n : BitVec 3) : State := { s with tbc := n }

/-- `DCUR <- i` (rule R28). -/
def State.setDcur (s : State) (i : NodeIdx) : State := { s with dcur := i }

/-! ## Taking a fault, and reset -/

/-- `raise F(info)`: exactly `ERR <- code(F)`, `EINFO <- info`, `PHASE <- FAULT` (rules R7, R170). It saves no
return address and transfers control nowhere. -/
def State.raise (s : State) (f : HwFault) (info : BitVec 16) : State :=
  { s with err := f.code, einfo := info, phase := .fault }

/-- `reset_state()`: every register and table takes its reset value (rules R31, R155, R190). The instance's
parameter and what the outside world will still do are no state of the block and stay. -/
def State.resetState (s : State) : State := { State.resetOf s.cfg with port := s.port }

/-! ## The front end -/

/-- The phases in which each command may run: the table of rule R69. -/
def legal : Instr → Phase → Bool
  | .srst, _ => true
  | .fclr, p | .fset _ _, p | .tbuild, p | .dstart _, p => p == .idle
  | .fget _, p => p == .idle || p == .tree || p == .codes || p == .comp || p == .decode
  | .tget _, p => p == .tree || p == .codes || p == .comp || p == .decode
  | .cgen, p => p == .tree
  | .cget _, p => p == .codes || p == .comp
  | .cstart, p => p == .codes
  | .cput _, p | .cend, p => p == .comp
  | .dbyte _ _, p => p == .decode

/-- The checks a legal word passes before its command rule runs: ignored in `FAULT`, `BadSequence` out of
phase, else the rule (rules R68, R69, R173). `SRST` does not come here. -/
def frontEnd (i : Instr) (s : State) (run : Host.Outcome State Fault Refusal) :
    Host.Outcome State Fault Refusal :=
  if s.phase = .fault then .next s
  else if legal i s.phase then run
  else .next (s.raise .badSequence (badSequenceInfo s.phase.code i.opcode))

/-- An illegal word: ignored in `FAULT`, else `IllegalCommand` (rules R65, R68). -/
def State.illegalWord (s : State) (op : BitVec 8) : State :=
  if s.phase = .fault then s else s.raise .illegalCommand (op.setWidth 16)

end Sys2Proof.Machine
end

