-- ==== Sys2Proof/Machine/CodeTable.lean ====
section
/-! DEFINITION. The code-table generator CG: the tree walk (rules R110 to R113, R118) and the commands `CGEN`
(rule R114) and `CGET` (rule R115). -/

namespace Sys2Proof.Machine

/-- More nodes than any path of a tree in the arena has: 255 internal ones and a leaf (rules R3, R198). -/
def walkFuel : Nat := 256

/-- The leaves below a node, each with its path: descend left appending `0`, right appending `1`, and at a leaf
record the accumulated bits (rule R111). Left before right; the order is not observable (rule R118). -/
def leavesBelow (node : Table Node) : Nat → NodeIdx → BitSeq → Except Fault (List (Sym × BitSeq))
  | 0, _, _ => .error .endlessWalk
  | fuel + 1, i, path =>
    if isLeafIdx i then .ok [(leafSym i, path)]
    else
      match nodeOf? node i with
      | none => .error .noSuchNode
      | some n =>
        match leavesBelow node fuel n.left (path ++ [false]) with
        | .error f => .error f
        | .ok ls =>
          match leavesBelow node fuel n.right (path ++ [true]) with
          | .error f => .error f
          | .ok rs => .ok (ls ++ rs)

/-- The code words of the keys: the path of each leaf below an internal root (rule R111), the single bit `0`
for a root that is a leaf (rule R112). -/
def State.codeWords (s : State) : Except Fault (List (Sym × BitSeq)) :=
  if isLeafIdx s.root then .ok ((keysOf s.freq).map (fun k => (k, [false])))
  else leavesBelow s.node walkFuel s.root []

/-- The code word of a symbol in a list of code words. -/
def wordOf (ws : List (Sym × BitSeq)) (k : Sym) : Option BitSeq := ws.lookup k

/-- A symbol whose code word is longer than `MAXLEN` (rule R113). -/
def tooLong (maxLen : Nat) (ws : List (Sym × BitSeq)) (k : Sym) : Bool :=
  match wordOf ws k with
  | none => false
  | some p => decide (maxLen < p.length)

/-- The code table: `{len, bits}` of the code word for every key, `{0, 0}` for every other symbol (rule R114). -/
def tableOfWords (keys : List Sym) (ws : List (Sym × BitSeq)) : Table Code :=
  keys.foldl (fun t k => Table.write codeDefault t k.toNat (codeEntry ((wordOf ws k).getD []))) []

/-- `CGEN` (rule R114). A key with no path exists only where rule R23 fails; the model stops there by name. -/
def execCgen (s : State) : Host.Outcome State Fault Refusal :=
  frontEnd .cgen s
    (match s.codeWords with
     | .error f => .fault f
     | .ok ws =>
       if (keysOf s.freq).all (fun k => (wordOf ws k).isSome) then
         match (keysOf s.freq).find? (tooLong s.cfg.maxLen ws) with
         | some k => .next (s.raise .maxCodeLengthExceeded (k.setWidth 16))
         | none => .next ((s.setCode (tableOfWords (keysOf s.freq) ws)).setPhase .codes)
       else .fault .keyWithoutPath)

/-- `CGET sym`: `RDATA <- zext_64(CODE[sym].bits)`, `RAUX <- zext_8(CODE[sym].len)` (rules R115, R116). -/
def execCget (sym : Sym) (s : State) : Host.Outcome State Fault Refusal :=
  frontEnd (.cget sym) s
    (.next (s.readBack ((s.readCode sym).bits.setWidth 64) ((s.readCode sym).len.setWidth 8)))

end Sys2Proof.Machine
end

