-- ==== Sys2Proof/Machine/Compressor.lean ====
section
/-! DEFINITION. The bit-packing compressor CP: the flush function (rule R123) and the commands `CSTART`
(rule R121), `CPUT` (rule R122) and `CEND` (rule R124). -/

namespace Sys2Proof.Machine

/-- The first `n` whole groups of 8 bits, each packed, and the bits that are left (rule R123). -/
def flushGroups : Nat → BitSeq → List Byte × BitSeq
  | 0, b => ([], b)
  | n + 1, b =>
    let r := flushGroups n (b.drop 8)
    (pack8 (b.take 8) :: r.1, r.2)

/-- `flush(B)`: the `floor(|B| / 8)` bytes it emits and the `|B| mod 8` bits it returns (rule R123). -/
def flush (b : BitSeq) : List Byte × BitSeq := flushGroups (b.length / 8) b

/-- The buffer inside a `CPUT`: the pending bits, then the code word from its root-side bit (rules R122, R126). -/
def State.cputBuffer (s : State) (byte : Byte) : BitSeq :=
  pendingBits s.pcnt s.pbits ++ (s.readCode byte).word

/-- `CSTART` (rule R121). -/
def execCstart (s : State) : Host.Outcome State Fault Refusal :=
  frontEnd .cstart s (.next ((s.setPending []).setPhase .comp))

/-- `CPUT byte` (rule R122). -/
def execCput (byte : Byte) (s : State) : Host.Outcome State Fault Refusal :=
  frontEnd (.cput byte) s
    (if (s.readCode byte).len = 0 then .next (s.raise .symbolNotInCodeTable (byte.setWidth 16))
     else .next ((s.emit (flush (s.cputBuffer byte)).1).setPending (flush (s.cputBuffer byte)).2))

/-- The bytes `CEND` emits: `(PBITS << 1)[7:0]` when bits are pending, else none (rule R124). -/
def State.cendBytes (s : State) : List Byte := if s.pcnt = 0 then [] else [s.pbits.setWidth 8 <<< 1]

/-- `CEND` (rule R124). -/
def execCend (s : State) : Host.Outcome State Fault Refusal :=
  frontEnd .cend s (.next ((((s.emit s.cendBytes).setTbc s.pcnt).setPending []).setPhase .done))

end Sys2Proof.Machine
end

