-- ==== Sys2Proof/Machine/TreeBuilder.lean ====
section
/-! DEFINITION. The tree builder TB: the build procedure (rules R90 to R94, R96, R98, R99) and the commands
`TBUILD` (rule R95) and `TGET` (rule R100). -/

namespace Sys2Proof.Machine

/-- One member of the queue `Q` with its key: `key(i) = (NODE[i].weight, i)` (rules R26, R92). -/
structure QueueEntry where
  weight : Weight
  idx : NodeIdx
  deriving DecidableEq, Repr

/-- `key(i) < key(j)`, lexicographic (rule R92). -/
def QueueEntry.lt (a b : QueueEntry) : Bool :=
  decide (a.weight < b.weight) || (a.weight == b.weight && decide (a.idx < b.idx))

/-- `argmin_key(Q)` and `Q` without it; nothing of an empty queue (rule R93). -/
def extractMin : List QueueEntry → Option (QueueEntry × List QueueEntry)
  | [] => none
  | e :: q =>
    match extractMin q with
    | none => some (e, [])
    | some (m, rest) => if QueueEntry.lt e m then some (e, q) else some (m, e :: rest)

/-- The leaf of a symbol: `{weight = zext_40(FREQ[s]), left = NIL, right = NIL}` (rule R91). -/
def leafNode (freq : Table Count) (s : Sym) : Node := ⟨(freqOf freq s).setWidth 40, NIL, NIL⟩

/-- The leaf of a symbol as a member of the queue (rule R91). -/
def leafEntry (freq : Table Count) (s : Sym) : QueueEntry := ⟨(freqOf freq s).setWidth 40, leafIdx s⟩

/-- Write the leaf of every key into the arena (rule R91). -/
def writeLeaves (freq : Table Count) (keys : List Sym) (node : Table Node) : Table Node :=
  keys.foldl (fun t s => Table.write nodeDefault t s.toNat (leafNode freq s)) node

/-- The local state of the build loop: how many merges are done, the queue, the arena. -/
structure MergeState where
  count : Nat
  queue : List QueueEntry
  node : Table Node
  deriving DecidableEq, Repr

/-- One pass of the loop: remove the two smallest, write node `256 + k`, insert it; nothing when the queue has
fewer than two members (rule R94). -/
def mergeOnce (m : MergeState) : Option MergeState :=
  match extractMin m.queue with
  | none => none
  | some (n1, q1) =>
    match extractMin q1 with
    | none => none
    | some (n2, q2) =>
      let w := n1.weight + n2.weight
      some { count := m.count + 1
             queue := ⟨w, BitVec.ofNat 9 (256 + m.count)⟩ :: q2
             node := Table.write nodeDefault m.node (256 + m.count) ⟨w, n1.idx, n2.idx⟩ }

/-- `while |Q| > 1`, under fuel: each pass makes the queue one shorter, so its length is fuel enough
(rules R94, R198). -/
def mergeLoop : Nat → MergeState → MergeState
  | 0, m => m
  | fuel + 1, m =>
    match mergeOnce m with
    | none => m
    | some m' => mergeLoop fuel m'

/-- The build loop run from the leaves of the keys (rules R91, R94). -/
def mergeAll (freq : Table Count) (node : Table Node) : MergeState :=
  let keys := keysOf freq
  mergeLoop keys.length ⟨0, keys.map (leafEntry freq), writeLeaves freq keys node⟩

/-- The one element left in the queue. -/
def rootOf : List QueueEntry → NodeIdx
  | [] => NIL
  | e :: _ => e.idx

/-- `build()`: nothing for an empty table, before anything is written (`EmptyFrequencyTable`, rule R99), else
the state with `NODE`, `ROOT`, `NSYM`, `NINT` written (rule R94). -/
def State.build (s : State) : Option State :=
  if keysOf s.freq = [] then none
  else
    let m := mergeAll s.freq s.node
    some (s.setTree m.node (rootOf m.queue) (BitVec.ofNat 9 (keysOf s.freq).length) (BitVec.ofNat 8 m.count))

/-- `TBUILD` (rule R95). -/
def execTbuild (s : State) : Host.Outcome State Fault Refusal :=
  frontEnd .tbuild s
    (match s.build with
     | none => .next (s.raise .emptyFrequencyTable 0)
     | some s' => .next (s'.setPhase .tree))

/-- What `TGET` puts in `RDATA`: the record of an allocated entry, else 0 (rules R22, R100, R101). -/
def State.nodeReadBack (s : State) (idx : NodeIdx) : BitVec 64 :=
  if s.alloc idx then nodeRecord idx (s.readNode idx) else 0

/-- `TGET idx` (rule R100). -/
def execTget (idx : NodeIdx) (s : State) : Host.Outcome State Fault Refusal :=
  frontEnd (.tget idx) s (.next (s.readBack (s.nodeReadBack idx) 0))

end Sys2Proof.Machine
end

