-- ==== Sys2Proof/Machine/Decompressor.lean ====
section
/-! DEFINITION. The bit-unpacking decompressor DP: the defensive check (rule R137), the walk (rules R139 to
R142) and the commands `DSTART` (rule R136) and `DBYTE` (rule R138). -/

namespace Sys2Proof.Machine

/-- `leafset(ROOT) = { s : FREQ[s] != 0 }` (rule R137). A tree whose leaf set is not defined, because a walk
meets no entry or never ends, fails the check: DESIGN CHOICE, log entry 7. -/
def State.leafSetMatches (s : State) : Bool :=
  match leavesBelow s.node walkFuel s.root [] with
  | .error _ => false
  | .ok ls => allSyms.all (fun k => (ls.any (fun e => e.1 == k)) == (s.readFreq k != 0))

/-- `DSTART tbc` (rule R136). -/
def execDstart (tbc : BitVec 3) (s : State) : Host.Outcome State Fault Refusal :=
  frontEnd (.dstart tbc) s
    (match s.build with
     | none => .next (s.raise .emptyFrequencyTable 0)
     | some s' =>
       if s'.leafSetMatches then .next (((s'.setTbc tbc).setDcur s'.root).setPhase .decode)
       else .next (s'.raise .corruptTree 0))

/-- How far a walk has come: it goes on, the hardware raised a fault and the command ended (rule R170), or the
model stops. -/
inductive Progress where
  | going (s : State)
  | raised (s : State)
  | stuck (f : Fault)
  deriving DecidableEq, Repr

/-- `step(bit)` for an internal root (rule R140) and for a one-leaf tree (rule R141). -/
def walkStep (bit : Bool) (s : State) : Progress :=
  if isLeafIdx s.root then
    if bit then .raised (s.raise .invalidCodeBit 0) else .going (s.emit [leafSym s.root])
  else
    match nodeOf? s.node s.dcur with
    | none => .stuck .noSuchNode
    | some n =>
      let child := if bit then n.right else n.left
      if isLeafIdx child then .going ((s.emit [leafSym child]).setDcur s.root) else .going (s.setDcur child)

/-- The steps for the valid bits of a byte, first bit first, up to the first that does not go on (rule R138). -/
def walk : BitSeq → State → Progress
  | [], s => .going s
  | b :: bs, s =>
    match walkStep b s with
    | .going s' => walk bs s'
    | .raised s' => .raised s'
    | .stuck f => .stuck f

/-- After the valid bits: a byte flagged `LAST` ends the stream, well at `ROOT` and else by `TruncatedStream`
(rules R138, R142). -/
def State.endOfByte (s : State) (last : Bool) : State :=
  if last then
    if s.dcur = s.root then s.setPhase .done else s.raise .truncatedStream (s.dcur.setWidth 16)
  else s

/-- `DBYTE byte [, LAST]` (rule R138). -/
def execDbyte (byte : Byte) (last : Bool) (s : State) : Host.Outcome State Fault Refusal :=
  frontEnd (.dbyte byte last) s
    (match walk ((unpack8 byte).take (validBits last s.tbc)) s with
     | .going s' => .next (s'.endOfByte last)
     | .raised s' => .next s'
     | .stuck f => .fault f)

end Sys2Proof.Machine
end

