-- ==== Sys2Proof/Machine/FreqTable.lean ====
section
/-! DEFINITION. The frequency-table commands `FCLR`, `FSET`, `FGET` (rules R80 to R84). -/

namespace Sys2Proof.Machine

/-- `FCLR` (rule R81). -/
def execFclr (s : State) : Host.Outcome State Fault Refusal :=
  frontEnd .fclr s (.next s.clearFreq)

/-- `FSET sym, count` (rule R82). -/
def execFset (sym : Sym) (count : Count) (s : State) : Host.Outcome State Fault Refusal :=
  frontEnd (.fset sym count) s (.next (s.writeFreq sym count))

/-- `FGET sym`: `RDATA <- zext_64(FREQ[sym])`, `RAUX <- 0` (rule R83). -/
def execFget (sym : Sym) (s : State) : Host.Outcome State Fault Refusal :=
  frontEnd (.fget sym) s (.next (s.readBack ((s.readFreq sym).setWidth 64) 0))

end Sys2Proof.Machine
end

