-- ==== Sys2Proof/Machine/SystemCommand.lean ====
section
/-! DEFINITION. The system command `SRST` (rules R155, R156). -/

namespace Sys2Proof.Machine

/-- `SRST`: legal in every phase, before the fault check and the phase check (rules R68, R155). -/
def execSrst (s : State) : Host.Outcome State Fault Refusal := .next s.resetState

end Sys2Proof.Machine
end

