-- ==== Sys2Proof/Machine/Dispatch.lean ====
section
/-! DEFINITION. One arm per command, each a direct call of its meaning (rules R67, R68). -/

namespace Sys2Proof.Machine

def exec (i : Instr) (s : State) : Host.Outcome State Fault Refusal :=
  match i with
  | .srst => Sys2Proof.Machine.execSrst s
  | .fclr => Sys2Proof.Machine.execFclr s
  | .fset sym count => Sys2Proof.Machine.execFset sym count s
  | .fget sym => Sys2Proof.Machine.execFget sym s
  | .tbuild => Sys2Proof.Machine.execTbuild s
  | .tget idx => Sys2Proof.Machine.execTget idx s
  | .cgen => Sys2Proof.Machine.execCgen s
  | .cget sym => Sys2Proof.Machine.execCget sym s
  | .cstart => Sys2Proof.Machine.execCstart s
  | .cput byte => Sys2Proof.Machine.execCput byte s
  | .cend => Sys2Proof.Machine.execCend s
  | .dstart tbc => Sys2Proof.Machine.execDstart tbc s
  | .dbyte byte last => Sys2Proof.Machine.execDbyte byte last s

end Sys2Proof.Machine
end

