-- ==== Sys2Proof/Machine/Port.lean ====
section
/-! DEFINITION. The command port: what one event at the input pins does (rules R68, R190, R195). -/

namespace Sys2Proof.Machine

/-- One word taken from the command port (rule R68). -/
def runWord (w : CmdWord) (s : State) : Host.Outcome State Fault Refusal :=
  match decode w with
  | .instr i => exec i s
  | .illegal _ op => .next (s.illegalWord op)

/-- One event at the input pins, the soonest first. With none the block is idle and all state survives
(rule R178); a sampled `rst` does what `SRST` does (rule R190), and lands between two commands: DEDUCED, log entry 9. -/
def takeInput (s : State) : Host.Outcome State Fault Refusal :=
  match s.port with
  | [] => .next s
  | .rst :: rest => .next ({ s with port := rest } : State).resetState
  | .command w :: rest => runWord w { s with port := rest }

end Sys2Proof.Machine
end

