-- ==== Sys2Proof/Machine/Step.lean ====
section
/-! DEFINITION. One step of the machine: one event at the input pins. A command is one step, since every
command is atomic with respect to the host (rules R45, R195). -/

namespace Sys2Proof.Machine

/-- One step (rules R68, R190, R195). -/
def step (s : State) : Host.Outcome State Fault Refusal := takeInput s

/-- The state whose host presents this word next (rules R60, R195): a program is what the host sends. DESIGN CHOICE,
log entry 1. -/
def State.withFetchWord (s : State) (nbits w : Nat) : State :=
  { s with port := .command (BitVec.ofNat 64 (w % 2 ^ nbits)) :: s.port }

end Sys2Proof.Machine
end

