-- ==== Sys2Proof/Machine/Script.lean ====
section
/-! DEFINITION. Command scripts: the pseudo-instructions of rule R71 and the text syntax of rule R70. A script is what
a host sends over the command port; it is no state of the block. What rule R70 leaves open of the text is a DESIGN
CHOICE, log entry 10. -/

namespace Sys2Proof.Machine

/-! ## Pseudo-instructions (rule R71) -/

/-- One line of a script before expansion: a command or one of the four abbreviations of rule R71. -/
inductive ScriptLine where
  | command (i : Instr)
  /-- `FTAB s1:c1, ..., sk:ck` -/
  | ftab (entries : List (Sym × Count))
  /-- `CSTR b1 ... bk` -/
  | cstr (bytes : List Byte)
  /-- `DSTR b1 ... bk`, k at least 1: the bytes before the last, and the last -/
  | dstr (before : List Byte) (final : Byte)
  /-- `REP n, <command>` -/
  | rep (n : Nat) (i : Instr)
  deriving DecidableEq, Repr

/-- The expansion of a line (rule R71). -/
def ScriptLine.expand : ScriptLine → List Instr
  | .command i => [i]
  | .ftab entries => entries.map (fun e => .fset e.1 e.2)
  | .cstr bytes => bytes.map .cput
  | .dstr before final => before.map (fun b => .dbyte b false) ++ [.dbyte final true]
  | .rep n i => List.replicate n i

/-- The commands of a script, in order. -/
def expandScript (ls : List ScriptLine) : List Instr := ls.flatMap ScriptLine.expand

/-! ## Text (rule R70) -/

/-- The value of a digit, decimal or hexadecimal. -/
def digitValue (c : Char) : Option Nat :=
  if '0'.toNat ≤ c.toNat ∧ c.toNat ≤ '9'.toNat then some (c.toNat - '0'.toNat)
  else if 'a'.toNat ≤ c.toNat ∧ c.toNat ≤ 'f'.toNat then some (c.toNat - 'a'.toNat + 10)
  else if 'A'.toNat ≤ c.toNat ∧ c.toNat ≤ 'F'.toNat then some (c.toNat - 'A'.toNat + 10)
  else none

/-- A numeral in a base, read left to right after the value so far. -/
def readDigits (base : Nat) : Nat → List Char → Option Nat
  | acc, [] => some acc
  | acc, c :: cs =>
    match digitValue c with
    | none => none
    | some d => if d < base then readDigits base (acc * base + d) cs else none

/-- An operand: a decimal number, a hexadecimal number or one ASCII character in single quotes (rule R70). -/
def readOperand : List Char → Option Nat
  | ['\'', c, '\''] => if c.toNat < 128 then some c.toNat else none
  | '0' :: 'x' :: d :: ds => readDigits 16 0 (d :: ds)
  | c :: cs => readDigits 10 0 (c :: cs)
  | [] => none

/-- An operand that must fit in `n` bits. -/
def readBits (n : Nat) (t : List Char) : Option (BitVec n) :=
  match readOperand t with
  | some v => if v < 2 ^ n then some (BitVec.ofNat n v) else none
  | none => none

/-- Close the token being read, if there is one. -/
def closeToken (cur : List Char) (rest : List (List Char)) : List (List Char) :=
  if cur = [] then rest else cur :: rest

/-- The tokens of a line: words, commas, colons and quoted characters; `#` starts a comment to the end of the line
(rule R70). A quoted character, a comma and a colon are tokens of their own and need no space beside them, so that
`CPUT'a'` reads as `CPUT 'a'`: DESIGN CHOICE, log entry 10. -/
def tokens : List Char → List Char → List (List Char)
  | cur, [] => closeToken cur []
  | cur, '\'' :: c :: '\'' :: cs => closeToken cur (['\'', c, '\''] :: tokens [] cs)
  | cur, c :: cs =>
    if c = '#' then closeToken cur []
    else if c = ' ' then closeToken cur (tokens [] cs)
    else if c = ',' ∨ c = ':' then closeToken cur ([c] :: tokens [] cs)
    else tokens (cur ++ [c]) cs

/-- A command of rule R64 from its tokens. A `TGET` of 511 is no command (rule R65). -/
def readCommand : List (List Char) → Option Instr
  | [['S', 'R', 'S', 'T']] => some .srst
  | [['F', 'C', 'L', 'R']] => some .fclr
  | [['F', 'S', 'E', 'T'], s, [','], c] =>
    match readBits 8 s, readBits 32 c with
    | some s, some c => some (.fset s c)
    | _, _ => none
  | [['F', 'G', 'E', 'T'], s] => (readBits 8 s).map .fget
  | [['T', 'B', 'U', 'I', 'L', 'D']] => some .tbuild
  | [['T', 'G', 'E', 'T'], i] => ((readBits 9 i).map .tget).filter Instr.wf
  | [['C', 'G', 'E', 'N']] => some .cgen
  | [['C', 'G', 'E', 'T'], s] => (readBits 8 s).map .cget
  | [['C', 'S', 'T', 'A', 'R', 'T']] => some .cstart
  | [['C', 'P', 'U', 'T'], b] => (readBits 8 b).map .cput
  | [['C', 'E', 'N', 'D']] => some .cend
  | [['D', 'S', 'T', 'A', 'R', 'T'], t] => (readBits 3 t).map .dstart
  | [['D', 'B', 'Y', 'T', 'E'], b] => (readBits 8 b).map (fun b => .dbyte b false)
  | [['D', 'B', 'Y', 'T', 'E'], b, [','], ['L', 'A', 'S', 'T']] => (readBits 8 b).map (fun b => .dbyte b true)
  | _ => none

/-- The entries `s1:c1, ..., sk:ck` of `FTAB` (rule R71). -/
def readEntries : List (List Char) → Option (List (Sym × Count))
  | [s, [':'], c] =>
    match readBits 8 s, readBits 32 c with
    | some s, some c => some [(s, c)]
    | _, _ => none
  | s :: [':'] :: c :: [','] :: rest =>
    match readBits 8 s, readBits 32 c, readEntries rest with
    | some s, some c, some es => some ((s, c) :: es)
    | _, _, _ => none
  | _ => none

/-- The bytes `b1 b2 ... bk` of `CSTR` and `DSTR` (rule R71). -/
def readBytes : List (List Char) → Option (List Byte)
  | [] => some []
  | b :: bs =>
    match readBits 8 b, readBytes bs with
    | some b, some bs => some (b :: bs)
    | _, _ => none

/-- The bytes of `DSTR`, the last one apart; nothing for no byte (rule R71). -/
def splitLast : List Byte → Option (List Byte × Byte)
  | [] => none
  | [b] => some ([], b)
  | b :: bs => (splitLast bs).map (fun r => (b :: r.1, r.2))

/-- A line of a script; nothing for text that is none (rules R70, R71). -/
def readLine (line : List Char) : Option ScriptLine :=
  match tokens [] line with
  | ['F', 'T', 'A', 'B'] :: es => (readEntries es).map .ftab
  | ['C', 'S', 'T', 'R'] :: bs => (readBytes bs).map .cstr
  | ['D', 'S', 'T', 'R'] :: bs => ((readBytes bs).bind splitLast).map (fun r => .dstr r.1 r.2)
  | ['R', 'E', 'P'] :: n :: [','] :: c =>
    match readOperand n, readCommand c with
    | some n, some i => some (.rep n i)
    | _, _ => none
  | ts => (readCommand ts).map .command

end Sys2Proof.Machine
end

