-- ==== Sys2Proof/Safety.lean ====
section
/-! DEFINITION. What claims about HUFFCORE are stated in: the tree and code-table invariants of rules R22 to R24,
the rule that determines the tree (rules R92 to R94), the invariant of every reachable state, the launch premises
of rule R201, the end of a pass (rule R199), and the testable properties of rule R9. -/

namespace Sys2Proof.Machine

/-! ## Trees and paths -/

/-- The node reached from `i` by a bit sequence, `0` left and `1` right, through internal nodes only
(rule R111). -/
def follow (node : Table Node) : NodeIdx → BitSeq → Option NodeIdx
  | i, [] => some i
  | i, b :: bs =>
    if isLeafIdx i then none
    else
      match nodeOf? node i with
      | none => none
      | some n => follow node (if b then n.right else n.left) bs

/-- `i` is a child of the internal node `p`. -/
def isChildOf (node : Table Node) (i p : NodeIdx) : Prop := (nodeOf node p).left = i ∨ (nodeOf node p).right = i

/-- An allocated internal node (rule R22). -/
def internalIn (freq : Table Count) (nint : BitVec 8) (p : NodeIdx) : Prop :=
  allocIn freq nint p = true ∧ isLeafIdx p = false

/-- The tree invariants of rule R23 and the counts of rule R19, over the tables alone. -/
structure TreeOk (freq : Table Count) (node : Table Node) (root : NodeIdx) (nsym : BitVec 9) (nint : BitVec 8) :
    Prop where
  /-- (a) -/
  rootAlloc : allocIn freq nint root = true
  /-- (b): the children of an allocated internal node are allocated, different, and of smaller index -/
  children : ∀ p, internalIn freq nint p →
    allocIn freq nint (nodeOf node p).left = true ∧ allocIn freq nint (nodeOf node p).right = true ∧
    (nodeOf node p).left ≠ (nodeOf node p).right ∧
    (nodeOf node p).left.toNat < p.toNat ∧ (nodeOf node p).right.toNat < p.toNat
  /-- (b): its weight is the exact sum of theirs -/
  weights : ∀ p, internalIn freq nint p →
    (nodeOf node p).weight.toNat =
      (nodeOf node (nodeOf node p).left).weight.toNat + (nodeOf node (nodeOf node p).right).weight.toNat
  /-- (c): every allocated node but the root is the child of exactly one internal node -/
  oneParent : ∀ i, allocIn freq nint i = true → i ≠ root →
    ∃ p, (internalIn freq nint p ∧ isChildOf node i p) ∧
      ∀ q, internalIn freq nint q → isChildOf node i q → q = p
  /-- (c): the root is the child of none -/
  rootNoParent : ∀ p, internalIn freq nint p → ¬ isChildOf node root p
  /-- (d): the leaves reachable from the root are exactly the allocated leaves -/
  reachable : ∀ k : Sym, freqOf freq k ≠ 0 ↔ ∃ p, follow node root p = some (leafIdx k)
  /-- (e), and rule R21: an allocated leaf holds its count and no children -/
  leaves : ∀ k : Sym, freqOf freq k ≠ 0 → nodeOf node (leafIdx k) = leafNode freq k
  /-- rule R19 -/
  nsymCounts : nsym.toNat = (keysOf freq).length
  /-- rule R19: `NINT = NSYM - 1`, `NSYM >= 1` -/
  nintCounts : nsym.toNat = nint.toNat + 1

/-- `TreeOk` of a state's tables and registers (rule R23). -/
def State.treeOk (s : State) : Prop := TreeOk s.freq s.node s.root s.nsym s.nint

/-- `key(i) < key(j)` over the arena (rule R92). -/
def keyLt (node : Table Node) (i j : NodeIdx) : Prop :=
  (nodeOf node i).weight.toNat < (nodeOf node j).weight.toNat ∨
    ((nodeOf node i).weight.toNat = (nodeOf node j).weight.toNat ∧ i.toNat < j.toNat)

/-- The internal node of the `k`-th merge, `256 + k` (rule R21). -/
def mergeIdx (k : Nat) : NodeIdx := BitVec.ofNat 9 (256 + k)

/-- `i` is in the queue before merge `k`: it is a leaf of a key or was created by an earlier merge, and no earlier
merge removed it (rules R91, R94). -/
def queuedAt (freq : Table Count) (node : Table Node) (k : Nat) (i : NodeIdx) : Prop :=
  ((isLeafIdx i = true ∧ freqOf freq (leafSym i) ≠ 0) ∨ (256 ≤ i.toNat ∧ i.toNat < 256 + k)) ∧
    ∀ j, j < k → ¬ isChildOf node i (mergeIdx j)

/-- What rule R94 says of merge `k`: it removes the two smallest keys of the queue, the smaller becoming the left
child, and its weight is their exact sum (rules R92, R93, R96). -/
structure MergeOk (freq : Table Count) (node : Table Node) (k : Nat) : Prop where
  leftQueued : queuedAt freq node k (nodeOf node (mergeIdx k)).left
  rightQueued : queuedAt freq node k (nodeOf node (mergeIdx k)).right
  leftFirst : keyLt node (nodeOf node (mergeIdx k)).left (nodeOf node (mergeIdx k)).right
  smallest : ∀ i, queuedAt freq node k i → ¬ isChildOf node i (mergeIdx k) →
    keyLt node (nodeOf node (mergeIdx k)).right i
  weight : (nodeOf node (mergeIdx k)).weight.toNat =
    (nodeOf node (nodeOf node (mergeIdx k)).left).weight.toNat +
      (nodeOf node (nodeOf node (mergeIdx k)).right).weight.toNat

/-- What rules R91 and R94 say of the whole tree: the leaves hold the counts, every merge is as rule R94 says, and
after the last one the queue holds the root alone. -/
structure HuffmanTree (freq : Table Count) (node : Table Node) (root : NodeIdx) (nint : BitVec 8) : Prop where
  leaves : ∀ k : Sym, freqOf freq k ≠ 0 → nodeOf node (leafIdx k) = leafNode freq k
  merges : ∀ k, k < nint.toNat → MergeOk freq node k
  last : ∀ i, queuedAt freq node nint.toNat i ↔ i = root

/-- The sum of all counts, the weight of the root (rules R96, R103). -/
def totalCount (freq : Table Count) : Nat := ((keysOf freq).map (fun k => (freqOf freq k).toNat)).sum

/-! ## Code words -/

/-- `p` is the code word of the key `k`: its path, or the single bit `0` under a one-leaf tree
(rules R111, R112). -/
def isCodeWord (node : Table Node) (root : NodeIdx) (k : Sym) (p : BitSeq) : Prop :=
  if isLeafIdx root then p = [false] else follow node root p = some (leafIdx k)

/-- What the code table holds after a fault-free `CGEN` (rules R24, R114, R117(a), R117(d)). -/
structure CodeOk (s : State) : Prop where
  absent : ∀ k : Sym, s.readFreq k = 0 → s.readCode k = codeDefault
  present : ∀ k : Sym, s.readFreq k ≠ 0 →
    ∃ p, isCodeWord s.node s.root k p ∧ 1 ≤ p.length ∧ p.length ≤ s.cfg.maxLen ∧ s.readCode k = codeEntry p

/-! ## The invariant of every reachable state -/

/-- `DCUR` is `ROOT` or an allocated internal node (rule R28). -/
def State.cursorOk (s : State) : Prop := s.dcur = s.root ∨ internalIn s.freq s.nint s.dcur

/-- What holds in every state a run from reset reaches. -/
structure Inv (s : State) : Prop where
  /-- the instance is a legal one (rule R3) -/
  config : s.cfg.legal = true
  /-- the tables are in canonical form, their indices in range (rules R40, R41, R44) -/
  freqWf : Table.wf 256 freqDefault s.freq = true
  nodeWf : Table.wf 511 nodeDefault s.node = true
  codeWf : Table.wf 256 codeDefault s.code = true
  /-- `ERR != 0` if and only if `PHASE = FAULT` (rule R14) -/
  errIffFault : s.err ≠ 0 ↔ s.phase = .fault
  /-- `ERR` holds 0 or one of the eight codes, `EINFO` 0 while `ERR` does (rule R161) -/
  errCode : s.err = 0 ∧ s.einfo = 0 ∨ ∃ f, s.err = HwFault.code f
  /-- the unused low bits of `PBITS` are 0 (rule R27) -/
  pending : s.pbits = pendingImage (pendingBits s.pcnt s.pbits)
  /-- wherever the tree is valid, the invariants of rules R19 and R23 -/
  tree : s.phase.treeValid = true → s.treeOk
  /-- wherever the code table is valid, it is the tree's (rules R24, R114) -/
  code : s.phase = .codes ∨ s.phase = .comp → CodeOk s
  /-- `DCUR` is `ROOT` or an allocated internal node (rule R28) -/
  cursor : s.phase = .decode → s.cursorOk

/-! ## What the host can tell apart -/

/-- Two states the host cannot tell apart: equal but for arena entries that are not allocated and, before any `CGEN`
wrote it, the code table (rules R22, R24). -/
structure SameView (s t : State) : Prop where
  rest : t = { s with node := t.node, code := t.code }
  nodes : ∀ i, s.alloc i = true → t.readNode i = s.readNode i
  codes : s.phase = .codes ∨ s.phase = .comp → ∀ k, t.readCode k = s.readCode k

/-! ## Runs -/

/-- `Fresh`: the state equals the reset state of its instance (rule R201). -/
def Fresh (s : State) : Prop := s = { State.resetOf s.cfg with port := s.port }

/-- `NoFault`: `ERR = 0` (rule R201). -/
def NoFault (s : State) : Prop := s.err = 0

/-- A pass has ended (rule R199). -/
def passEnded (s : State) : Bool := s.phase == .done || s.phase == .fault

/-- A pass has ended well, as far as the block can tell (rule R199). -/
def passEndedWell (s : State) : Bool := s.phase == .done && s.err == 0

/-- The transition table of rule R13, row by row: the phase a fault-free command leads to, and nothing for a pair
that is not in the table. -/
def transition : Phase → Instr → Option Phase
  | _, .srst => some .idle
  | .idle, .fclr => some .idle
  | .idle, .fset _ _ => some .idle
  | .idle, .fget _ => some .idle
  | .idle, .tbuild => some .tree
  | .idle, .dstart _ => some .decode
  | .tree, .fget _ => some .tree
  | .tree, .tget _ => some .tree
  | .tree, .cgen => some .codes
  | .codes, .fget _ => some .codes
  | .codes, .tget _ => some .codes
  | .codes, .cget _ => some .codes
  | .codes, .cstart => some .comp
  | .comp, .fget _ => some .comp
  | .comp, .tget _ => some .comp
  | .comp, .cget _ => some .comp
  | .comp, .cput _ => some .comp
  | .comp, .cend => some .done
  | .decode, .fget _ => some .decode
  | .decode, .tget _ => some .decode
  | .decode, .dbyte _ false => some .decode
  | .decode, .dbyte _ true => some .done
  | _, _ => none

/-- The commands of a list run one after another, each on the state the one before left (rules R48, R195). -/
def execAll : List Instr → State → Host.Outcome State Fault Refusal
  | [], s => .next s
  | i :: is, s =>
    match exec i s with
    | .next s' => execAll is s'
    | .fault f => .fault f
    | .refused r => .refused r

/-- The commands that decode a payload, the last byte flagged `LAST` (rules R71 `DSTR`, R142, R193). -/
def decodeCommands : List Byte → List Instr
  | [] => []
  | [b] => [.dbyte b true]
  | b :: c :: bs => .dbyte b false :: decodeCommands (c :: bs)

/-- The commands that load the counts of a byte sequence: one `FSET` for each byte that occurs (rules R84, R192
step 2). -/
def loadCommands (data : List Byte) : List Instr :=
  (allSyms.filter (fun k => data.contains k)).map (fun k => .fset k (BitVec.ofNat 32 (data.count k)))

/-- The commands of a compression pass up to the code table, after reset (rule R192 steps 2 to 4). -/
def tableCommands (data : List Byte) : List Instr := loadCommands data ++ [.tbuild, .cgen]

/-- The commands of a compression pass over a byte sequence, after reset (rule R192 steps 2 to 7). -/
def compressionPass (data : List Byte) : List Instr :=
  tableCommands data ++ [.cstart] ++ data.map .cput ++ [.cend]

/-- The commands of a decompression pass over a payload, after reset, with the counts and the trailing-bit count the
compressing side used (rule R193 steps 2 to 4). -/
def decompressionPass (data : List Byte) (tbc : BitVec 3) (payload : List Byte) : List Instr :=
  loadCommands data ++ [.dstart tbc] ++ decodeCommands payload

/-! ## The testable properties of rule R9

`RoundTrips` (a), `PrefixFree` (b), `SymbolCoverage` (c), `OneLeafTree` (d), `SizeInvariant` (e), `SameTree` (f). -/

/-- Rule R9(a), `decompress(compress(X)) == X`: the compression pass of rule R192 over the bytes ends well, and after
`SRST` the decompression pass of rule R193, with the same counts, the `TBC` it left and the bytes of its `OUT`, ends
well and has emitted the bytes again. -/
def RoundTrips (s : State) (data : List Byte) : Prop :=
  ∃ t u, execAll (compressionPass data) s = .next t ∧ passEndedWell t = true ∧
    execAll (.srst :: decompressionPass data t.tbc t.out) t = .next u ∧ passEndedWell u = true ∧ u.out = data

/-- A node of the tree: one that a path from the root reaches (rule R111). -/
def State.inTree (s : State) (i : NodeIdx) : Prop := ∃ p, follow s.node s.root p = some i

/-- Rule R9(b): no code word is a prefix of another symbol's. -/
def PrefixFree (s : State) : Prop :=
  ∀ j k, j ≠ k → (s.readCode j).len ≠ 0 → (s.readCode k).len ≠ 0 → ¬ (s.readCode j).word <+: (s.readCode k).word

/-- Rule R9(c): the keys of the frequency table, the keys of the code table and the leaf symbols of the tree are the
same symbols. -/
def SymbolCoverage (s : State) : Prop :=
  ∀ k, (s.readFreq k ≠ 0 ↔ (s.readCode k).len ≠ 0) ∧ (s.readFreq k ≠ 0 ↔ s.inTree (leafIdx k))

/-- Rule R9(d): the tree is the one leaf of this symbol, its code word the single bit `0` (rules R98, R112). -/
def OneLeafTree (s : State) (k : Sym) : Prop :=
  (∀ i, s.inTree i ↔ i = leafIdx k) ∧ (s.readCode k).word = [false]

/-- Exactly `n` things have the property. -/
def Exactly {α : Type} (n : Nat) (p : α → Prop) : Prop := ∃ l : List α, l.Nodup ∧ l.length = n ∧ ∀ x, x ∈ l ↔ p x

/-- Rule R9(e): with `n = NSYM` keys the tree has `n` leaves and `n - 1` internal nodes, and the code table `n`
entries. -/
structure SizeInvariant (s : State) : Prop where
  keys : Exactly s.nsym.toNat (fun k => s.readFreq k ≠ 0)
  leaves : Exactly s.nsym.toNat (fun k => s.inTree (leafIdx k))
  codes : Exactly s.nsym.toNat (fun k => (s.readCode k).len ≠ 0)
  internals : Exactly (s.nsym.toNat - 1) (fun i => s.inTree i ∧ isLeafIdx i = false)

/-- Rule R9(f): the same tree, record by record: the same root and counts, the same nodes, and the same record at
each. -/
structure SameTree (s t : State) : Prop where
  root : t.root = s.root
  nsym : t.nsym = s.nsym
  nint : t.nint = s.nint
  nodes : ∀ i, t.inTree i ↔ s.inTree i
  records : ∀ i, s.inTree i → t.readNode i = s.readNode i

/-! ## Where a command may not run -/

/-- Outside the listed phases, and not in `FAULT`, the command raises `BadSequence` with
`EINFO = (PHASE << 8) | OP` and changes nothing else (rules R68, R69, R161). -/
def outOfPhase (i : Instr) (phases : List Phase) : Prop :=
  ∀ s : State, s.phase ≠ .fault → s.phase ∉ phases →
    exec i s = .next { s with
      err := 0x11#8
      einfo := (s.phase.code.setWidth 16 <<< 8) ||| i.opcode.setWidth 16
      phase := .fault }

/-- A word with this opcode and one of these bits set raises `IllegalCommand` outside `FAULT`, with
`EINFO = OP`, and changes nothing else (rules R65, R68, R161). -/
def illegalWhen (op : BitVec 8) (reserved : CmdWord → Prop) : Prop :=
  ∀ (w : CmdWord) (s : State), wordOP w = op → reserved w → s.phase ≠ .fault →
    runWord w s = .next { s with err := 0x10#8, einfo := op.setWidth 16, phase := .fault }

/-- Some reserved bit of format `Z` is 1 (rule R62). -/
def reservedZ (w : CmdWord) : Prop := wordFLG w ≠ 0 ∨ wordA w ≠ 0 ∨ wordIMM w ≠ 0

/-- Some reserved bit of format `S` is 1 (rule R62). -/
def reservedS (w : CmdWord) : Prop := wordFLG w ≠ 0 ∨ (wordA w).extractLsb' 8 8 ≠ 0 ∨ wordIMM w ≠ 0

/-- Some reserved bit of format `SI` is 1 (rule R62). -/
def reservedSI (w : CmdWord) : Prop := wordFLG w ≠ 0 ∨ (wordA w).extractLsb' 8 8 ≠ 0

/-- Some reserved bit of format `N` is 1, or the index is 511 (rule R62). -/
def reservedN (w : CmdWord) : Prop :=
  wordFLG w ≠ 0 ∨ (wordA w).extractLsb' 9 7 ≠ 0 ∨ wordIMM w ≠ 0 ∨ (wordA w).extractLsb' 0 9 = 511#9

/-- Some reserved bit of format `T` is 1 (rule R62). -/
def reservedT (w : CmdWord) : Prop := wordFLG w ≠ 0 ∨ (wordA w).extractLsb' 3 13 ≠ 0 ∨ wordIMM w ≠ 0

/-- Some reserved bit of format `BL` is 1 (rule R62). -/
def reservedBL (w : CmdWord) : Prop :=
  (wordFLG w).extractLsb' 1 7 ≠ 0 ∨ (wordA w).extractLsb' 8 8 ≠ 0 ∨ wordIMM w ≠ 0

end Sys2Proof.Machine
end

