-- ==== Sys2Proof/Certificates/Slice0/Obligations.lean ====
section
/-! DEFINITION. The statements about HUFFCORE for the provers. Each says which rule of the spec it formalises. -/

open Sys2Proof Sys2Proof.Machine

/-! ## Encoding -/

/-- The example words of rule R64 and one word of every other command, written out from its encoding, decode to the
command they stand for. -/
def Obligations.ExampleWordsDecode : Prop :=
  decode 0x1100006100000004 = .instr (.fset 0x61 4) ∧
  decode 0x2100010400000000 = .instr (.tget 260) ∧
  decode 0x5000000500000000 = .instr (.dstart 5) ∧
  decode 0x5101009700000000 = .instr (.dbyte 0x97 true) ∧
  decode 0x510000FD00000000 = .instr (.dbyte 0xFD false) ∧
  decode 0x0100000000000000 = .instr .srst ∧
  decode 0x1000000000000000 = .instr .fclr ∧
  decode 0x1200006100000000 = .instr (.fget 0x61) ∧
  decode 0x2000000000000000 = .instr .tbuild ∧
  decode 0x3000000000000000 = .instr .cgen ∧
  decode 0x3100006300000000 = .instr (.cget 0x63) ∧
  decode 0x4000000000000000 = .instr .cstart ∧
  decode 0x4100006300000000 = .instr (.cput 0x63) ∧
  decode 0x4200000000000000 = .instr .cend

/-- Rule R67, which the spec marks as its own inference from rules R61 to R65: encoding a command and decoding the
word gives the command back, and a word that decodes to a command is the encoding of it, so two different legal
words decode to different commands. -/
def Obligations.DecodeInvertsEncode : Prop :=
  (∀ i : Instr, i.wf = true → decode (encode i) = .instr i) ∧
  (∀ (w : CmdWord) (i : Instr), decode w = .instr i → i.wf = true ∧ encode i = w) ∧
  (∀ (v w : CmdWord) (i j : Instr), v ≠ w → decode v = .instr i → decode w = .instr j → i ≠ j)

/-- Rule R64: a word that selects a row of the table by match and mask decodes to a command of that row's mnemonic;
so no word selects two rows. -/
def Obligations.SelectedRowIsDecoded : Prop :=
  ∀ (w : CmdWord) (row : OpcodeRow), row ∈ opcodeTable →
    (row.selects w = true ↔ ∃ i, decode w = .instr i ∧ i.mnemonic = row.mnemonic)

/-- Rule R65: a word is illegal exactly when no row selects it, for one of the reasons (a), (b), (c); the all-zero
and the all-ones words are; an illegal word raises `IllegalCommand` with `EINFO = OP` and changes nothing else, and
in `FAULT` it is ignored. -/
def Obligations.IllegalWordsRaiseIllegalCommand : Prop :=
  (∀ w : CmdWord, (∃ why, decode w = .illegal why (wordOP w)) ↔ ∀ row ∈ opcodeTable, row.selects w = false) ∧
  (∀ w : CmdWord, decode w = .illegal .unknownOpcode (wordOP w) ↔
    wordOP w ∉ [0x01#8, 0x10#8, 0x11#8, 0x12#8, 0x20#8, 0x21#8, 0x30#8, 0x31#8, 0x40#8, 0x41#8, 0x42#8, 0x50#8, 0x51#8]) ∧
  (∀ w : CmdWord, decode w = .illegal .reservedBit (wordOP w) ↔
    wordOP w ∈ [0x01#8, 0x10#8, 0x20#8, 0x30#8, 0x40#8, 0x42#8] ∧ reservedZ w ∨
      wordOP w ∈ [0x12#8, 0x31#8, 0x41#8] ∧ reservedS w ∨ wordOP w = 0x11 ∧ reservedSI w ∨
      wordOP w = 0x21 ∧ (wordFLG w ≠ 0 ∨ (wordA w).extractLsb' 9 7 ≠ 0 ∨ wordIMM w ≠ 0) ∨
      wordOP w = 0x50 ∧ reservedT w ∨ wordOP w = 0x51 ∧ reservedBL w) ∧
  (∀ w : CmdWord, decode w = .illegal .nilIndex (wordOP w) ↔ w = 0x210001FF00000000#64) ∧
  (∀ row ∈ opcodeTable, row.selects 0#64 = false ∧ row.selects (BitVec.allOnes 64) = false) ∧
  (∀ (w : CmdWord) (s : State), (∀ row ∈ opcodeTable, row.selects w = false) →
    runWord w s =
      if s.phase = .fault then .next s
      else .next { s with err := 0x10#8, einfo := (wordOP w).setWidth 16, phase := .fault })

/-! ## The step and the front end -/

/-- A step whose next input is a word takes it through the front end, the word consumed, whatever the word: an
illegal one too (the model's port of pending inputs, log entry 1, stands for the command port of rule R195). A word
that decodes to a command so runs that command; and `withFetchWord` is such an input. -/
def Obligations.StepRunsTheDecodedCommand : Prop :=
  (∀ (s : State) (w : CmdWord) (rest : List PortInput),
    s.port = .command w :: rest → step s = runWord w { s with port := rest }) ∧
  (∀ (s : State) (w : CmdWord) (rest : List PortInput) (i : Instr),
    s.port = .command w :: rest → decode w = .instr i → step s = exec i { s with port := rest }) ∧
  (∀ (s : State) (w : Nat) (i : Instr), decode (BitVec.ofNat 64 w) = .instr i →
    step (s.withFetchWord 64 w) = exec i s)

/-- Rules R178 and R190 over the model's port (log entry 1): with no input the block is idle and all its state
survives; a sampled `rst` puts every register and the frequency table at its reset value and empties `OUT`. -/
def Obligations.StepIdlesAndResets : Prop :=
  (∀ s : State, s.port = [] → step s = .next s) ∧
  (∀ (s : State) (rest : List PortInput), s.port = .rst :: rest →
    ∃ t, step s = .next t ∧ t.phase = .idle ∧ t.err = 0 ∧ t.einfo = 0 ∧ t.tbc = 0 ∧ t.root = 511 ∧ t.nsym = 0 ∧
      t.nint = 0 ∧ t.rdata = 0 ∧ t.raux = 0 ∧ t.pcnt = 0 ∧ t.pbits = 0 ∧ t.dcur = 511 ∧
      (∀ k, t.readFreq k = 0) ∧ t.out = [] ∧ t.cfg = s.cfg ∧ t.port = rest)

/-- Rule R68: the checks every word goes through, in their order. `SRST` resets; in `FAULT` everything else is
ignored; an illegal word raises `IllegalCommand`; a command out of phase raises `BadSequence`. -/
def Obligations.FrontEndChecksInOrder : Prop :=
  ∀ (w : CmdWord) (s : State),
    (decode w = .instr .srst → runWord w s = .next s.resetState) ∧
    (decode w ≠ .instr .srst → s.phase = .fault → runWord w s = .next s) ∧
    (∀ why op, decode w = .illegal why op → s.phase ≠ .fault → op = wordOP w ∧
      runWord w s = .next { s with err := 0x10#8, einfo := op.setWidth 16, phase := .fault }) ∧
    (∀ i, decode w = .instr i → i ≠ .srst → s.phase ≠ .fault → transition s.phase i = none →
      runWord w s = .next { s with
        err := 0x11#8
        einfo := (s.phase.code.setWidth 16 <<< 8) ||| (wordOP w).setWidth 16
        phase := .fault }) ∧
    (∀ i, decode w = .instr i → runWord w s = exec i s)

/-- Rule R13: a command that is in the table for the current phase and raises no fault moves `PHASE` as the table
says; every other pair raises `BadSequence`, except that `SRST` is legal everywhere and commands in `FAULT` are
ignored. -/
def Obligations.PhaseMovesAsTheTableSays : Prop :=
  (∀ s : State, ∃ t, exec .srst s = .next t ∧ t.phase = .idle) ∧
  (∀ (i : Instr) (s : State), i ≠ .srst → s.phase = .fault → exec i s = .next s) ∧
  (∀ (i : Instr) (s t : State) (p : Phase), transition s.phase i = some p → exec i s = .next t →
    t.phase = p ∨ (t.phase = .fault ∧ t.err ≠ 0)) ∧
  (∀ (i : Instr) (s : State), s.phase ≠ .fault → transition s.phase i = none →
    exec i s = .next { s with
      err := 0x11#8
      einfo := (s.phase.code.setWidth 16 <<< 8) ||| i.opcode.setWidth 16
      phase := .fault })

/-- Rule R173: in `FAULT` every word except a legal `SRST` is ignored, legal, illegal or out of sequence. -/
def Obligations.FaultPhaseIgnoresAllButSrst : Prop :=
  ∀ (w : CmdWord) (s : State), s.phase = .fault → w ≠ 0x0100000000000000#64 → runWord w s = .next s

/-- Rule R170: `raise` writes `ERR`, `EINFO` and `PHASE` and nothing else; with the codes of rule R161. -/
def Obligations.RaiseWritesThreeRegisters : Prop :=
  (∀ (s : State) (f : HwFault) (info : BitVec 16),
    s.raise f info = { s with err := f.code, einfo := info, phase := .fault }) ∧
  HwFault.code .emptyFrequencyTable = 0x01 ∧ HwFault.code .maxCodeLengthExceeded = 0x02 ∧
  HwFault.code .corruptTree = 0x03 ∧ HwFault.code .symbolNotInCodeTable = 0x04 ∧
  HwFault.code .truncatedStream = 0x05 ∧ HwFault.code .illegalCommand = 0x10 ∧
  HwFault.code .badSequence = 0x11 ∧ HwFault.code .invalidCodeBit = 0x12

/-! ## Reset and the status pins -/

/-- Rule R31: the reset value of every register, of `FREQ` and of `OUT` (`NODE` and `CODE` have none). -/
def Obligations.ResetStateValues : Prop :=
  let s := State.reset
  s.phase = .idle ∧ s.err = 0 ∧ s.einfo = 0 ∧ s.tbc = 0 ∧ s.root = 511 ∧ s.nsym = 0 ∧ s.nint = 0 ∧ s.rdata = 0 ∧
    s.raux = 0 ∧ s.pcnt = 0 ∧ s.pbits = 0 ∧ s.dcur = 511 ∧ (∀ k, s.readFreq k = 0) ∧ s.out = []

/-- Rules R12, R16, R34: what the pins show of a state. -/
def Obligations.PinsShowTheRegisters : Prop :=
  (Phase.code .idle = 0 ∧ Phase.code .tree = 1 ∧ Phase.code .codes = 2 ∧ Phase.code .comp = 3 ∧
    Phase.code .decode = 4 ∧ Phase.code .done = 5 ∧ Phase.code .fault = 7) ∧
  ∀ s : State, (s.pins.fault = true ↔ s.err ≠ 0) ∧ s.pins.phase = s.phase.code ∧ s.pins.err = s.err ∧
    s.pins.einfo = s.einfo ∧ s.pins.tbc = s.tbc ∧ s.pins.root = s.root ∧ s.pins.nsym = s.nsym ∧
    s.pins.nint = s.nint ∧ s.pins.rdata = s.rdata ∧ s.pins.raux = s.raux ∧ s.pins.pcnt = s.pcnt ∧
    s.pins.pbits = s.pbits ∧ s.pins.dcur = s.dcur

/-- Rule R155, `SRST`: in every phase every register and the frequency table take their reset values and `OUT` is
empty; a word with its opcode and any other bit set is illegal, and ignored in `FAULT`. -/
def Obligations.SrstResetsEverything : Prop :=
  decode 0x0100000000000000 = .instr .srst ∧
  (∀ s : State, ∃ t, exec .srst s = .next t ∧ t.phase = .idle ∧ t.err = 0 ∧ t.einfo = 0 ∧ t.tbc = 0 ∧ t.root = 511 ∧
    t.nsym = 0 ∧ t.nint = 0 ∧ t.rdata = 0 ∧ t.raux = 0 ∧ t.pcnt = 0 ∧ t.pbits = 0 ∧ t.dcur = 511 ∧
    (∀ k, t.readFreq k = 0) ∧ t.out = [] ∧ t.cfg = s.cfg ∧ t.port = s.port) ∧
  illegalWhen 0x01 reservedZ ∧
  (∀ (w : CmdWord) (s : State), wordOP w = 0x01 → reservedZ w → s.phase = .fault → runWord w s = .next s)

/-! ## The frequency table -/

/-- Rule R81, `FCLR`. -/
def Obligations.FclrEmptiesTheTable : Prop :=
  decode 0x1000000000000000 = .instr .fclr ∧
  (∀ s : State, s.phase = .idle →
    ∃ t, exec .fclr s = .next t ∧ (∀ k, t.readFreq k = 0) ∧ t = { s with freq := t.freq }) ∧
  outOfPhase .fclr [.idle] ∧ illegalWhen 0x10 reservedZ

/-- Rule R82, `FSET`. -/
def Obligations.FsetWritesOneCount : Prop :=
  (∀ (sym : Sym) (count : Count),
    decode (0x1100000000000000#64 ||| (sym.setWidth 64 <<< 32) ||| count.setWidth 64) = .instr (.fset sym count)) ∧
  (∀ (sym : Sym) (count : Count) (s : State), s.phase = .idle →
    ∃ t, exec (.fset sym count) s = .next t ∧
      (∀ k, t.readFreq k = if k = sym then count else s.readFreq k) ∧ t = { s with freq := t.freq }) ∧
  (∀ (sym : Sym) (count : Count), outOfPhase (.fset sym count) [.idle]) ∧ illegalWhen 0x11 reservedSI

/-- Rule R83, `FGET`. -/
def Obligations.FgetReadsOneCount : Prop :=
  (∀ sym : Sym, decode (0x1200000000000000#64 ||| (sym.setWidth 64 <<< 32)) = .instr (.fget sym)) ∧
  (∀ (sym : Sym) (s : State), s.phase ∈ [.idle, .tree, .codes, .comp, .decode] →
    exec (.fget sym) s = .next { s with rdata := (s.readFreq sym).setWidth 64, raux := 0 }) ∧
  (∀ sym : Sym, outOfPhase (.fget sym) [.idle, .tree, .codes, .comp, .decode]) ∧ illegalWhen 0x12 reservedS

/-- The remark in rule R82, which the spec marks as its own inference: the order in which entries are set, and
entries set and removed again, have no effect on what the table holds. The canonical form is the model's (log entry
5): in canonical form, two tables that read alike are the same data. -/
def Obligations.FrequencyTableIsItsReads : Prop :=
  ∀ s t : State, Table.wf 256 freqDefault s.freq = true → Table.wf 256 freqDefault t.freq = true →
    (∀ k, s.readFreq k = t.readFreq k) → s.freq = t.freq

/-- Rule R71, and the remark in rule R82 on the order of loading, which the spec marks as its own inference: `FTAB`
sets the counts it lists and no other, and with no symbol listed twice the order of the list has no effect. -/
def Obligations.FtabLoadsTheTable : Prop :=
  ∀ (entries : List (Sym × Count)) (s : State), s.phase = .idle → (entries.map Prod.fst).Nodup →
    (∃ t, execAll (ScriptLine.expand (.ftab entries)) s = .next t ∧ t = { s with freq := t.freq } ∧
      ∀ k, t.readFreq k = (entries.lookup k).getD (s.readFreq k)) ∧
    (Table.wf 256 freqDefault s.freq = true → ∀ others : List (Sym × Count), others.Perm entries →
      execAll (ScriptLine.expand (.ftab others)) s = execAll (ScriptLine.expand (.ftab entries)) s)

/-! ## The tree builder -/

/-- Rules R91 to R94: `build()` of a non-empty table gives the Huffman tree of the counts, in the arena's allocated
entries only, with `NSYM` the number of keys and `NINT = NSYM - 1`; of an empty table it gives nothing. -/
def Obligations.BuildFollowsTheMergeRule : Prop :=
  ∀ s : State,
    ((∀ k, s.readFreq k = 0) → s.build = none) ∧
    ((∃ k, s.readFreq k ≠ 0) →
      ∃ t, s.build = some t ∧ HuffmanTree s.freq t.node t.root t.nint ∧
        t.nsym.toNat = (keysOf s.freq).length ∧ t.nsym.toNat = t.nint.toNat + 1 ∧
        (∀ i, allocIn s.freq t.nint i = false → t.readNode i = s.readNode i) ∧
        t = { s with node := t.node, root := t.root, nsym := t.nsym, nint := t.nint })

/-- Rule R23, which the spec marks as its own inference from rules R91 and R94: after `build()` the tree invariants
hold. -/
def Obligations.BuildGivesATree : Prop :=
  ∀ s t : State, s.build = some t → TreeOk t.freq t.node t.root t.nsym t.nint

/-- Rule R96: no weight wraps. After `build()` an internal node's weight is the exact sum of its children's, the
root's is the sum of all counts, and every allocated node's is at most `256 * (2^32 - 1)`. -/
def Obligations.WeightsAreExact : Prop :=
  ∀ s t : State, s.build = some t →
    (t.readNode t.root).weight.toNat = totalCount s.freq ∧
    (∀ i, internalIn t.freq t.nint i → (t.readNode i).weight.toNat =
      (t.readNode (t.readNode i).left).weight.toNat + (t.readNode (t.readNode i).right).weight.toNat) ∧
    ∀ i, allocIn t.freq t.nint i = true → (t.readNode i).weight.toNat ≤ 256 * (2 ^ 32 - 1)

/-- Rule R98: a table with exactly one key gives a tree that is that leaf. -/
def Obligations.OneKeyGivesOneLeaf : Prop :=
  ∀ (s : State) (k : Sym), s.readFreq k ≠ 0 → (∀ j, j ≠ k → s.readFreq j = 0) →
    ∃ t, s.build = some t ∧ t.root.toNat = k.toNat ∧ t.nsym = 1 ∧ t.nint = 0

/-- Rule R99: an empty table raises `EmptyFrequencyTable` with `EINFO = 0`, before any entry or register is written,
whichever of the two commands builds. -/
def Obligations.EmptyTableFaults : Prop :=
  ∀ s : State, s.phase = .idle → (∀ k, s.readFreq k = 0) →
    exec .tbuild s = .next { s with err := 0x01#8, einfo := 0, phase := .fault } ∧
    ∀ tbc, exec (.dstart tbc) s = .next { s with err := 0x01#8, einfo := 0, phase := .fault }

/-- Rule R102, which the spec marks as its own inference from rules R91 to R94: two runs of the build procedure from
tables that read alike write equal entries at every allocated index and equal `ROOT`, `NSYM`, `NINT`, whatever the
arena held before and whichever of the two commands runs it. -/
def Obligations.BuildIsDeterministic : Prop :=
  ∀ (c d t u : State) (i : Instr), c.phase = .idle → d.phase = .idle → (∀ k, c.readFreq k = d.readFreq k) →
    exec .tbuild c = .next t → t.phase = .tree → (i = .tbuild ∨ ∃ tbc, i = .dstart tbc) → exec i d = .next u →
    u.root = t.root ∧ u.nsym = t.nsym ∧ u.nint = t.nint ∧
      ∀ j, allocIn c.freq t.nint j = true → u.readNode j = t.readNode j

/-- Rule R95, `TBUILD`. -/
def Obligations.TbuildBuildsTheTree : Prop :=
  decode 0x2000000000000000 = .instr .tbuild ∧
  (∀ s : State, s.phase = .idle → (∃ k, s.readFreq k ≠ 0) →
    ∃ t, exec .tbuild s = .next t ∧ t.phase = .tree ∧ HuffmanTree s.freq t.node t.root t.nint ∧
      t.nsym.toNat = (keysOf s.freq).length ∧ t.nsym.toNat = t.nint.toNat + 1 ∧
      (∀ i, allocIn s.freq t.nint i = false → t.readNode i = s.readNode i) ∧
      t = { s with node := t.node, root := t.root, nsym := t.nsym, nint := t.nint, phase := .tree }) ∧
  (∀ s : State, s.phase = .idle → (∀ k, s.readFreq k = 0) →
    exec .tbuild s = .next { s with err := 0x01#8, einfo := 0, phase := .fault }) ∧
  outOfPhase .tbuild [.idle] ∧ illegalWhen 0x20 reservedZ

/-- Rules R100 and R101, `TGET`: the fields of the record, bit by bit, of an allocated entry, and 0 of any other. -/
def Obligations.TgetReadsOneNode : Prop :=
  (∀ idx : NodeIdx, idx ≠ 511 → decode (0x2100000000000000#64 ||| (idx.setWidth 64 <<< 32)) = .instr (.tget idx)) ∧
  (∀ (idx : NodeIdx) (s : State), s.phase ∈ [.tree, .codes, .comp, .decode] →
    ∃ t, exec (.tget idx) s = .next t ∧ t = { s with rdata := t.rdata, raux := 0 } ∧
      (s.alloc idx = false → t.rdata = 0) ∧
      (s.alloc idx = true →
        t.rdata.extractLsb' 63 1 = 1 ∧
        t.rdata.extractLsb' 62 1 = (if 256 ≤ idx.toNat then 1 else 0) ∧
        t.rdata.extractLsb' 58 4 = 0 ∧
        t.rdata.extractLsb' 49 9 = (s.readNode idx).left ∧
        t.rdata.extractLsb' 40 9 = (s.readNode idx).right ∧
        t.rdata.extractLsb' 0 40 = (s.readNode idx).weight)) ∧
  (∀ idx : NodeIdx, outOfPhase (.tget idx) [.tree, .codes, .comp, .decode]) ∧ illegalWhen 0x21 reservedN

/-! ## The code-table generator -/

/-- Rule R114, `CGEN`, on a legal instance and a tree that meets rule R23: every key gets its path as code word (or `0` under a one-leaf
tree), every other symbol none; where a path is longer than `MAXLEN`, the fault with the smallest such symbol. -/
def Obligations.CgenWritesThePaths : Prop :=
  decode 0x3000000000000000 = .instr .cgen ∧
  (∀ s : State, s.cfg.legal = true → s.phase = .tree → s.treeOk →
    (∀ k p, s.readFreq k ≠ 0 → isCodeWord s.node s.root k p → p.length ≤ s.cfg.maxLen) →
    ∃ t, exec .cgen s = .next t ∧
      (∀ k, s.readFreq k = 0 → t.readCode k = ⟨0, 0⟩) ∧
      (∀ k p, s.readFreq k ≠ 0 → isCodeWord s.node s.root k p →
        t.readCode k = ⟨BitVec.ofNat 6 p.length, BitVec.ofNat 63 (valOf p)⟩) ∧
      t = { s with code := t.code, phase := .codes }) ∧
  (∀ (s : State) (k : Sym) (p : BitSeq), s.cfg.legal = true → s.phase = .tree → s.treeOk → s.readFreq k ≠ 0 →
    isCodeWord s.node s.root k p → s.cfg.maxLen < p.length →
    (∀ j q, s.readFreq j ≠ 0 → isCodeWord s.node s.root j q → s.cfg.maxLen < q.length → k.toNat ≤ j.toNat) →
    exec .cgen s = .next { s with err := 0x02#8, einfo := k.setWidth 16, phase := .fault }) ∧
  outOfPhase .cgen [.tree] ∧ illegalWhen 0x30 reservedZ

/-- Every key of a tree that meets rule R23 has exactly one code word (rules R111, R112), so `CGEN` has one to
write. -/
def Obligations.EveryKeyHasOneCodeWord : Prop :=
  ∀ s : State, s.treeOk → ∀ k, s.readFreq k ≠ 0 →
    ∃ p, isCodeWord s.node s.root k p ∧ 1 ≤ p.length ∧ ∀ q, isCodeWord s.node s.root k q → q = p

/-- Rule R117, which the spec marks as its own inference: after a fault-free `CGEN`, (a) coverage, (b)
prefix-freedom, (c) completeness, (d) the length bound. -/
def Obligations.CodeTableProperties : Prop :=
  ∀ s t : State, s.cfg.legal = true → s.phase = .tree → s.treeOk → exec .cgen s = .next t → t.phase = .codes →
    (∀ k, (t.readCode k).len ≠ 0 ↔ t.readFreq k ≠ 0) ∧
    (∀ j k, j ≠ k → t.readFreq j ≠ 0 → t.readFreq k ≠ 0 → ¬ (t.readCode j).word <+: (t.readCode k).word) ∧
    (2 ≤ t.nsym.toNat → ∀ bs : BitSeq, 255 ≤ bs.length →
      ∃ k, (t.readFreq k ≠ 0 ∧ (t.readCode k).word <+: bs) ∧
        ∀ j, t.readFreq j ≠ 0 → (t.readCode j).word <+: bs → j = k) ∧
    (∀ k, t.readFreq k ≠ 0 → 1 ≤ (t.readCode k).len.toNat ∧ (t.readCode k).len.toNat ≤ t.cfg.maxLen)

/-- Rule R97, proved and not presumed: no leaf is deeper than 57, so on an instance with `MAXLEN` at least 57, the
default among them, `CGEN` after `TBUILD` never raises `MaxCodeLengthExceeded`. -/
def Obligations.NoCodeWordLongerThan57 : Prop :=
  ∀ s t : State, s.phase = .idle → exec .tbuild s = .next t → t.phase = .tree →
    (∀ k p, t.readFreq k ≠ 0 → isCodeWord t.node t.root k p → p.length ≤ 57) ∧
    (57 ≤ t.cfg.maxLen → ∃ u, exec .cgen t = .next u ∧ u.phase = .codes)

/-- Rules R115 and R116, `CGET`, with the corner cases of R115 on a code table that `CGEN` wrote (`CodeOk`): a symbol
with no code, and a code word of zeros. -/
def Obligations.CgetReadsOneCodeWord : Prop :=
  (∀ sym : Sym, decode (0x3100000000000000#64 ||| (sym.setWidth 64 <<< 32)) = .instr (.cget sym)) ∧
  (∀ (sym : Sym) (s : State), s.phase ∈ [.codes, .comp] →
    exec (.cget sym) s = .next { s with
      rdata := (s.readCode sym).bits.setWidth 64
      raux := (s.readCode sym).len.setWidth 8 }) ∧
  (∀ (sym : Sym) (s t : State), s.phase ∈ [.codes, .comp] → exec (.cget sym) s = .next t →
    (s.readCode sym).word = seqOf t.rdata.toNat t.raux.toNat ∧ t.rdata.getLsbD 63 = false ∧
      t.raux.extractLsb' 6 2 = 0) ∧
  (∀ (sym : Sym) (s : State), s.cfg.legal = true → s.phase ∈ [.codes, .comp] → CodeOk s →
    (s.readFreq sym = 0 ∨ (s.readCode sym).len = 0) → exec (.cget sym) s = .next { s with rdata := 0, raux := 0 }) ∧
  (∀ (sym : Sym) (s : State) (n : Nat), s.cfg.legal = true → s.phase ∈ [.codes, .comp] → s.treeOk → CodeOk s →
    s.readFreq sym ≠ 0 → isCodeWord s.node s.root sym (zeros n) →
    ∃ t, exec (.cget sym) s = .next t ∧ t.rdata = 0 ∧ t.raux.toNat = n ∧ 1 ≤ t.raux.toNat) ∧
  (∀ sym : Sym, outOfPhase (.cget sym) [.codes, .comp]) ∧ illegalWhen 0x31 reservedS

/-! ## The compressor -/

/-- Rule R42: packing and unpacking are inverse, most significant bit first, with the source's examples. -/
def Obligations.PackingIsMsbFirst : Prop :=
  (∀ b : Byte, unpack8 b = [b.getLsbD 7, b.getLsbD 6, b.getLsbD 5, b.getLsbD 4, b.getLsbD 3, b.getLsbD 2,
    b.getLsbD 1, b.getLsbD 0]) ∧
  (∀ b : Byte, pack8 (unpack8 b) = b) ∧
  (∀ g : BitSeq, g.length = 8 → unpack8 (pack8 g) = g ∧ (pack8 g).toNat = valOf g) ∧
  pack8 [true, true, true, true, true, true, true, true] = 0xFF ∧
  pack8 [false, false, false, false, false, false, false, true] = 0x01 ∧
  pack8 [false, false, false, false, true, false, true, true] = 0x0B

/-- Rule R123: `flush(B)` emits `floor(|B| / 8)` bytes, the groups of 8 bits from the front in order, and returns
the `|B| mod 8` bits that are left. -/
def Obligations.FlushEmitsWholeBytes : Prop :=
  ∀ b : BitSeq, (flush b).1.flatMap unpack8 ++ (flush b).2 = b ∧ (flush b).1.length = b.length / 8 ∧
    (flush b).2.length = b.length % 8

/-- Rule R121, `CSTART`. -/
def Obligations.CstartOpensTheStream : Prop :=
  decode 0x4000000000000000 = .instr .cstart ∧
  (∀ s : State, s.phase = .codes → exec .cstart s = .next { s with pcnt := 0, pbits := 0, phase := .comp }) ∧
  outOfPhase .cstart [.codes] ∧ illegalWhen 0x40 reservedZ

/-- Rule R122, `CPUT`: the pending bits, then the code word from its root-side bit, leave as whole bytes, and the
bits that are left are pending; a byte without a code raises `SymbolNotInCodeTable` before anything is appended. -/
def Obligations.CputAppendsOneCodeWord : Prop :=
  (∀ byte : Byte, decode (0x4100000000000000#64 ||| (byte.setWidth 64 <<< 32)) = .instr (.cput byte)) ∧
  (∀ (byte : Byte) (s : State), s.phase = .comp → (s.readCode byte).len = 0 →
    exec (.cput byte) s = .next { s with err := 0x04#8, einfo := byte.setWidth 16, phase := .fault }) ∧
  (∀ (byte : Byte) (s : State), s.phase = .comp → (s.readCode byte).len ≠ 0 →
    ∃ t bytes left, exec (.cput byte) s = .next t ∧
      t = { s with out := s.out ++ bytes, pcnt := t.pcnt, pbits := t.pbits } ∧
      bytes.length = (s.pcnt.toNat + (s.readCode byte).len.toNat) / 8 ∧
      bytes.flatMap unpack8 ++ left =
        (seqOf s.pbits.toNat 7).take s.pcnt.toNat ++ seqOf (s.readCode byte).bits.toNat (s.readCode byte).len.toNat ∧
      left.length ≤ 7 ∧ t.pcnt.toNat = left.length ∧
      t.pbits.toNat = valOf (left ++ zeros (7 - left.length))) ∧
  (∀ byte : Byte, outOfPhase (.cput byte) [.comp]) ∧ illegalWhen 0x41 reservedS

/-- Rule R124, `CEND`: the pending bits leave in one last byte, high, over zeros; `TBC` is their number. -/
def Obligations.CendClosesTheStream : Prop :=
  decode 0x4200000000000000 = .instr .cend ∧
  (∀ s : State, s.phase = .comp →
    exec .cend s = .next { s with
      out := s.out ++ (if s.pcnt = 0 then [] else [s.pbits.setWidth 8 <<< 1])
      tbc := s.pcnt, pcnt := 0, pbits := 0, phase := .done }) ∧
  (∀ p : BitSeq, p.length ≤ 7 → unpack8 ((pendingImage p).setWidth 8 <<< 1) = p ++ zeros (8 - p.length)) ∧
  outOfPhase .cend [.comp] ∧ illegalWhen 0x42 reservedZ

/-- Rules R125 and R127, which the spec marks as its own inferences from rules R122 to R124: a stream fed bytes that
have codes emits `m = ceil(L / 8)` bytes, whose first `L` bits are the code words in order and whose other bits are
0, and leaves `TBC = L mod 8`. -/
def Obligations.CompressedStreamIsTheCodeWords : Prop :=
  ∀ (s : State) (data : List Byte) (words : List BitSeq), s.cfg.legal = true → s.phase = .codes → s.treeOk →
    CodeOk s → List.Forall₂ (fun b p => s.readFreq b ≠ 0 ∧ isCodeWord s.node s.root b p) data words →
    ∃ t payload, execAll (.cstart :: (data.map .cput ++ [.cend])) s = .next t ∧ t.phase = .done ∧
      t.out = s.out ++ payload ∧ payload.length = (words.flatten.length + 7) / 8 ∧
      t.tbc.toNat = words.flatten.length % 8 ∧
      payload.flatMap unpack8 = words.flatten ++ zeros (8 * payload.length - words.flatten.length)

/-! ## The decompressor -/

/-- Rule R136, `DSTART`, on a table that is not empty and on one that is. -/
def Obligations.DstartOpensTheStream : Prop :=
  (∀ tbc : BitVec 3, decode (0x5000000000000000#64 ||| (tbc.setWidth 64 <<< 32)) = .instr (.dstart tbc)) ∧
  (∀ (tbc : BitVec 3) (s : State), s.phase = .idle → (∃ k, s.readFreq k ≠ 0) →
    ∃ t, exec (.dstart tbc) s = .next t ∧ t.phase = .decode ∧ t.tbc = tbc ∧ t.dcur = t.root ∧
      HuffmanTree s.freq t.node t.root t.nint ∧
      t.nsym.toNat = (keysOf s.freq).length ∧ t.nsym.toNat = t.nint.toNat + 1 ∧
      (∀ i, allocIn s.freq t.nint i = false → t.readNode i = s.readNode i) ∧
      t = { s with
        node := t.node, root := t.root, nsym := t.nsym, nint := t.nint
        tbc := tbc, dcur := t.root, phase := .decode }) ∧
  (∀ (tbc : BitVec 3) (s : State), s.phase = .idle → (∀ k, s.readFreq k = 0) →
    exec (.dstart tbc) s = .next { s with err := 0x01#8, einfo := 0, phase := .fault }) ∧
  (∀ tbc : BitVec 3, outOfPhase (.dstart tbc) [.idle]) ∧ illegalWhen 0x50 reservedT

/-- The remark in rule R137, which the spec marks as its own inference: the leaves reachable from the root `DSTART`
rebuilds are exactly the keys, and no command ever raises `CorruptTree`. -/
def Obligations.CorruptTreeIsUnreachable : Prop :=
  (∀ s t : State, s.build = some t →
    ∀ k, (∃ p, follow t.node t.root p = some (leafIdx k)) ↔ s.readFreq k ≠ 0) ∧
  (∀ (i : Instr) (s t : State), s.err ≠ 0x03 → exec i s = .next t → t.err ≠ 0x03)

/-- Rule R140: one step of the walk for a tree with an internal root. -/
def Obligations.WalkStepOfAnInternalRoot : Prop :=
  ∀ (s : State) (bit : Bool), 256 ≤ s.root.toNat → s.dcur ≠ 511 →
    walkStep bit s = .going
      (if (if bit then (s.readNode s.dcur).right else (s.readNode s.dcur).left).toNat < 256 then
        { s with
          out := s.out ++ [(if bit then (s.readNode s.dcur).right else (s.readNode s.dcur).left).setWidth 8]
          dcur := s.root }
      else { s with dcur := if bit then (s.readNode s.dcur).right else (s.readNode s.dcur).left })

/-- Rule R141: one step under a one-leaf tree. -/
def Obligations.WalkStepOfAOneLeafTree : Prop :=
  ∀ s : State, s.root.toNat < 256 →
    walkStep false s = .going { s with out := s.out ++ [s.root.setWidth 8] } ∧
    walkStep true s = .raised { s with err := 0x12#8, einfo := 0, phase := .fault }

/-- Rules R138, R139, R142, `DBYTE`, on a tree that meets rule R23 with the walk at the root or inside: the steps
are taken for the valid bits of the byte, most significant first; a byte flagged `LAST` then ends the stream, in
`DONE` at the root and by `TruncatedStream` elsewhere. -/
def Obligations.DbyteWalksTheValidBits : Prop :=
  (∀ (byte : Byte) (last : Bool),
    decode (0x5100000000000000#64 ||| ((BitVec.ofBool last).setWidth 64 <<< 48) ||| (byte.setWidth 64 <<< 32)) =
      .instr (.dbyte byte last)) ∧
  (∀ (byte : Byte) (last : Bool) (s : State), s.phase = .decode → s.treeOk → s.cursorOk →
    (∃ u, walk ((List.range (if last = true ∧ s.tbc ≠ 0 then s.tbc.toNat else 8)).map
          (fun j => byte.getLsbD (7 - j))) s = .going u ∧
      exec (.dbyte byte last) s = .next
        (if last then
          if u.dcur = u.root then { u with phase := .done }
          else { u with err := 0x05#8, einfo := u.dcur.setWidth 16, phase := .fault }
        else u)) ∨
    (s.root.toNat < 256 ∧ ∃ u, walk ((List.range (if last = true ∧ s.tbc ≠ 0 then s.tbc.toNat else 8)).map
          (fun j => byte.getLsbD (7 - j))) s = .raised u ∧
      exec (.dbyte byte last) s = .next u ∧ u.err = 0x12 ∧ u.einfo = 0 ∧ u.phase = .fault)) ∧
  (∀ (byte : Byte) (last : Bool), outOfPhase (.dbyte byte last) [.decode]) ∧ illegalWhen 0x51 reservedBL

/-- Rule R138: `DBYTE` writes `DCUR` and `PHASE` and appends to `OUT` at most as many symbols as it takes bits, and
the three registers of a fault where it raises one; everything else it leaves alone. -/
def Obligations.DbyteFrame : Prop :=
  ∀ (byte : Byte) (last : Bool) (s t : State), s.phase = .decode → s.treeOk → s.cursorOk →
    exec (.dbyte byte last) s = .next t →
    ∃ syms : List Byte, syms.length ≤ 8 ∧
      t = { s with
        out := s.out ++ syms, dcur := t.dcur, phase := t.phase, err := t.err, einfo := t.einfo } ∧
      (t.phase ≠ .fault → t.err = s.err ∧ t.einfo = s.einfo)

/-- Rule R142, and rules R29 and R145, which the spec marks as its own inferences: under an internal root, with `q`
the path to `DCUR`, the bits `q` and the valid bits of the byte are the code words of the symbols `DBYTE` emits,
followed by the path `q'` to the new `DCUR`. A byte that is not the last leaves the stream open; the last one ends
it in `DONE` where `q'` is empty and by `TruncatedStream` where it is not. Nothing but `OUT`, `DCUR`, `PHASE` and
the two registers of that fault is written. -/
def Obligations.DbyteEmitsWholeCodeWords : Prop :=
  ∀ (byte : Byte) (last : Bool) (s : State) (q : BitSeq), s.phase = .decode → s.treeOk → 256 ≤ s.root.toNat →
    follow s.node s.root q = some s.dcur → 256 ≤ s.dcur.toNat →
    ∃ t syms words q', exec (.dbyte byte last) s = .next t ∧
      List.Forall₂ (fun k p => s.readFreq k ≠ 0 ∧ isCodeWord s.node s.root k p) syms words ∧
      q ++ (unpack8 byte).take (validBits last s.tbc) = words.flatten ++ q' ∧
      follow s.node s.root q' = some t.dcur ∧ 256 ≤ t.dcur.toNat ∧
      (last = false → t = { s with out := s.out ++ syms, dcur := t.dcur }) ∧
      (last = true → q' = [] → t = { s with out := s.out ++ syms, dcur := s.root, phase := .done }) ∧
      (last = true → q' ≠ [] →
        t = { s with
          out := s.out ++ syms, dcur := t.dcur
          err := 0x05#8, einfo := t.dcur.setWidth 16, phase := .fault })

/-- Rules R141 and R142: under a one-leaf tree every valid bit 0 emits the root's symbol and a byte flagged `LAST`
ends the stream in `DONE`; the first valid bit 1 raises `InvalidCodeBit` after the symbols of the bits before it. -/
def Obligations.DbyteUnderAOneLeafTree : Prop :=
  ∀ (byte : Byte) (last : Bool) (s : State), s.phase = .decode → s.root.toNat < 256 → s.dcur = s.root →
    ((unpack8 byte).take (validBits last s.tbc) = zeros (validBits last s.tbc) →
      exec (.dbyte byte last) s = .next { s with
        out := s.out ++ List.replicate (validBits last s.tbc) (s.root.setWidth 8)
        phase := if last then .done else .decode }) ∧
    (∀ n, n < validBits last s.tbc → (unpack8 byte).take (n + 1) = zeros n ++ [true] →
      exec (.dbyte byte last) s = .next { s with
        out := s.out ++ List.replicate n (s.root.setWidth 8)
        err := 0x12#8, einfo := 0, phase := .fault })

/-- Rule R9(a), and rule R146, which the spec marks as its own inference: what a compression pass emits, a
decompression pass from a table that reads the same turns back into the bytes fed, and ends in `DONE` with no fault.
-/
def Obligations.DecompressionInvertsCompression : Prop :=
  ∀ (c c2 d : State) (data : List Byte), c.cfg.legal = true → c.phase = .idle → d.phase = .idle →
    (∀ k, c.readFreq k = d.readFreq k) → data ≠ [] → (∀ b ∈ data, c.readFreq b ≠ 0) →
    execAll [.tbuild, .cgen] c = .next c2 → c2.phase = .codes →
    ∃ c' d' payload, execAll (.cstart :: (data.map .cput ++ [.cend])) c2 = .next c' ∧
      c'.out = c.out ++ payload ∧
      execAll (.dstart c'.tbc :: decodeCommands payload) d = .next d' ∧
      d'.out = d.out ++ data ∧ d'.phase = .done ∧ d'.err = d.err

/-- Rule R9(a), over whole passes from reset (rules R192, R193): every byte sequence of length at least 1, each byte
of which occurs fewer than `2^32` times (rule R20: a count has 32 bits), round-trips, on every instance whose `MAXLEN`
its code words do not exceed (`CGEN` ends in `CODES`), so at every `MAXLEN` from 57, the default among them. -/
def Obligations.RoundTripFromReset : Prop :=
  (∀ (s : State) (data : List Byte), Fresh s → s.cfg.legal = true → data ≠ [] → (∀ b, data.count b < 2 ^ 32) →
    (∃ t, execAll (tableCommands data) s = .next t ∧ t.phase = .codes) → RoundTrips s data) ∧
  (∀ (s : State) (data : List Byte), Fresh s → s.cfg.legal = true → data ≠ [] → (∀ b, data.count b < 2 ^ 32) →
    57 ≤ s.cfg.maxLen → RoundTrips s data)

/-! ## Whole-machine rules -/

/-- Rule R46, which the spec marks as its own inference: the read-back commands change nothing but `RDATA` and
`RAUX`, and may be repeated with the same result. -/
def Obligations.ReadBackChangesNothingElse : Prop :=
  ∀ (i : Instr) (s t : State), ((∃ k, i = .fget k) ∨ (∃ j, i = .tget j) ∨ ∃ k, i = .cget k) →
    transition s.phase i ≠ none → exec i s = .next t →
    t = { s with rdata := t.rdata, raux := t.raux } ∧ exec i t = .next t

/-- Rules R17 to R30 and R41: the commands that write each register and each table. Every other command, whatever it
does, leaves it as it was. -/
def Obligations.EachRegisterHasItsWriters : Prop :=
  ∀ (i : Instr) (s t : State), i ≠ .srst → exec i s = .next t →
    ((i ≠ .fclr ∧ ∀ k c, i ≠ .fset k c) → t.freq = s.freq) ∧
    ((i ≠ .tbuild ∧ ∀ n, i ≠ .dstart n) → t.node = s.node ∧ t.root = s.root ∧ t.nsym = s.nsym ∧ t.nint = s.nint) ∧
    (i ≠ .cgen → t.code = s.code) ∧
    ((i ≠ .cend ∧ ∀ n, i ≠ .dstart n) → t.tbc = s.tbc) ∧
    (((∀ k, i ≠ .fget k) ∧ (∀ j, i ≠ .tget j) ∧ ∀ k, i ≠ .cget k) → t.rdata = s.rdata ∧ t.raux = s.raux) ∧
    ((i ≠ .cstart ∧ (∀ b, i ≠ .cput b) ∧ i ≠ .cend) → t.pcnt = s.pcnt ∧ t.pbits = s.pbits) ∧
    (((∀ n, i ≠ .dstart n) ∧ ∀ b l, i ≠ .dbyte b l) → t.dcur = s.dcur) ∧
    (((∀ b, i ≠ .cput b) ∧ i ≠ .cend ∧ ∀ b l, i ≠ .dbyte b l) → t.out = s.out) ∧
    (t.phase ≠ .fault → t.err = s.err ∧ t.einfo = s.einfo)

/-- Rules R171 and R172, and rule R162, which the spec marks as its own inference: the faults each command can
raise, besides `BadSequence`, and what they leave. A fault writes `ERR`, `EINFO` and `PHASE` only, except that
`DBYTE` has emitted the symbols and moved the walk by the bits before it. (`CorruptTree` is not in the list of
`DSTART`: no tree that `build()` gives raises it.) -/
def Obligations.OwnFaultsOfEachCommand : Prop :=
  ∀ (i : Instr) (s t : State), s.phase ≠ .fault → exec i s = .next t → t.phase = .fault →
    ((∀ b l, i ≠ .dbyte b l) → t = { s with err := t.err, einfo := t.einfo, phase := .fault }) ∧
    t = { s with out := t.out, dcur := t.dcur, err := t.err, einfo := t.einfo, phase := .fault } ∧
    (t.err = 0x11 ∧ transition s.phase i = none ∨
      i = .tbuild ∧ t.err = 0x01 ∧ (∀ k, s.readFreq k = 0) ∨
      i = .cgen ∧ t.err = 0x02 ∨
      (∃ b, i = .cput b ∧ t.err = 0x04 ∧ (s.readCode b).len = 0) ∨
      (∃ n, i = .dstart n ∧ t.err = 0x01 ∧ ∀ k, s.readFreq k = 0) ∨
      ∃ b l, i = .dbyte b l ∧ (t.err = 0x12 ∧ s.root.toNat < 256 ∨ t.err = 0x05 ∧ l = true ∧ t.dcur ≠ t.root))

/-- The bytes a command can emit, and no other part of its work (rule R126, and of rule R198 the bound on the output
only; the spec marks both as its own inferences). `CPUT` emits at
most `floor((7 + MAXLEN) / 8)`, `DBYTE` at most 8, `CEND` at most one, every other command none. -/
def Obligations.OutputOfEachCommandIsBounded : Prop :=
  ∀ (i : Instr) (s t : State), Inv s → i ≠ .srst → exec i s = .next t →
    t.out.length ≤ s.out.length +
      match i with
      | .cput _ => (7 + s.cfg.maxLen) / 8
      | .dbyte _ _ => 8
      | .cend => 1
      | .srst | .fclr | .fset _ _ | .fget _ | .tbuild | .tget _ | .cgen | .cget _ | .cstart | .dstart _ => 0

/-- Rule R24, and the remark in rule R22, which the spec marks as its own inference: no command can observe what an
arena entry holds that is not allocated, nor the code table before `CGEN` wrote it. From two states that differ
there only, a step leads to two states that differ there only, with the same status pins and the same `OUT`. So the
values this model chose for such entries (log entries 3 and 4) decide nothing a host can see. -/
def Obligations.StaleEntriesAreUnobservable : Prop :=
  ∀ s t s' : State, Inv s → Inv t → SameView s t → step s = .next s' →
    ∃ t', step t = .next t' ∧ SameView s' t' ∧ t'.pins = s'.pins ∧ t'.out = s'.out

/-- Rule R30: no command but a reset takes an element of `OUT` back or changes one. -/
def Obligations.OutputIsNeverTakenBack : Prop :=
  ∀ (i : Instr) (s t : State), i ≠ .srst → exec i s = .next t → s.out <+: t.out

/-- Rule R11(a): the instance's `MAXLEN` is a constant (held in `cfg`, log entry 2); and a step consumes at most the
next input (held in `port`, log entry 1). -/
def Obligations.StepKeepsTheInstance : Prop :=
  ∀ s t : State, step s = .next t → t.cfg = s.cfg ∧ t.port = s.port.tail

/-- Rule R168: at most one fault is recorded between two resets. In a state with a fault a step whose input is a
reset (a sampled `rst`, or the word of `SRST`) clears `ERR` and `EINFO`; every other step, with any other word or with
no input, leaves them and `FAULT` as they are. -/
def Obligations.FirstFaultIsFinal : Prop :=
  ∀ s t : State, Inv s → s.err ≠ 0 → step s = .next t →
    ((s.port.head? = some .rst ∨ s.port.head? = some (.command 0x0100000000000000#64)) ∧
      t.err = 0 ∧ t.einfo = 0 ∧ t.phase = .idle) ∨
    ((s.port.head? ≠ some .rst ∧ s.port.head? ≠ some (.command 0x0100000000000000#64)) ∧
      t.err = s.err ∧ t.einfo = s.einfo ∧ t.phase = .fault)

/-- The invariant holds after reset, at every legal instance. -/
def Obligations.InvariantHoldsAtReset : Prop :=
  Inv State.reset ∧ ∀ c : Config, c.legal = true → Inv (State.resetOf c)

/-- Every step keeps the invariant: canonical tables (the model's form, log entry 5), `ERR != 0` exactly in `FAULT`
(R14), the pending-bit form (R27), the tree of rule R23 with the counts of R19 and the code table of R24 where they
are valid, the cursor of R28. -/
def Obligations.StepKeepsTheInvariant : Prop :=
  ∀ s t : State, Inv s → step s = .next t → Inv t

/-- Rule R198, which the spec marks as its own inference: every command terminates. From every state that meets the
invariant a step answers a next state: the model never stops. -/
def Obligations.EveryStepCompletes : Prop :=
  ∀ s : State, Inv s → ∃ t, step s = .next t

/-! ## The properties the source states -/

/-- Rule R9(b) to (f). After `TBUILD` and `CGEN` on any frequency table, at any `MAXLEN` they do not fault at: (b)
prefix-freedom, (c) symbol coverage, (e) the size invariant. (d) One byte repeated gives, from reset and at every
legal `MAXLEN`, a one-leaf tree and a 1-bit code, and round-trips. (f) `TBUILD` and `DSTART` build the same tree from
tables that read alike. Rule R9(a) is RoundTripFromReset. -/
def Obligations.SourcePropertiesOfThePass : Prop :=
  (∀ s t : State, s.cfg.legal = true → s.phase = .idle → execAll [.tbuild, .cgen] s = .next t → t.phase = .codes →
    PrefixFree t ∧ SymbolCoverage t ∧ SizeInvariant t ∧ ∀ k, t.readFreq k = s.readFreq k) ∧
  (∀ (s : State) (b : Byte) (n : Nat), Fresh s → s.cfg.legal = true → 1 ≤ n → n < 2 ^ 32 →
    (∃ t, execAll (tableCommands (List.replicate n b)) s = .next t ∧ t.phase = .codes ∧ t.nsym = 1 ∧
      OneLeafTree t b) ∧
    RoundTrips s (List.replicate n b)) ∧
  (∀ (c d t u : State) (tbc : BitVec 3), c.phase = .idle → d.phase = .idle → (∀ k, c.readFreq k = d.readFreq k) →
    exec .tbuild c = .next t → t.phase = .tree → exec (.dstart tbc) d = .next u → SameTree t u)
end

