-- ==== Sys2Proof/Laws/Bits.lean ====
section
/-! SUPPORT. The laws of bit sequences: the two conversions are inverse (rule R5), packing and unpacking
(rule R42), the pending-bit buffer (rule R27), and the code-word image (rule R24). -/

namespace Sys2Proof.Machine

@[simp] theorem seqOf_length (v n : Nat) : (seqOf v n).length = n := by
  induction n with
  | zero => rfl
  | succ n ih => simp [seqOf, ih]

theorem valOf_lt (bs : BitSeq) : valOf bs < 2 ^ bs.length := by
  induction bs with
  | nil => simp [valOf]
  | cons b bs ih =>
    simp only [valOf, List.length_cons, Nat.pow_succ]
    cases b <;> simp <;> omega

theorem valOf_append (as bs : BitSeq) : valOf (as ++ bs) = valOf as * 2 ^ bs.length + valOf bs := by
  induction as with
  | nil => simp [valOf]
  | cons a as ih =>
    simp only [List.cons_append, valOf, ih, List.length_append, Nat.pow_add]
    ring

@[simp] theorem valOf_zeros (n : Nat) : valOf (zeros n) = 0 := by
  induction n with
  | zero => rfl
  | succ n ih =>
    have h : zeros (n + 1) = false :: zeros n := rfl
    rw [h, valOf, ih]
    simp

/-- `seq(v, n)` looks at `v mod 2^n` only. -/
theorem seqOf_mod (v n m : Nat) (h : n ≤ m) : seqOf (v % 2 ^ m) n = seqOf v n := by
  induction n with
  | zero => rfl
  | succ n ih =>
    rw [seqOf, seqOf, ih (by omega), Nat.testBit_mod_two_pow]
    simp [show n < m by omega]

/-- `seq(val(bs), |bs|) = bs` (rule R5). -/
theorem seqOf_valOf (bs : BitSeq) : seqOf (valOf bs) bs.length = bs := by
  induction bs with
  | nil => rfl
  | cons b bs ih =>
    have hlt := valOf_lt bs
    rw [List.length_cons, seqOf]
    congr 1
    · rw [valOf, Nat.testBit, Nat.shiftRight_eq_div_pow, Nat.mul_comm,
        Nat.mul_add_div (Nat.two_pow_pos _), Nat.div_eq_of_lt hlt]
      cases b <;> rfl
    · rw [← seqOf_mod _ _ bs.length (Nat.le_refl _), valOf]
      rw [Nat.mul_comm, Nat.mul_add_mod, Nat.mod_eq_of_lt hlt, ih]

/-- `val(seq(v, n)) = v` for `v < 2^n` (rule R5). -/
theorem valOf_seqOf (v n : Nat) (h : v < 2 ^ n) : valOf (seqOf v n) = v := by
  induction n generalizing v with
  | zero =>
    rw [Nat.pow_zero] at h
    simp only [seqOf, valOf]
    omega
  | succ n ih =>
    have h1 : seqOf v n = seqOf (v % 2 ^ n) n := (seqOf_mod v n n (Nat.le_refl _)).symm
    rw [seqOf, valOf, seqOf_length, h1, ih _ (Nat.mod_lt _ (Nat.two_pow_pos _))]
    have h2 : (v.testBit n).toNat = v / 2 ^ n := by
      have h3 : v / 2 ^ n < 2 := Nat.div_lt_of_lt_mul (by rwa [← Nat.pow_succ])
      rw [Nat.testBit, Nat.shiftRight_eq_div_pow, Nat.one_and_eq_mod_two, Nat.mod_eq_of_lt h3]
      rcases Nat.lt_succ_iff_lt_or_eq.mp h3 with h4 | h4
      · rw [Nat.lt_one_iff.mp h4]; rfl
      · rw [h4]; rfl
    rw [h2, Nat.mul_comm]
    exact Nat.div_add_mod v (2 ^ n)

/-- Taking the first bits of `seq(v, n)` drops the low bits of `v`. -/
theorem take_append_zeros (p : BitSeq) (n : Nat) : (p ++ zeros n).take p.length = p := by simp

/-- `pack8(unpack8(b)) = b` (rule R42). -/
theorem pack8_unpack8 (b : Byte) : pack8 (unpack8 b) = b := by
  unfold pack8 unpack8
  rw [valOf_seqOf _ _ b.isLt]
  simp

/-- `unpack8(pack8(bs)) = bs` for `|bs| = 8` (rule R42). -/
theorem unpack8_pack8 (bs : BitSeq) (h : bs.length = 8) : unpack8 (pack8 bs) = bs := by
  have hlt := valOf_lt bs
  rw [h] at hlt
  unfold pack8 unpack8
  rw [BitVec.toNat_ofNat, Nat.mod_eq_of_lt hlt]
  have := seqOf_valOf bs
  rwa [h] at this

@[simp] theorem unpack8_length (b : Byte) : (unpack8 b).length = 8 := seqOf_length _ _

/-- The pending bits come back from `PCNT`, `PBITS` (rule R27). -/
theorem pendingBits_image (p : BitSeq) (h : p.length ≤ 7) : pendingBits (pendingCount p) (pendingImage p) = p := by
  have hlen : (p ++ zeros (7 - p.length)).length = 7 := by simp [zeros]; omega
  have hlt := valOf_lt (p ++ zeros (7 - p.length))
  rw [hlen] at hlt
  unfold pendingBits pendingCount pendingImage
  rw [BitVec.toNat_ofNat, BitVec.toNat_ofNat, Nat.mod_eq_of_lt hlt,
    Nat.mod_eq_of_lt (show p.length < 2 ^ 3 by omega)]
  have := seqOf_valOf (p ++ zeros (7 - p.length))
  rw [hlen] at this
  rw [this, take_append_zeros]

theorem pendingBits_length (c : BitVec 3) (v : BitVec 7) : (pendingBits c v).length = c.toNat := by
  have := c.isLt
  unfold pendingBits
  rw [List.length_take, seqOf_length]
  omega

@[simp] theorem pendingCount_nil : pendingCount [] = 0 := rfl
@[simp] theorem pendingImage_nil : pendingImage [] = 0 := rfl

theorem pendingCount_bits (c : BitVec 3) (v : BitVec 7) : pendingCount (pendingBits c v) = c := by
  unfold pendingCount
  rw [pendingBits_length]
  simp

/-- The code word comes back from its entry (rule R24). -/
theorem word_codeEntry (p : BitSeq) (h : p.length ≤ 63) : (codeEntry p).word = p := by
  have hlt := valOf_lt p
  have hpow : 2 ^ p.length ≤ 2 ^ 63 := Nat.pow_le_pow_right (by decide) h
  unfold Code.word codeEntry
  simp only [BitVec.toNat_ofNat]
  rw [Nat.mod_eq_of_lt (show valOf p < 2 ^ 63 by omega), Nat.mod_eq_of_lt (show p.length < 2 ^ 6 by omega),
    seqOf_valOf]

theorem codeEntry_len (p : BitSeq) (h : p.length ≤ 63) : (codeEntry p).len.toNat = p.length := by
  simp only [codeEntry, BitVec.toNat_ofNat]
  omega

theorem validBits_le (last : Bool) (tbc : BitVec 3) : validBits last tbc ≤ 8 := by
  have := tbc.isLt
  unfold validBits
  split <;> omega

end Sys2Proof.Machine
end

