-- ==== Sys2Proof/Laws/Queue.lean ====
section
/-! SUPPORT. The queue of the tree builder: extracting the minimum (rules R92, R93) and one merge (rule R94). -/

namespace Sys2Proof.Machine

theorem QueueEntry.lt_iff (a b : QueueEntry) :
    a.lt b = true ↔ a.weight.toNat < b.weight.toNat ∨ (a.weight.toNat = b.weight.toNat ∧ a.idx.toNat < b.idx.toNat) := by
  simp [QueueEntry.lt, BitVec.lt_def, BitVec.toNat_inj]

theorem QueueEntry.lt_false_iff (a b : QueueEntry) :
    a.lt b = false ↔ b.weight.toNat < a.weight.toNat ∨ (a.weight.toNat = b.weight.toNat ∧ b.idx.toNat ≤ a.idx.toNat) := by
  rw [← Bool.not_eq_true, QueueEntry.lt_iff]
  omega

theorem extractMin_eq_none (q : List QueueEntry) : extractMin q = none ↔ q = [] := by
  cases q with
  | nil => simp [extractMin]
  | cons e q =>
    simp only [extractMin, reduceCtorEq, iff_false]
    split
    · simp
    · split <;> simp

/-- What `extractMin` does: it takes out one member, and no other has a smaller key (rule R93). -/
theorem extractMin_spec (q : List QueueEntry) (m : QueueEntry) (rest : List QueueEntry)
    (h : extractMin q = some (m, rest)) : q.Perm (m :: rest) ∧ ∀ e ∈ rest, QueueEntry.lt e m = false := by
  induction q generalizing m rest with
  | nil => simp [extractMin] at h
  | cons e q ih =>
    rw [extractMin] at h
    cases hq : extractMin q with
    | none =>
      have hnil := (extractMin_eq_none q).mp hq
      simp only [hq, Option.some.injEq, Prod.mk.injEq] at h
      obtain ⟨rfl, rfl⟩ := h
      simp [hnil]
    | some r =>
      obtain ⟨m', rest'⟩ := r
      obtain ⟨hp, hmin⟩ := ih m' rest' hq
      simp only [hq] at h
      by_cases hlt : QueueEntry.lt e m' = true
      · rw [if_pos hlt] at h
        simp only [Option.some.injEq, Prod.mk.injEq] at h
        obtain ⟨rfl, rfl⟩ := h
        refine ⟨List.Perm.refl _, fun x hx => ?_⟩
        have hle : x = m' ∨ x ∈ rest' := List.mem_cons.mp (hp.mem_iff.mp hx)
        rw [QueueEntry.lt_iff] at hlt
        rw [QueueEntry.lt_false_iff]
        rcases hle with rfl | hx'
        · omega
        · have := (QueueEntry.lt_false_iff _ _).mp (hmin x hx')
          omega
      · rw [if_neg hlt] at h
        simp only [Option.some.injEq, Prod.mk.injEq] at h
        obtain ⟨rfl, rfl⟩ := h
        refine ⟨((List.Perm.cons e hp).trans (List.Perm.swap _ _ _)), fun x hx => ?_⟩
        rcases List.mem_cons.mp hx with rfl | hx'
        · simpa using hlt
        · exact hmin x hx'

/-- The loop goes on exactly while the queue has two members or more, and then does one merge (rule R94). -/
theorem mergeOnce_spec (m : MergeState) :
    (mergeOnce m = none ∧ m.queue.length ≤ 1) ∨
    ∃ n1 n2 q2, m.queue.Perm (n1 :: n2 :: q2) ∧
      QueueEntry.lt n2 n1 = false ∧ (∀ e ∈ q2, QueueEntry.lt e n2 = false) ∧
      mergeOnce m = some
        { count := m.count + 1
          queue := ⟨n1.weight + n2.weight, BitVec.ofNat 9 (256 + m.count)⟩ :: q2
          node := Table.write nodeDefault m.node (256 + m.count) ⟨n1.weight + n2.weight, n1.idx, n2.idx⟩ } := by
  unfold mergeOnce
  cases h1 : extractMin m.queue with
  | none =>
    left
    simp [(extractMin_eq_none _).mp h1]
  | some r1 =>
    obtain ⟨n1, q1⟩ := r1
    obtain ⟨hp1, hmin1⟩ := extractMin_spec _ _ _ h1
    cases h2 : extractMin q1 with
    | none =>
      left
      have := hp1.length_eq
      simp [(extractMin_eq_none _).mp h2] at this
      simp [h2, this]
    | some r2 =>
      obtain ⟨n2, q2⟩ := r2
      obtain ⟨hp2, hmin2⟩ := extractMin_spec _ _ _ h2
      right
      refine ⟨n1, n2, q2, hp1.trans (List.Perm.cons n1 hp2), hmin1 n2 (hp2.mem_iff.mpr (by simp)), hmin2, ?_⟩
      simp [h2]

end Sys2Proof.Machine
end

