-- ==== Sys2Proof/Laws/State.lean ====
section
/-! SUPPORT. One lemma per field per named update of State (Machine/Ops.lean), each true by rfl, so that no proof
unfolds a record update. -/

namespace Sys2Proof.Machine

variable (s : State)

@[simp] theorem State.setPhase_cfg (p : Phase) : (s.setPhase p).cfg = s.cfg := rfl
@[simp] theorem State.setPhase_port (p : Phase) : (s.setPhase p).port = s.port := rfl
@[simp] theorem State.setPhase_phase (p : Phase) : (s.setPhase p).phase = p := rfl
@[simp] theorem State.setPhase_err (p : Phase) : (s.setPhase p).err = s.err := rfl
@[simp] theorem State.setPhase_einfo (p : Phase) : (s.setPhase p).einfo = s.einfo := rfl
@[simp] theorem State.setPhase_tbc (p : Phase) : (s.setPhase p).tbc = s.tbc := rfl
@[simp] theorem State.setPhase_root (p : Phase) : (s.setPhase p).root = s.root := rfl
@[simp] theorem State.setPhase_nsym (p : Phase) : (s.setPhase p).nsym = s.nsym := rfl
@[simp] theorem State.setPhase_nint (p : Phase) : (s.setPhase p).nint = s.nint := rfl
@[simp] theorem State.setPhase_rdata (p : Phase) : (s.setPhase p).rdata = s.rdata := rfl
@[simp] theorem State.setPhase_raux (p : Phase) : (s.setPhase p).raux = s.raux := rfl
@[simp] theorem State.setPhase_pcnt (p : Phase) : (s.setPhase p).pcnt = s.pcnt := rfl
@[simp] theorem State.setPhase_pbits (p : Phase) : (s.setPhase p).pbits = s.pbits := rfl
@[simp] theorem State.setPhase_dcur (p : Phase) : (s.setPhase p).dcur = s.dcur := rfl
@[simp] theorem State.setPhase_freq (p : Phase) : (s.setPhase p).freq = s.freq := rfl
@[simp] theorem State.setPhase_node (p : Phase) : (s.setPhase p).node = s.node := rfl
@[simp] theorem State.setPhase_code (p : Phase) : (s.setPhase p).code = s.code := rfl
@[simp] theorem State.setPhase_out (p : Phase) : (s.setPhase p).out = s.out := rfl

@[simp] theorem State.emit_cfg (bs : List Byte) : (s.emit bs).cfg = s.cfg := rfl
@[simp] theorem State.emit_port (bs : List Byte) : (s.emit bs).port = s.port := rfl
@[simp] theorem State.emit_phase (bs : List Byte) : (s.emit bs).phase = s.phase := rfl
@[simp] theorem State.emit_err (bs : List Byte) : (s.emit bs).err = s.err := rfl
@[simp] theorem State.emit_einfo (bs : List Byte) : (s.emit bs).einfo = s.einfo := rfl
@[simp] theorem State.emit_tbc (bs : List Byte) : (s.emit bs).tbc = s.tbc := rfl
@[simp] theorem State.emit_root (bs : List Byte) : (s.emit bs).root = s.root := rfl
@[simp] theorem State.emit_nsym (bs : List Byte) : (s.emit bs).nsym = s.nsym := rfl
@[simp] theorem State.emit_nint (bs : List Byte) : (s.emit bs).nint = s.nint := rfl
@[simp] theorem State.emit_rdata (bs : List Byte) : (s.emit bs).rdata = s.rdata := rfl
@[simp] theorem State.emit_raux (bs : List Byte) : (s.emit bs).raux = s.raux := rfl
@[simp] theorem State.emit_pcnt (bs : List Byte) : (s.emit bs).pcnt = s.pcnt := rfl
@[simp] theorem State.emit_pbits (bs : List Byte) : (s.emit bs).pbits = s.pbits := rfl
@[simp] theorem State.emit_dcur (bs : List Byte) : (s.emit bs).dcur = s.dcur := rfl
@[simp] theorem State.emit_freq (bs : List Byte) : (s.emit bs).freq = s.freq := rfl
@[simp] theorem State.emit_node (bs : List Byte) : (s.emit bs).node = s.node := rfl
@[simp] theorem State.emit_code (bs : List Byte) : (s.emit bs).code = s.code := rfl
@[simp] theorem State.emit_out (bs : List Byte) : (s.emit bs).out = s.out ++ bs := rfl

@[simp] theorem State.writeFreq_cfg (k : Sym) (c : Count) : (s.writeFreq k c).cfg = s.cfg := rfl
@[simp] theorem State.writeFreq_port (k : Sym) (c : Count) : (s.writeFreq k c).port = s.port := rfl
@[simp] theorem State.writeFreq_phase (k : Sym) (c : Count) : (s.writeFreq k c).phase = s.phase := rfl
@[simp] theorem State.writeFreq_err (k : Sym) (c : Count) : (s.writeFreq k c).err = s.err := rfl
@[simp] theorem State.writeFreq_einfo (k : Sym) (c : Count) : (s.writeFreq k c).einfo = s.einfo := rfl
@[simp] theorem State.writeFreq_tbc (k : Sym) (c : Count) : (s.writeFreq k c).tbc = s.tbc := rfl
@[simp] theorem State.writeFreq_root (k : Sym) (c : Count) : (s.writeFreq k c).root = s.root := rfl
@[simp] theorem State.writeFreq_nsym (k : Sym) (c : Count) : (s.writeFreq k c).nsym = s.nsym := rfl
@[simp] theorem State.writeFreq_nint (k : Sym) (c : Count) : (s.writeFreq k c).nint = s.nint := rfl
@[simp] theorem State.writeFreq_rdata (k : Sym) (c : Count) : (s.writeFreq k c).rdata = s.rdata := rfl
@[simp] theorem State.writeFreq_raux (k : Sym) (c : Count) : (s.writeFreq k c).raux = s.raux := rfl
@[simp] theorem State.writeFreq_pcnt (k : Sym) (c : Count) : (s.writeFreq k c).pcnt = s.pcnt := rfl
@[simp] theorem State.writeFreq_pbits (k : Sym) (c : Count) : (s.writeFreq k c).pbits = s.pbits := rfl
@[simp] theorem State.writeFreq_dcur (k : Sym) (c : Count) : (s.writeFreq k c).dcur = s.dcur := rfl
@[simp] theorem State.writeFreq_freq (k : Sym) (c : Count) : (s.writeFreq k c).freq = Table.write freqDefault s.freq k.toNat c := rfl
@[simp] theorem State.writeFreq_node (k : Sym) (c : Count) : (s.writeFreq k c).node = s.node := rfl
@[simp] theorem State.writeFreq_code (k : Sym) (c : Count) : (s.writeFreq k c).code = s.code := rfl
@[simp] theorem State.writeFreq_out (k : Sym) (c : Count) : (s.writeFreq k c).out = s.out := rfl

@[simp] theorem State.clearFreq_cfg : (s.clearFreq).cfg = s.cfg := rfl
@[simp] theorem State.clearFreq_port : (s.clearFreq).port = s.port := rfl
@[simp] theorem State.clearFreq_phase : (s.clearFreq).phase = s.phase := rfl
@[simp] theorem State.clearFreq_err : (s.clearFreq).err = s.err := rfl
@[simp] theorem State.clearFreq_einfo : (s.clearFreq).einfo = s.einfo := rfl
@[simp] theorem State.clearFreq_tbc : (s.clearFreq).tbc = s.tbc := rfl
@[simp] theorem State.clearFreq_root : (s.clearFreq).root = s.root := rfl
@[simp] theorem State.clearFreq_nsym : (s.clearFreq).nsym = s.nsym := rfl
@[simp] theorem State.clearFreq_nint : (s.clearFreq).nint = s.nint := rfl
@[simp] theorem State.clearFreq_rdata : (s.clearFreq).rdata = s.rdata := rfl
@[simp] theorem State.clearFreq_raux : (s.clearFreq).raux = s.raux := rfl
@[simp] theorem State.clearFreq_pcnt : (s.clearFreq).pcnt = s.pcnt := rfl
@[simp] theorem State.clearFreq_pbits : (s.clearFreq).pbits = s.pbits := rfl
@[simp] theorem State.clearFreq_dcur : (s.clearFreq).dcur = s.dcur := rfl
@[simp] theorem State.clearFreq_freq : (s.clearFreq).freq = [] := rfl
@[simp] theorem State.clearFreq_node : (s.clearFreq).node = s.node := rfl
@[simp] theorem State.clearFreq_code : (s.clearFreq).code = s.code := rfl
@[simp] theorem State.clearFreq_out : (s.clearFreq).out = s.out := rfl

@[simp] theorem State.readBack_cfg (d : BitVec 64) (a : BitVec 8) : (s.readBack d a).cfg = s.cfg := rfl
@[simp] theorem State.readBack_port (d : BitVec 64) (a : BitVec 8) : (s.readBack d a).port = s.port := rfl
@[simp] theorem State.readBack_phase (d : BitVec 64) (a : BitVec 8) : (s.readBack d a).phase = s.phase := rfl
@[simp] theorem State.readBack_err (d : BitVec 64) (a : BitVec 8) : (s.readBack d a).err = s.err := rfl
@[simp] theorem State.readBack_einfo (d : BitVec 64) (a : BitVec 8) : (s.readBack d a).einfo = s.einfo := rfl
@[simp] theorem State.readBack_tbc (d : BitVec 64) (a : BitVec 8) : (s.readBack d a).tbc = s.tbc := rfl
@[simp] theorem State.readBack_root (d : BitVec 64) (a : BitVec 8) : (s.readBack d a).root = s.root := rfl
@[simp] theorem State.readBack_nsym (d : BitVec 64) (a : BitVec 8) : (s.readBack d a).nsym = s.nsym := rfl
@[simp] theorem State.readBack_nint (d : BitVec 64) (a : BitVec 8) : (s.readBack d a).nint = s.nint := rfl
@[simp] theorem State.readBack_rdata (d : BitVec 64) (a : BitVec 8) : (s.readBack d a).rdata = d := rfl
@[simp] theorem State.readBack_raux (d : BitVec 64) (a : BitVec 8) : (s.readBack d a).raux = a := rfl
@[simp] theorem State.readBack_pcnt (d : BitVec 64) (a : BitVec 8) : (s.readBack d a).pcnt = s.pcnt := rfl
@[simp] theorem State.readBack_pbits (d : BitVec 64) (a : BitVec 8) : (s.readBack d a).pbits = s.pbits := rfl
@[simp] theorem State.readBack_dcur (d : BitVec 64) (a : BitVec 8) : (s.readBack d a).dcur = s.dcur := rfl
@[simp] theorem State.readBack_freq (d : BitVec 64) (a : BitVec 8) : (s.readBack d a).freq = s.freq := rfl
@[simp] theorem State.readBack_node (d : BitVec 64) (a : BitVec 8) : (s.readBack d a).node = s.node := rfl
@[simp] theorem State.readBack_code (d : BitVec 64) (a : BitVec 8) : (s.readBack d a).code = s.code := rfl
@[simp] theorem State.readBack_out (d : BitVec 64) (a : BitVec 8) : (s.readBack d a).out = s.out := rfl

@[simp] theorem State.setTree_cfg (nd : Table Node) (r : NodeIdx) (n : BitVec 9) (k : BitVec 8) : (s.setTree nd r n k).cfg = s.cfg := rfl
@[simp] theorem State.setTree_port (nd : Table Node) (r : NodeIdx) (n : BitVec 9) (k : BitVec 8) : (s.setTree nd r n k).port = s.port := rfl
@[simp] theorem State.setTree_phase (nd : Table Node) (r : NodeIdx) (n : BitVec 9) (k : BitVec 8) : (s.setTree nd r n k).phase = s.phase := rfl
@[simp] theorem State.setTree_err (nd : Table Node) (r : NodeIdx) (n : BitVec 9) (k : BitVec 8) : (s.setTree nd r n k).err = s.err := rfl
@[simp] theorem State.setTree_einfo (nd : Table Node) (r : NodeIdx) (n : BitVec 9) (k : BitVec 8) : (s.setTree nd r n k).einfo = s.einfo := rfl
@[simp] theorem State.setTree_tbc (nd : Table Node) (r : NodeIdx) (n : BitVec 9) (k : BitVec 8) : (s.setTree nd r n k).tbc = s.tbc := rfl
@[simp] theorem State.setTree_root (nd : Table Node) (r : NodeIdx) (n : BitVec 9) (k : BitVec 8) : (s.setTree nd r n k).root = r := rfl
@[simp] theorem State.setTree_nsym (nd : Table Node) (r : NodeIdx) (n : BitVec 9) (k : BitVec 8) : (s.setTree nd r n k).nsym = n := rfl
@[simp] theorem State.setTree_nint (nd : Table Node) (r : NodeIdx) (n : BitVec 9) (k : BitVec 8) : (s.setTree nd r n k).nint = k := rfl
@[simp] theorem State.setTree_rdata (nd : Table Node) (r : NodeIdx) (n : BitVec 9) (k : BitVec 8) : (s.setTree nd r n k).rdata = s.rdata := rfl
@[simp] theorem State.setTree_raux (nd : Table Node) (r : NodeIdx) (n : BitVec 9) (k : BitVec 8) : (s.setTree nd r n k).raux = s.raux := rfl
@[simp] theorem State.setTree_pcnt (nd : Table Node) (r : NodeIdx) (n : BitVec 9) (k : BitVec 8) : (s.setTree nd r n k).pcnt = s.pcnt := rfl
@[simp] theorem State.setTree_pbits (nd : Table Node) (r : NodeIdx) (n : BitVec 9) (k : BitVec 8) : (s.setTree nd r n k).pbits = s.pbits := rfl
@[simp] theorem State.setTree_dcur (nd : Table Node) (r : NodeIdx) (n : BitVec 9) (k : BitVec 8) : (s.setTree nd r n k).dcur = s.dcur := rfl
@[simp] theorem State.setTree_freq (nd : Table Node) (r : NodeIdx) (n : BitVec 9) (k : BitVec 8) : (s.setTree nd r n k).freq = s.freq := rfl
@[simp] theorem State.setTree_node (nd : Table Node) (r : NodeIdx) (n : BitVec 9) (k : BitVec 8) : (s.setTree nd r n k).node = nd := rfl
@[simp] theorem State.setTree_code (nd : Table Node) (r : NodeIdx) (n : BitVec 9) (k : BitVec 8) : (s.setTree nd r n k).code = s.code := rfl
@[simp] theorem State.setTree_out (nd : Table Node) (r : NodeIdx) (n : BitVec 9) (k : BitVec 8) : (s.setTree nd r n k).out = s.out := rfl

@[simp] theorem State.setCode_cfg (c : Table Code) : (s.setCode c).cfg = s.cfg := rfl
@[simp] theorem State.setCode_port (c : Table Code) : (s.setCode c).port = s.port := rfl
@[simp] theorem State.setCode_phase (c : Table Code) : (s.setCode c).phase = s.phase := rfl
@[simp] theorem State.setCode_err (c : Table Code) : (s.setCode c).err = s.err := rfl
@[simp] theorem State.setCode_einfo (c : Table Code) : (s.setCode c).einfo = s.einfo := rfl
@[simp] theorem State.setCode_tbc (c : Table Code) : (s.setCode c).tbc = s.tbc := rfl
@[simp] theorem State.setCode_root (c : Table Code) : (s.setCode c).root = s.root := rfl
@[simp] theorem State.setCode_nsym (c : Table Code) : (s.setCode c).nsym = s.nsym := rfl
@[simp] theorem State.setCode_nint (c : Table Code) : (s.setCode c).nint = s.nint := rfl
@[simp] theorem State.setCode_rdata (c : Table Code) : (s.setCode c).rdata = s.rdata := rfl
@[simp] theorem State.setCode_raux (c : Table Code) : (s.setCode c).raux = s.raux := rfl
@[simp] theorem State.setCode_pcnt (c : Table Code) : (s.setCode c).pcnt = s.pcnt := rfl
@[simp] theorem State.setCode_pbits (c : Table Code) : (s.setCode c).pbits = s.pbits := rfl
@[simp] theorem State.setCode_dcur (c : Table Code) : (s.setCode c).dcur = s.dcur := rfl
@[simp] theorem State.setCode_freq (c : Table Code) : (s.setCode c).freq = s.freq := rfl
@[simp] theorem State.setCode_node (c : Table Code) : (s.setCode c).node = s.node := rfl
@[simp] theorem State.setCode_code (c : Table Code) : (s.setCode c).code = c := rfl
@[simp] theorem State.setCode_out (c : Table Code) : (s.setCode c).out = s.out := rfl

@[simp] theorem State.setPending_cfg (p : BitSeq) : (s.setPending p).cfg = s.cfg := rfl
@[simp] theorem State.setPending_port (p : BitSeq) : (s.setPending p).port = s.port := rfl
@[simp] theorem State.setPending_phase (p : BitSeq) : (s.setPending p).phase = s.phase := rfl
@[simp] theorem State.setPending_err (p : BitSeq) : (s.setPending p).err = s.err := rfl
@[simp] theorem State.setPending_einfo (p : BitSeq) : (s.setPending p).einfo = s.einfo := rfl
@[simp] theorem State.setPending_tbc (p : BitSeq) : (s.setPending p).tbc = s.tbc := rfl
@[simp] theorem State.setPending_root (p : BitSeq) : (s.setPending p).root = s.root := rfl
@[simp] theorem State.setPending_nsym (p : BitSeq) : (s.setPending p).nsym = s.nsym := rfl
@[simp] theorem State.setPending_nint (p : BitSeq) : (s.setPending p).nint = s.nint := rfl
@[simp] theorem State.setPending_rdata (p : BitSeq) : (s.setPending p).rdata = s.rdata := rfl
@[simp] theorem State.setPending_raux (p : BitSeq) : (s.setPending p).raux = s.raux := rfl
@[simp] theorem State.setPending_pcnt (p : BitSeq) : (s.setPending p).pcnt = pendingCount p := rfl
@[simp] theorem State.setPending_pbits (p : BitSeq) : (s.setPending p).pbits = pendingImage p := rfl
@[simp] theorem State.setPending_dcur (p : BitSeq) : (s.setPending p).dcur = s.dcur := rfl
@[simp] theorem State.setPending_freq (p : BitSeq) : (s.setPending p).freq = s.freq := rfl
@[simp] theorem State.setPending_node (p : BitSeq) : (s.setPending p).node = s.node := rfl
@[simp] theorem State.setPending_code (p : BitSeq) : (s.setPending p).code = s.code := rfl
@[simp] theorem State.setPending_out (p : BitSeq) : (s.setPending p).out = s.out := rfl

@[simp] theorem State.setTbc_cfg (n : BitVec 3) : (s.setTbc n).cfg = s.cfg := rfl
@[simp] theorem State.setTbc_port (n : BitVec 3) : (s.setTbc n).port = s.port := rfl
@[simp] theorem State.setTbc_phase (n : BitVec 3) : (s.setTbc n).phase = s.phase := rfl
@[simp] theorem State.setTbc_err (n : BitVec 3) : (s.setTbc n).err = s.err := rfl
@[simp] theorem State.setTbc_einfo (n : BitVec 3) : (s.setTbc n).einfo = s.einfo := rfl
@[simp] theorem State.setTbc_tbc (n : BitVec 3) : (s.setTbc n).tbc = n := rfl
@[simp] theorem State.setTbc_root (n : BitVec 3) : (s.setTbc n).root = s.root := rfl
@[simp] theorem State.setTbc_nsym (n : BitVec 3) : (s.setTbc n).nsym = s.nsym := rfl
@[simp] theorem State.setTbc_nint (n : BitVec 3) : (s.setTbc n).nint = s.nint := rfl
@[simp] theorem State.setTbc_rdata (n : BitVec 3) : (s.setTbc n).rdata = s.rdata := rfl
@[simp] theorem State.setTbc_raux (n : BitVec 3) : (s.setTbc n).raux = s.raux := rfl
@[simp] theorem State.setTbc_pcnt (n : BitVec 3) : (s.setTbc n).pcnt = s.pcnt := rfl
@[simp] theorem State.setTbc_pbits (n : BitVec 3) : (s.setTbc n).pbits = s.pbits := rfl
@[simp] theorem State.setTbc_dcur (n : BitVec 3) : (s.setTbc n).dcur = s.dcur := rfl
@[simp] theorem State.setTbc_freq (n : BitVec 3) : (s.setTbc n).freq = s.freq := rfl
@[simp] theorem State.setTbc_node (n : BitVec 3) : (s.setTbc n).node = s.node := rfl
@[simp] theorem State.setTbc_code (n : BitVec 3) : (s.setTbc n).code = s.code := rfl
@[simp] theorem State.setTbc_out (n : BitVec 3) : (s.setTbc n).out = s.out := rfl

@[simp] theorem State.setDcur_cfg (i : NodeIdx) : (s.setDcur i).cfg = s.cfg := rfl
@[simp] theorem State.setDcur_port (i : NodeIdx) : (s.setDcur i).port = s.port := rfl
@[simp] theorem State.setDcur_phase (i : NodeIdx) : (s.setDcur i).phase = s.phase := rfl
@[simp] theorem State.setDcur_err (i : NodeIdx) : (s.setDcur i).err = s.err := rfl
@[simp] theorem State.setDcur_einfo (i : NodeIdx) : (s.setDcur i).einfo = s.einfo := rfl
@[simp] theorem State.setDcur_tbc (i : NodeIdx) : (s.setDcur i).tbc = s.tbc := rfl
@[simp] theorem State.setDcur_root (i : NodeIdx) : (s.setDcur i).root = s.root := rfl
@[simp] theorem State.setDcur_nsym (i : NodeIdx) : (s.setDcur i).nsym = s.nsym := rfl
@[simp] theorem State.setDcur_nint (i : NodeIdx) : (s.setDcur i).nint = s.nint := rfl
@[simp] theorem State.setDcur_rdata (i : NodeIdx) : (s.setDcur i).rdata = s.rdata := rfl
@[simp] theorem State.setDcur_raux (i : NodeIdx) : (s.setDcur i).raux = s.raux := rfl
@[simp] theorem State.setDcur_pcnt (i : NodeIdx) : (s.setDcur i).pcnt = s.pcnt := rfl
@[simp] theorem State.setDcur_pbits (i : NodeIdx) : (s.setDcur i).pbits = s.pbits := rfl
@[simp] theorem State.setDcur_dcur (i : NodeIdx) : (s.setDcur i).dcur = i := rfl
@[simp] theorem State.setDcur_freq (i : NodeIdx) : (s.setDcur i).freq = s.freq := rfl
@[simp] theorem State.setDcur_node (i : NodeIdx) : (s.setDcur i).node = s.node := rfl
@[simp] theorem State.setDcur_code (i : NodeIdx) : (s.setDcur i).code = s.code := rfl
@[simp] theorem State.setDcur_out (i : NodeIdx) : (s.setDcur i).out = s.out := rfl

@[simp] theorem State.raise_cfg (f : HwFault) (x : BitVec 16) : (s.raise f x).cfg = s.cfg := rfl
@[simp] theorem State.raise_port (f : HwFault) (x : BitVec 16) : (s.raise f x).port = s.port := rfl
@[simp] theorem State.raise_phase (f : HwFault) (x : BitVec 16) : (s.raise f x).phase = .fault := rfl
@[simp] theorem State.raise_err (f : HwFault) (x : BitVec 16) : (s.raise f x).err = f.code := rfl
@[simp] theorem State.raise_einfo (f : HwFault) (x : BitVec 16) : (s.raise f x).einfo = x := rfl
@[simp] theorem State.raise_tbc (f : HwFault) (x : BitVec 16) : (s.raise f x).tbc = s.tbc := rfl
@[simp] theorem State.raise_root (f : HwFault) (x : BitVec 16) : (s.raise f x).root = s.root := rfl
@[simp] theorem State.raise_nsym (f : HwFault) (x : BitVec 16) : (s.raise f x).nsym = s.nsym := rfl
@[simp] theorem State.raise_nint (f : HwFault) (x : BitVec 16) : (s.raise f x).nint = s.nint := rfl
@[simp] theorem State.raise_rdata (f : HwFault) (x : BitVec 16) : (s.raise f x).rdata = s.rdata := rfl
@[simp] theorem State.raise_raux (f : HwFault) (x : BitVec 16) : (s.raise f x).raux = s.raux := rfl
@[simp] theorem State.raise_pcnt (f : HwFault) (x : BitVec 16) : (s.raise f x).pcnt = s.pcnt := rfl
@[simp] theorem State.raise_pbits (f : HwFault) (x : BitVec 16) : (s.raise f x).pbits = s.pbits := rfl
@[simp] theorem State.raise_dcur (f : HwFault) (x : BitVec 16) : (s.raise f x).dcur = s.dcur := rfl
@[simp] theorem State.raise_freq (f : HwFault) (x : BitVec 16) : (s.raise f x).freq = s.freq := rfl
@[simp] theorem State.raise_node (f : HwFault) (x : BitVec 16) : (s.raise f x).node = s.node := rfl
@[simp] theorem State.raise_code (f : HwFault) (x : BitVec 16) : (s.raise f x).code = s.code := rfl
@[simp] theorem State.raise_out (f : HwFault) (x : BitVec 16) : (s.raise f x).out = s.out := rfl

@[simp] theorem State.resetState_cfg : s.resetState.cfg = s.cfg := rfl
@[simp] theorem State.resetState_port : s.resetState.port = s.port := rfl
@[simp] theorem State.resetState_phase : s.resetState.phase = .idle := rfl
@[simp] theorem State.resetState_err : s.resetState.err = 0 := rfl
@[simp] theorem State.resetState_einfo : s.resetState.einfo = 0 := rfl
@[simp] theorem State.resetState_tbc : s.resetState.tbc = 0 := rfl
@[simp] theorem State.resetState_root : s.resetState.root = NIL := rfl
@[simp] theorem State.resetState_nsym : s.resetState.nsym = 0 := rfl
@[simp] theorem State.resetState_nint : s.resetState.nint = 0 := rfl
@[simp] theorem State.resetState_rdata : s.resetState.rdata = 0 := rfl
@[simp] theorem State.resetState_raux : s.resetState.raux = 0 := rfl
@[simp] theorem State.resetState_pcnt : s.resetState.pcnt = 0 := rfl
@[simp] theorem State.resetState_pbits : s.resetState.pbits = 0 := rfl
@[simp] theorem State.resetState_dcur : s.resetState.dcur = NIL := rfl
@[simp] theorem State.resetState_freq : s.resetState.freq = [] := rfl
@[simp] theorem State.resetState_node : s.resetState.node = [] := rfl
@[simp] theorem State.resetState_code : s.resetState.code = [] := rfl
@[simp] theorem State.resetState_out : s.resetState.out = [] := rfl

end Sys2Proof.Machine
end

