-- ==== Sys2Proof/Laws/Tables.lean ====
section
/-! SUPPORT. The laws of the tables: read after write, the canonical form is kept, equal reads mean equal tables,
and the keys of a frequency table. -/

namespace Sys2Proof.Machine

variable {α : Type}

theorem Table.read_filter_other (d : α) (t : Table α) (i j : Nat) (h : j ≠ i) :
    Table.read d (t.filter (fun e => e.1 != i)) j = Table.read d t j := by
  induction t with
  | nil => rfl
  | cons e t ih =>
    by_cases he : e.1 = i
    · rw [List.filter_cons_of_neg (by simp [he]), ih, Table.read, if_neg (he ▸ h)]
    · rw [List.filter_cons_of_pos (by simp [he]), Table.read, Table.read, ih]

theorem Table.read_unlisted (d : α) (t : Table α) (i : Nat) (h : ∀ e ∈ t, e.1 ≠ i) : Table.read d t i = d := by
  induction t with
  | nil => rfl
  | cons e t ih =>
    rw [Table.read, if_neg (fun h' => h e (by simp) h'.symm), ih (fun x hx => h x (by simp [hx]))]

theorem Table.read_insert (d : α) (t : Table α) (i : Nat) (v : α) (j : Nat) (h : ∀ e ∈ t, e.1 ≠ i) :
    Table.read d (Table.insert i v t) j = if j = i then v else Table.read d t j := by
  induction t with
  | nil => rfl
  | cons e t ih =>
    have he : e.1 ≠ i := h e (by simp)
    have ih := ih (fun x hx => h x (by simp [hx]))
    unfold Table.insert
    by_cases hlt : i < e.1
    · rw [if_pos hlt, Table.read]
    · rw [if_neg hlt, Table.read, Table.read, ih]
      by_cases hj : j = i
      · rw [if_neg (by omega), if_pos hj, if_pos hj]
      · rw [if_neg hj, if_neg hj]

/-- Read after write, on every table, canonical or not. -/
theorem Table.read_write [DecidableEq α] (d : α) (t : Table α) (i : Nat) (v : α) (j : Nat) :
    Table.read d (Table.write d t i v) j = if j = i then v else Table.read d t j := by
  have hne : ∀ e ∈ t.filter (fun e => e.1 != i), e.1 ≠ i := by
    intro e he
    simpa using (List.mem_filter.mp he).2
  unfold Table.write
  by_cases hv : v = d
  · rw [if_pos hv]
    by_cases hj : j = i
    · subst hj
      rw [if_pos rfl, Table.read_unlisted d _ _ hne, hv]
    · rw [if_neg hj, Table.read_filter_other d t i j hj]
  · rw [if_neg hv, Table.read_insert d _ i v j hne]
    by_cases hj : j = i
    · rw [if_pos hj, if_pos hj]
    · rw [if_neg hj, if_neg hj, Table.read_filter_other d t i j hj]

/-! ## The canonical form -/

theorem Table.wf_cons [DecidableEq α] (n : Nat) (d : α) (e : Nat × α) (t : Table α) :
    Table.wf n d (e :: t) = true ↔
      e.1 < n ∧ e.2 ≠ d ∧ (∀ x ∈ t, e.1 < x.1) ∧ Table.wf n d t = true := by
  simp [Table.wf, List.all_eq_true, and_assoc]

theorem Table.wf_filter [DecidableEq α] (n : Nat) (d : α) (t : Table α) (p : Nat × α → Bool)
    (h : Table.wf n d t = true) : Table.wf n d (t.filter p) = true := by
  induction t with
  | nil => rfl
  | cons e t ih =>
    obtain ⟨h1, h2, h3, h4⟩ := (Table.wf_cons n d e t).mp h
    by_cases hp : p e = true
    · rw [List.filter_cons_of_pos hp]
      exact (Table.wf_cons ..).mpr ⟨h1, h2, fun x hx => h3 x (List.mem_filter.mp hx).1, ih h4⟩
    · rw [List.filter_cons_of_neg hp]
      exact ih h4

theorem Table.mem_insert (i : Nat) (v : α) (t : Table α) (x : Nat × α) :
    x ∈ Table.insert i v t ↔ x = (i, v) ∨ x ∈ t := by
  induction t with
  | nil => simp [Table.insert]
  | cons e t ih =>
    unfold Table.insert
    split
    · simp
    · simp only [List.mem_cons, ih]
      tauto

theorem Table.wf_insert [DecidableEq α] (n : Nat) (d : α) (t : Table α) (i : Nat) (v : α) (hi : i < n)
    (hv : v ≠ d) (hne : ∀ e ∈ t, e.1 ≠ i) (h : Table.wf n d t = true) :
    Table.wf n d (Table.insert i v t) = true := by
  induction t with
  | nil => simp [Table.insert, Table.wf, hi, hv]
  | cons e t ih =>
    have hc := (Table.wf_cons n d e t).mp h
    obtain ⟨h1, h2, h3, h4⟩ := hc
    have he : e.1 ≠ i := hne e (by simp)
    unfold Table.insert
    by_cases hlt : i < e.1
    · rw [if_pos hlt]
      refine (Table.wf_cons ..).mpr ⟨hi, hv, ?_, h⟩
      intro x hx
      rcases List.mem_cons.mp hx with rfl | hx
      · exact hlt
      · exact Nat.lt_trans hlt (h3 x hx)
    · rw [if_neg hlt]
      refine (Table.wf_cons ..).mpr ⟨h1, h2, ?_, ih (fun x hx => hne x (by simp [hx])) h4⟩
      intro x hx
      rcases (Table.mem_insert ..).mp hx with rfl | hx
      · simp only; omega
      · exact h3 x hx

/-- Every table write keeps the canonical form. -/
theorem Table.wf_write [DecidableEq α] (n : Nat) (d : α) (t : Table α) (i : Nat) (v : α) (hi : i < n)
    (h : Table.wf n d t = true) : Table.wf n d (Table.write d t i v) = true := by
  unfold Table.write
  by_cases hv : v = d
  · rw [if_pos hv]
    exact Table.wf_filter n d t _ h
  · rw [if_neg hv]
    refine Table.wf_insert n d _ i v hi hv ?_ (Table.wf_filter n d t _ h)
    intro e he
    simpa using (List.mem_filter.mp he).2

theorem Table.read_below [DecidableEq α] (n : Nat) (d : α) (e : Nat × α) (t : Table α)
    (h : Table.wf n d (e :: t) = true) (j : Nat) (hj : j ≤ e.1) : Table.read d t j = d := by
  obtain ⟨_, _, h3, _⟩ := (Table.wf_cons n d e t).mp h
  exact Table.read_unlisted d t j (fun x hx => by have := h3 x hx; omega)

/-- A canonical table lists nothing beyond its range. -/
theorem Table.read_beyond [DecidableEq α] (n : Nat) (d : α) (t : Table α) (h : Table.wf n d t = true) (j : Nat)
    (hj : n ≤ j) : Table.read d t j = d := by
  induction t with
  | nil => rfl
  | cons e t ih =>
    obtain ⟨h1, _, _, h4⟩ := (Table.wf_cons n d e t).mp h
    rw [Table.read, if_neg (by omega), ih h4]

/-- Equal tables are equal data: two canonical tables that read alike everywhere are the same list. -/
theorem Table.ext [DecidableEq α] (n : Nat) (d : α) (t u : Table α) (ht : Table.wf n d t = true)
    (hu : Table.wf n d u = true) (h : ∀ j, Table.read d t j = Table.read d u j) : t = u := by
  induction t generalizing u with
  | nil =>
    cases u with
    | nil => rfl
    | cons f u =>
      have hf := h f.1
      simp only [Table.read, if_true] at hf
      exact absurd hf.symm ((Table.wf_cons ..).mp hu).2.1
  | cons e t ih =>
    cases u with
    | nil =>
      have he := h e.1
      simp only [Table.read, if_true] at he
      exact absurd he ((Table.wf_cons ..).mp ht).2.1
    | cons f u =>
      obtain ⟨_, he2, _, he4⟩ := (Table.wf_cons n d e t).mp ht
      obtain ⟨_, hf2, _, hf4⟩ := (Table.wf_cons n d f u).mp hu
      have hkey : e.1 = f.1 := by
        by_contra hne
        rcases Nat.lt_or_gt_of_ne hne with hlt | hlt
        · have h1 := h e.1
          rw [Table.read, if_pos rfl, Table.read, if_neg hne,
            Table.read_below n d f u hu e.1 (Nat.le_of_lt hlt)] at h1
          exact he2 h1
        · have h1 := h f.1
          rw [Table.read, if_neg (Ne.symm hne), Table.read_below n d e t ht f.1 (Nat.le_of_lt hlt),
            Table.read, if_pos rfl] at h1
          exact hf2 h1.symm
      have hval : e.2 = f.2 := by
        have h1 := h e.1
        rwa [Table.read, if_pos rfl, Table.read, if_pos hkey] at h1
      have hrest : t = u := by
        refine ih u he4 hf4 (fun j => ?_)
        by_cases hj : j = e.1
        · rw [Table.read_below n d e t ht j (Nat.le_of_eq hj), Table.read_below n d f u hu j (by omega)]
        · have h1 := h j
          rwa [Table.read, if_neg hj, Table.read, if_neg (hkey ▸ hj)] at h1
      rw [Prod.ext hkey hval, hrest]

/-! ## The three tables of the block -/

@[simp] theorem freqOf_nil (k : Sym) : freqOf [] k = 0 := rfl
@[simp] theorem nodeOf_nil (i : NodeIdx) : nodeOf [] i = nodeDefault := rfl
@[simp] theorem codeOf_nil (k : Sym) : codeOf [] k = codeDefault := rfl

theorem freqOf_write (t : Table Count) (k j : Sym) (c : Count) :
    freqOf (Table.write freqDefault t k.toNat c) j = if j = k then c else freqOf t j := by
  simp only [freqOf, Table.read_write, BitVec.toNat_inj]

theorem codeOf_write (t : Table Code) (k j : Sym) (e : Code) :
    codeOf (Table.write codeDefault t k.toNat e) j = if j = k then e else codeOf t j := by
  simp only [codeOf, Table.read_write, BitVec.toNat_inj]

theorem nodeOf_write (t : Table Node) (k : Nat) (j : NodeIdx) (n : Node) :
    nodeOf (Table.write nodeDefault t k n) j = if j.toNat = k then n else nodeOf t j := by
  simp only [nodeOf, Table.read_write]

theorem mem_allSyms (k : Sym) : k ∈ allSyms := by
  refine List.mem_map.mpr ⟨k.toNat, List.mem_range.mpr k.isLt, ?_⟩
  simp

theorem allSyms_nodup : allSyms.Nodup := by
  refine (List.nodup_map_iff_inj_on List.nodup_range).mpr ?_
  intro a ha b hb hab
  have := congrArg BitVec.toNat hab
  simp only [BitVec.toNat_ofNat] at this
  have ha := List.mem_range.mp ha
  have hb := List.mem_range.mp hb
  omega

/-- The symbols are listed in ascending order. -/
theorem allSyms_sorted : allSyms.Pairwise (fun a b => a.toNat < b.toNat) := by
  refine List.pairwise_map.mpr ?_
  refine List.Pairwise.imp_of_mem ?_ (List.pairwise_lt_range (n := 256))
  intro a b ha hb hab
  have ha := List.mem_range.mp ha
  have hb := List.mem_range.mp hb
  simp only [BitVec.toNat_ofNat]
  omega

@[simp] theorem mem_keysOf (t : Table Count) (k : Sym) : k ∈ keysOf t ↔ freqOf t k ≠ 0 := by
  simp [keysOf, mem_allSyms]

theorem keysOf_nodup (t : Table Count) : (keysOf t).Nodup := allSyms_nodup.filter _

theorem keysOf_sorted (t : Table Count) : (keysOf t).Pairwise (fun a b => a.toNat < b.toNat) :=
  allSyms_sorted.filter _

theorem keysOf_length_le (t : Table Count) : (keysOf t).length ≤ 256 := by
  have h : allSyms.length = 256 := by simp [allSyms]
  exact h ▸ List.length_filter_le _ _

theorem keysOf_eq_nil (t : Table Count) : keysOf t = [] ↔ ∀ k, freqOf t k = 0 := by
  constructor
  · intro h k
    by_contra hk
    have := (mem_keysOf t k).mpr hk
    rw [h] at this
    exact absurd this (by simp)
  · intro h
    refine List.eq_nil_iff_forall_not_mem.mpr (fun k hk => ?_)
    exact (mem_keysOf t k).mp hk (h k)

/-- The keys depend on what the table reads as, not on how it is held. -/
theorem keysOf_congr (t u : Table Count) (h : ∀ k, freqOf t k = freqOf u k) : keysOf t = keysOf u := by
  simp only [keysOf, h]

/-! ## Node indices -/

theorem leafIdx_toNat (k : Sym) : (leafIdx k).toNat = k.toNat := by
  have := k.isLt
  simp only [leafIdx, BitVec.toNat_setWidth]
  omega

@[simp] theorem isLeafIdx_leafIdx (k : Sym) : isLeafIdx (leafIdx k) = true := by
  have := k.isLt
  simp only [isLeafIdx, leafIdx_toNat, decide_eq_true_eq]
  omega

@[simp] theorem leafSym_leafIdx (k : Sym) : leafSym (leafIdx k) = k := by
  apply BitVec.eq_of_toNat_eq
  have := k.isLt
  simp only [leafSym, BitVec.extractLsb'_toNat, leafIdx_toNat, Nat.shiftRight_zero]
  omega

theorem isLeafIdx_iff (i : NodeIdx) : isLeafIdx i = true ↔ i.toNat < 256 := by simp [isLeafIdx]

theorem isLeafIdx_false_iff (i : NodeIdx) : isLeafIdx i = false ↔ 256 ≤ i.toNat := by simp [isLeafIdx]

theorem leafIdx_leafSym (i : NodeIdx) (h : isLeafIdx i = true) : leafIdx (leafSym i) = i := by
  apply BitVec.eq_of_toNat_eq
  rw [leafIdx_toNat]
  have := (isLeafIdx_iff i).mp h
  simp only [leafSym, BitVec.extractLsb'_toNat, Nat.shiftRight_zero]
  omega

theorem leafIdx_inj (a b : Sym) : leafIdx a = leafIdx b ↔ a = b := by
  constructor
  · intro h
    have := congrArg leafSym h
    simpa using this
  · exact congrArg leafIdx

theorem NIL_toNat : NIL.toNat = 511 := rfl

theorem nodeOf?_of_lt (t : Table Node) (i : NodeIdx) (h : i.toNat < 511) : nodeOf? t i = some (nodeOf t i) := by
  unfold nodeOf?
  rw [if_neg]
  intro hi
  have := congrArg BitVec.toNat hi
  rw [NIL_toNat] at this
  omega

end Sys2Proof.Machine
end

