-- ==== Sys2Proof/Laws/Build.lean ====
section
/-! SUPPORT. What the build procedure computes (rules R91 to R94, R96): the loop invariant, and that its result is
the Huffman tree of rule R94. -/

namespace Sys2Proof.Machine

theorem mergeIdx_toNat (k : Nat) (h : k < 255) : (mergeIdx k).toNat = 256 + k := by
  simp only [mergeIdx, BitVec.toNat_ofNat]
  omega

theorem mergeIdx_not_leaf (k : Nat) (h : k < 255) : isLeafIdx (mergeIdx k) = false := by
  rw [isLeafIdx_false_iff, mergeIdx_toNat k h]
  omega

theorem eq_mergeIdx (i : NodeIdx) (k : Nat) (hk : k < 255) (h : i.toNat = 256 + k) : i = mergeIdx k := by
  apply BitVec.eq_of_toNat_eq
  rw [h, mergeIdx_toNat k hk]

/-- A queued index is below the index the next merge will create. -/
theorem queuedAt_lt (freq : Table Count) (node : Table Node) (k : Nat) (i : NodeIdx)
    (h : queuedAt freq node k i) : i.toNat < 256 + k := by
  rcases h.1 with ⟨h1, _⟩ | ⟨_, h2⟩
  · have := (isLeafIdx_iff i).mp h1
    omega
  · exact h2

/-! ## The leaves -/

theorem nodeOf_writeLeaves (freq : Table Count) (ks : List Sym) (node : Table Node) (i : NodeIdx) :
    nodeOf (writeLeaves freq ks node) i =
      if isLeafIdx i = true ∧ leafSym i ∈ ks then leafNode freq (leafSym i) else nodeOf node i := by
  induction ks generalizing node with
  | nil => simp [writeLeaves]
  | cons k ks ih =>
    have hstep : writeLeaves freq (k :: ks) node =
        writeLeaves freq ks (Table.write nodeDefault node k.toNat (leafNode freq k)) := rfl
    rw [hstep, ih, nodeOf_write]
    by_cases hmem : isLeafIdx i = true ∧ leafSym i ∈ ks
    · rw [if_pos hmem, if_pos ⟨hmem.1, List.mem_cons_of_mem _ hmem.2⟩]
    · rw [if_neg hmem]
      by_cases hk : i.toNat = k.toNat
      · have hlt := k.isLt
        have hleaf : isLeafIdx i = true := (isLeafIdx_iff i).mpr (by omega)
        have hi : i = leafIdx k := BitVec.eq_of_toNat_eq (by rw [hk, leafIdx_toNat])
        subst hi
        simp [leafIdx_toNat]
      · have hne : ¬ (isLeafIdx i = true ∧ leafSym i ∈ k :: ks) := by
          rintro ⟨hl, hm⟩
          rcases List.mem_cons.mp hm with hm | hm
          · apply hk
            rw [← hm, ← leafIdx_toNat, leafIdx_leafSym i hl]
          · exact hmem ⟨hl, hm⟩
        rw [if_neg hk, if_neg hne]

theorem wf_writeLeaves (freq : Table Count) (ks : List Sym) (node : Table Node)
    (h : Table.wf 511 nodeDefault node = true) : Table.wf 511 nodeDefault (writeLeaves freq ks node) = true := by
  induction ks generalizing node with
  | nil => exact h
  | cons k ks ih =>
    refine ih _ (Table.wf_write _ _ _ _ _ ?_ h)
    have := k.isLt
    omega

/-! ## The loop invariant -/

/-- What holds of the build loop after each pass (rule R94). -/
structure LoopInv (freq : Table Count) (m : MergeState) : Prop where
  size : m.queue.length + m.count = (keysOf freq).length
  distinct : (m.queue.map QueueEntry.idx).Nodup
  members : ∀ i, i ∈ m.queue.map QueueEntry.idx ↔ queuedAt freq m.node m.count i
  weights : ∀ e ∈ m.queue, (nodeOf m.node e.idx).weight = e.weight
  leaves : ∀ k : Sym, freqOf freq k ≠ 0 → nodeOf m.node (leafIdx k) = leafNode freq k
  merges : ∀ k, k < m.count → MergeOk freq m.node k
  total : (m.queue.map (fun e => e.weight.toNat)).sum = totalCount freq

/-- The sum of all counts (rule R96). -/
theorem totalCount_le (freq : Table Count) : totalCount freq ≤ 256 * (2 ^ 32 - 1) := by
  have h1 : ∀ l : List Sym, (l.map (fun k => (freqOf freq k).toNat)).sum ≤ l.length * (2 ^ 32 - 1) := by
    intro l
    induction l with
    | nil => simp
    | cons k l ih =>
      have := (freqOf freq k).isLt
      simp only [List.map_cons, List.sum_cons, List.length_cons]
      omega
  exact Nat.le_trans (h1 (keysOf freq)) (Nat.mul_le_mul_right _ (keysOf_length_le freq))

/-- The weights of a whole queue fit 40 bits (rule R96). -/
theorem totalCount_lt (freq : Table Count) : totalCount freq < 2 ^ 40 :=
  Nat.lt_of_le_of_lt (totalCount_le freq) (by decide)

theorem loopInv_start (freq : Table Count) (node : Table Node) :
    LoopInv freq ⟨0, (keysOf freq).map (leafEntry freq), writeLeaves freq (keysOf freq) node⟩ where
  size := by simp
  distinct := by
    rw [List.map_map]
    refine (List.nodup_map_iff_inj_on (keysOf_nodup freq)).mpr ?_
    intro a _ b _ h
    exact (leafIdx_inj a b).mp h
  members := by
    intro i
    simp only [List.map_map, List.mem_map, mem_keysOf, Function.comp, leafEntry, queuedAt, Nat.add_zero]
    constructor
    · rintro ⟨k, hk, rfl⟩
      refine ⟨Or.inl ⟨isLeafIdx_leafIdx k, by simpa using hk⟩, fun j hj => absurd hj (Nat.not_lt_zero j)⟩
    · rintro ⟨h | h, _⟩
      · exact ⟨leafSym i, h.2, leafIdx_leafSym i h.1⟩
      · omega
  weights := by
    intro e he
    obtain ⟨k, hk, rfl⟩ := List.mem_map.mp he
    have hmem : isLeafIdx (leafIdx k) = true ∧ leafSym (leafIdx k) ∈ keysOf freq := by simpa using hk
    simp only [leafEntry]
    rw [nodeOf_writeLeaves, if_pos hmem]
    simp [leafNode]
  leaves := by
    intro k hk
    have hmem : isLeafIdx (leafIdx k) = true ∧ leafSym (leafIdx k) ∈ keysOf freq := by simpa using hk
    rw [nodeOf_writeLeaves, if_pos hmem]
    simp
  merges := fun k hk => absurd hk (Nat.not_lt_zero k)
  total := by
    rw [List.map_map, totalCount]
    refine congrArg List.sum (List.map_congr_left (fun k _ => ?_))
    have := (freqOf freq k).isLt
    simp only [Function.comp, leafEntry, BitVec.toNat_setWidth]
    omega

/-- Facts about an earlier merge do not depend on entries created later. -/
theorem queuedAt_congr (freq : Table Count) (a b : Table Node) (k : Nat) (hk : k < 255)
    (h : ∀ i : NodeIdx, i.toNat < 256 + k → nodeOf a i = nodeOf b i) (i : NodeIdx) :
    queuedAt freq a k i ↔ queuedAt freq b k i := by
  have hchild : ∀ j, j < k → (isChildOf a i (mergeIdx j) ↔ isChildOf b i (mergeIdx j)) := by
    intro j hj
    have : nodeOf a (mergeIdx j) = nodeOf b (mergeIdx j) :=
      h _ (by rw [mergeIdx_toNat j (by omega)]; omega)
    simp only [isChildOf, this]
  unfold queuedAt
  constructor
  · rintro ⟨h1, h2⟩
    exact ⟨h1, fun j hj hc => h2 j hj ((hchild j hj).mpr hc)⟩
  · rintro ⟨h1, h2⟩
    exact ⟨h1, fun j hj hc => h2 j hj ((hchild j hj).mp hc)⟩

theorem mergeOk_congr (freq : Table Count) (a b : Table Node) (k : Nat) (hk : k < 255)
    (h : ∀ i : NodeIdx, i.toNat ≤ 256 + k → nodeOf a i = nodeOf b i) (hok : MergeOk freq a k) :
    MergeOk freq b k := by
  have hq := queuedAt_congr freq a b k hk (fun i hi => h i (Nat.le_of_lt hi))
  have hm : nodeOf a (mergeIdx k) = nodeOf b (mergeIdx k) := h _ (by rw [mergeIdx_toNat k hk])
  have hlt : ∀ i, queuedAt freq a k i → nodeOf a i = nodeOf b i :=
    fun i hi => h i (Nat.le_of_lt (queuedAt_lt freq a k i hi))
  have hl := hlt _ hok.leftQueued
  have hr := hlt _ hok.rightQueued
  constructor
  · rw [← hm]
    exact (hq _).mp hok.leftQueued
  · rw [← hm]
    exact (hq _).mp hok.rightQueued
  · have := hok.leftFirst
    unfold keyLt at this ⊢
    rwa [hl, hr, hm] at this
  · intro i hi hc
    have hi' := (hq i).mpr hi
    have hc' : ¬ isChildOf a i (mergeIdx k) := by
      unfold isChildOf at hc ⊢
      rwa [hm]
    have := hok.smallest i hi' hc'
    unfold keyLt at this ⊢
    rwa [hr, hlt i hi', hm] at this
  · have := hok.weight
    rwa [hl, hr, hm] at this

/-- One pass keeps the loop invariant. -/
theorem loopInv_step (freq : Table Count) (m m' : MergeState) (hinv : LoopInv freq m)
    (h : mergeOnce m = some m') : LoopInv freq m' := by
  rcases mergeOnce_spec m with ⟨hnone, _⟩ | ⟨n1, n2, q2, hperm, h21, hmin, heq⟩
  · rw [hnone] at h
    simp at h
  rw [heq, Option.some.injEq] at h
  have hlen := hperm.length_eq
  simp only [List.length_cons] at hlen
  have hsize := hinv.size
  have hle := keysOf_length_le freq
  have hk : m.count < 255 := by omega
  have hmi := mergeIdx_toNat m.count hk
  have hidx : BitVec.ofNat 9 (256 + m.count) = mergeIdx m.count := rfl
  -- the members of the queue
  have hmem1 : n1 ∈ m.queue := hperm.mem_iff.mpr (by simp)
  have hmem2 : n2 ∈ m.queue := hperm.mem_iff.mpr (by simp)
  have hmemq : ∀ e ∈ q2, e ∈ m.queue := fun e he => hperm.mem_iff.mpr (by simp [he])
  have hqueued : ∀ e ∈ m.queue, queuedAt freq m.node m.count e.idx :=
    fun e he => (hinv.members e.idx).mp (List.mem_map.mpr ⟨e, he, rfl⟩)
  have hlt : ∀ e ∈ m.queue, e.idx.toNat < 256 + m.count := fun e he => queuedAt_lt _ _ _ _ (hqueued e he)
  have hnodup : (n1.idx :: n2.idx :: q2.map QueueEntry.idx).Nodup :=
    (hperm.map QueueEntry.idx).nodup_iff.mp hinv.distinct
  obtain ⟨hn1, hn2⟩ := List.nodup_cons.mp hnodup
  obtain ⟨hn2, hnq⟩ := List.nodup_cons.mp hn2
  have hne12 : n1.idx ≠ n2.idx := fun h' => hn1 (by simp [h'])
  -- reading the new arena
  let node' := Table.write nodeDefault m.node (256 + m.count) ⟨n1.weight + n2.weight, n1.idx, n2.idx⟩
  have hread : ∀ i : NodeIdx, i.toNat < 256 + m.count → nodeOf node' i = nodeOf m.node i := by
    intro i hi
    simp only [node', nodeOf_write]
    rw [if_neg (by omega)]
  have hnew : nodeOf node' (mergeIdx m.count) = ⟨n1.weight + n2.weight, n1.idx, n2.idx⟩ := by
    simp only [node', nodeOf_write]
    rw [if_pos hmi]
  have hw1 := hinv.weights n1 hmem1
  have hw2 := hinv.weights n2 hmem2
  have hr1 := hread n1.idx (hlt n1 hmem1)
  have hr2 := hread n2.idx (hlt n2 hmem2)
  have hcongr := queuedAt_congr freq node' m.node m.count hk hread
  -- the sum does not wrap
  have htotal : n1.weight.toNat + (n2.weight.toNat + (q2.map (fun e => e.weight.toNat)).sum) = totalCount freq := by
    rw [← hinv.total, (hperm.map _).sum_eq]
    simp
  have hbound := totalCount_lt freq
  have hsum : (n1.weight + n2.weight).toNat = n1.weight.toNat + n2.weight.toNat := by
    rw [BitVec.toNat_add, Nat.mod_eq_of_lt (by omega)]
  -- the children of the new node
  have hchild : ∀ i, isChildOf node' i (mergeIdx m.count) ↔ n1.idx = i ∨ n2.idx = i := by
    intro i
    unfold isChildOf
    rw [hnew]
  have hmembers : ∀ i, i ∈ mergeIdx m.count :: q2.map QueueEntry.idx ↔ queuedAt freq node' (m.count + 1) i := by
    intro i
    have hold : i ∈ m.queue.map QueueEntry.idx ↔ i = n1.idx ∨ i = n2.idx ∨ i ∈ q2.map QueueEntry.idx := by
      rw [(hperm.map QueueEntry.idx).mem_iff]
      simp
    constructor
    · intro hi
      rcases List.mem_cons.mp hi with rfl | hi
      · refine ⟨Or.inr (by omega), fun j hj hc => ?_⟩
        -- children of a merge are queued at it, hence of smaller index
        have hsmall : ∀ c, isChildOf node' c (mergeIdx j) → c.toNat < 256 + m.count := by
          intro c hc
          by_cases hjk : j = m.count
          · subst hjk
            rcases (hchild c).mp hc with rfl | rfl
            · exact hlt n1 hmem1
            · exact hlt n2 hmem2
          · have hok := hinv.merges j (by omega)
            have hrj : nodeOf node' (mergeIdx j) = nodeOf m.node (mergeIdx j) :=
              hread _ (by rw [mergeIdx_toNat j (by omega)]; omega)
            unfold isChildOf at hc
            rw [hrj] at hc
            rcases hc with rfl | rfl
            · have := queuedAt_lt _ _ _ _ hok.leftQueued
              omega
            · have := queuedAt_lt _ _ _ _ hok.rightQueued
              omega
        have := hsmall _ hc
        omega
      · have hq := (hinv.members i).mp (hold.mpr (Or.inr (Or.inr hi)))
        have hq' := (hcongr i).mpr hq
        refine ⟨hq'.1.imp_right (by omega), fun j hj hc => ?_⟩
        by_cases hjk : j = m.count
        · subst hjk
          rcases (hchild i).mp hc with rfl | rfl
          · exact hn1 (by simp [hi])
          · exact hn2 hi
        · exact hq'.2 j (by omega) hc
    · intro hq
      by_cases hi : i = mergeIdx m.count
      · simp [hi]
      · have hq' : queuedAt freq node' m.count i := by
          refine ⟨hq.1.imp_right (fun h' => ⟨h'.1, ?_⟩), fun j hj => hq.2 j (by omega)⟩
          have : i.toNat ≠ 256 + m.count := fun h'' => hi (eq_mergeIdx i _ hk h'')
          omega
        have hnc : ¬ isChildOf node' i (mergeIdx m.count) := hq.2 m.count (by omega)
        rw [hchild] at hnc
        rcases hold.mp ((hinv.members i).mpr ((hcongr i).mp hq')) with rfl | rfl | h'
        · exact absurd (Or.inl rfl) hnc
        · exact absurd (Or.inr rfl) hnc
        · exact List.mem_cons_of_mem _ h'
  subst h
  constructor
  · simp only [List.length_cons]
    omega
  · simp only [List.map_cons, hidx]
    refine List.nodup_cons.mpr ⟨fun h' => ?_, hnq⟩
    obtain ⟨e, he, heq'⟩ := List.mem_map.mp h'
    have := hlt e (hmemq e he)
    rw [heq'] at this
    omega
  · intro i
    exact hmembers i
  · intro e he
    rcases List.mem_cons.mp he with rfl | he
    · rw [hidx]
      exact congrArg Node.weight hnew
    · have := hinv.weights e (hmemq e he)
      rw [← hread e.idx (hlt e (hmemq e he))] at this
      exact this
  · intro k hk'
    have := k.isLt
    rw [show nodeOf _ (leafIdx k) = nodeOf m.node (leafIdx k) from hread _ (by rw [leafIdx_toNat]; omega)]
    exact hinv.leaves k hk'
  · intro k hk'
    by_cases hkm : k = m.count
    · subst hkm
      have hlq : queuedAt freq node' m.count n1.idx := (hcongr _).mpr (hqueued n1 hmem1)
      have hrq : queuedAt freq node' m.count n2.idx := (hcongr _).mpr (hqueued n2 hmem2)
      have hcl : (nodeOf node' (mergeIdx m.count)).left = n1.idx := by rw [hnew]
      have hcr : (nodeOf node' (mergeIdx m.count)).right = n2.idx := by rw [hnew]
      constructor
      · change queuedAt freq node' m.count (nodeOf node' (mergeIdx m.count)).left
        rwa [hcl]
      · change queuedAt freq node' m.count (nodeOf node' (mergeIdx m.count)).right
        rwa [hcr]
      · change keyLt node' (nodeOf node' (mergeIdx m.count)).left (nodeOf node' (mergeIdx m.count)).right
        rw [hcl, hcr]
        unfold keyLt
        rw [hr1, hr2, hw1, hw2]
        have h21 := (QueueEntry.lt_false_iff _ _).mp h21
        have : n1.idx.toNat ≠ n2.idx.toNat := fun h' => hne12 (BitVec.eq_of_toNat_eq h')
        omega
      · intro i hi hc
        change queuedAt freq node' m.count i at hi
        change ¬ isChildOf node' i (mergeIdx m.count) at hc
        change keyLt node' (nodeOf node' (mergeIdx m.count)).right i
        rw [hcr]
        rw [hchild] at hc
        have hi' := (hinv.members i).mpr ((hcongr i).mp hi)
        obtain ⟨e, he, rfl⟩ := List.mem_map.mp hi'
        have heq2 : e ∈ q2 := by
          rcases List.mem_cons.mp (hperm.mem_iff.mp he) with rfl | h'
          · exact absurd (Or.inl rfl) hc
          · rcases List.mem_cons.mp h' with rfl | h'
            · exact absurd (Or.inr rfl) hc
            · exact h'
        unfold keyLt
        rw [hr2, hw2, hread e.idx (hlt e he), hinv.weights e he]
        have h1 := (QueueEntry.lt_false_iff _ _).mp (hmin e heq2)
        have h2 : e.idx.toNat ≠ n2.idx.toNat := fun h' => hc (Or.inr (BitVec.eq_of_toNat_eq h'.symm))
        omega
      · change (nodeOf node' (mergeIdx m.count)).weight.toNat =
          (nodeOf node' (nodeOf node' (mergeIdx m.count)).left).weight.toNat +
            (nodeOf node' (nodeOf node' (mergeIdx m.count)).right).weight.toNat
        rw [hcl, hcr, hr1, hr2, hw1, hw2, hnew]
        exact hsum
    · have hk'' : k < m.count := by simp only at hk'; omega
      exact mergeOk_congr freq m.node node' k (by omega)
        (fun i hi => (hread i (by omega)).symm) (hinv.merges k hk'')
  · simp only [List.map_cons, List.sum_cons, hsum]
    omega

/-- The loop under enough fuel ends with one member in the queue, its invariant kept (rules R94, R198). -/
theorem mergeLoop_spec (freq : Table Count) (fuel : Nat) (m : MergeState) (hinv : LoopInv freq m)
    (hfuel : m.queue.length ≤ fuel) (hne : 1 ≤ m.queue.length) :
    LoopInv freq (mergeLoop fuel m) ∧ (mergeLoop fuel m).queue.length = 1 := by
  induction fuel generalizing m with
  | zero => omega
  | succ fuel ih =>
    rcases mergeOnce_spec m with ⟨hnone, hle⟩ | ⟨n1, n2, q2, hperm, _, _, heq⟩
    · rw [mergeLoop, hnone]
      exact ⟨hinv, Nat.le_antisymm hle hne⟩
    · have hstep := loopInv_step freq m _ hinv heq
      have hlen := hperm.length_eq
      simp only [List.length_cons] at hlen
      rw [mergeLoop, heq]
      exact ih _ hstep (by change q2.length + 1 ≤ fuel; omega) (by simp)

/-- The whole loop of `build()`, for a table that is not empty. -/
theorem mergeAll_spec (freq : Table Count) (node : Table Node) (hne : keysOf freq ≠ []) :
    LoopInv freq (mergeAll freq node) ∧ (mergeAll freq node).queue.length = 1 := by
  have hlen : 1 ≤ (keysOf freq).length := List.length_pos_iff.mpr hne
  exact mergeLoop_spec freq _ _ (loopInv_start freq node) (by simp) (by simpa using hlen)

/-- The loop's result, in the words of rule R94: a Huffman tree, and `NINT = NSYM - 1`. -/
theorem mergeAll_huffman (freq : Table Count) (node : Table Node) (hne : keysOf freq ≠ []) :
    HuffmanTree freq (mergeAll freq node).node (rootOf (mergeAll freq node).queue)
        (BitVec.ofNat 8 (mergeAll freq node).count) ∧
      (mergeAll freq node).count + 1 = (keysOf freq).length ∧
      (nodeOf (mergeAll freq node).node (rootOf (mergeAll freq node).queue)).weight.toNat = totalCount freq := by
  obtain ⟨hinv, hone⟩ := mergeAll_spec freq node hne
  have hsize := hinv.size
  have hle := keysOf_length_le freq
  have hcount : (BitVec.ofNat 8 (mergeAll freq node).count).toNat = (mergeAll freq node).count := by
    rw [BitVec.toNat_ofNat]
    omega
  obtain ⟨e, he⟩ := List.length_eq_one_iff.mp hone
  refine ⟨⟨hinv.leaves, ?_, ?_⟩, by omega, ?_⟩
  · intro k hk
    exact hinv.merges k (by omega)
  · intro i
    rw [hcount, ← hinv.members i, he]
    simp [rootOf]
  · have hw := hinv.weights e (by simp [he])
    have ht := hinv.total
    rw [he] at ht ⊢
    simp only [rootOf]
    rw [hw]
    simpa using ht

/-! ## What the build procedure leaves alone -/

/-- A pass of the loop writes no entry but the one it creates. -/
theorem mergeOnce_frame (m m' : MergeState) (h : mergeOnce m = some m') :
    m'.count = m.count + 1 ∧ m'.queue.length + 1 = m.queue.length ∧
      ∃ n, m'.node = Table.write nodeDefault m.node (256 + m.count) n := by
  rcases mergeOnce_spec m with ⟨hnone, _⟩ | ⟨n1, n2, q2, hperm, _, _, heq⟩
  · rw [hnone] at h
    simp at h
  · rw [heq, Option.some.injEq] at h
    have hlen := hperm.length_eq
    subst h
    exact ⟨rfl, by simp only [List.length_cons] at hlen ⊢; omega, _, rfl⟩

/-- The loop writes the entries `256 ..< 256 + NINT` only, and keeps the canonical form. -/
theorem mergeLoop_frame (fuel : Nat) (m : MergeState) (i : NodeIdx) :
    m.count ≤ (mergeLoop fuel m).count ∧
    (i.toNat < 256 + m.count ∨ 256 + (mergeLoop fuel m).count ≤ i.toNat →
      nodeOf (mergeLoop fuel m).node i = nodeOf m.node i) ∧
    (m.queue.length + m.count ≤ 256 → Table.wf 511 nodeDefault m.node = true →
      Table.wf 511 nodeDefault (mergeLoop fuel m).node = true) := by
  induction fuel generalizing m with
  | zero => exact ⟨Nat.le_refl _, fun _ => rfl, fun _ h => h⟩
  | succ fuel ih =>
    rw [mergeLoop]
    cases h : mergeOnce m with
    | none => exact ⟨Nat.le_refl _, fun _ => rfl, fun _ h => h⟩
    | some m' =>
      dsimp only
      obtain ⟨hc, hq, n, hn⟩ := mergeOnce_frame m m' h
      obtain ⟨h1, h2, h3⟩ := ih m'
      refine ⟨by omega, fun hi => ?_, fun hs hw => ?_⟩
      · rw [h2 (by omega), hn, nodeOf_write, if_neg (by omega)]
      · refine h3 (by omega) ?_
        rw [hn]
        by_cases hq2 : m.queue.length ≤ 1
        · rcases mergeOnce_spec m with ⟨hnone, _⟩ | ⟨n1, n2, q2, hperm, _⟩
          · rw [hnone] at h
            simp at h
          · have := hperm.length_eq
            simp only [List.length_cons] at this
            omega
        · exact Table.wf_write _ _ _ _ _ (by omega) hw

/-- The build procedure writes allocated entries only (rules R21, R95). -/
theorem mergeAll_frame (freq : Table Count) (node : Table Node) (hne : keysOf freq ≠ []) (i : NodeIdx)
    (hi : allocIn freq (BitVec.ofNat 8 (mergeAll freq node).count) i = false) :
    nodeOf (mergeAll freq node).node i = nodeOf node i := by
  have hsize := (mergeAll_spec freq node hne).1.size
  have hle := keysOf_length_le freq
  have hone := (mergeAll_spec freq node hne).2
  have hcount : (BitVec.ofNat 8 (mergeAll freq node).count).toNat = (mergeAll freq node).count := by
    rw [BitVec.toNat_ofNat]
    omega
  have hframe := (mergeLoop_frame (keysOf freq).length
    ⟨0, (keysOf freq).map (leafEntry freq), writeLeaves freq (keysOf freq) node⟩ i).2.1
  have hcond : i.toNat < 256 ∨ 256 + (mergeAll freq node).count ≤ i.toNat := by
    cases hl : isLeafIdx i with
    | true => exact Or.inl ((isLeafIdx_iff i).mp hl)
    | false =>
      rw [allocIn, if_neg (by simp [hl]), hcount] at hi
      exact Or.inr (by simpa using hi)
  have hstep : nodeOf (mergeAll freq node).node i = nodeOf (writeLeaves freq (keysOf freq) node) i :=
    hframe hcond
  rw [hstep, nodeOf_writeLeaves, if_neg]
  rintro ⟨hl, hm⟩
  rw [allocIn, if_pos hl] at hi
  exact (mem_keysOf _ _).mp hm (by simpa using hi)

/-- The build procedure keeps the canonical form of the arena. -/
theorem wf_mergeAll (freq : Table Count) (node : Table Node) (hwf : Table.wf 511 nodeDefault node = true) :
    Table.wf 511 nodeDefault (mergeAll freq node).node = true := by
  refine (mergeLoop_frame _ _ 0).2.2 ?_ (wf_writeLeaves freq (keysOf freq) node hwf)
  have := keysOf_length_le freq
  simpa using this

end Sys2Proof.Machine
end

