-- ==== Sys2Proof/Laws/Tree.lean ====
section
/-! SUPPORT. A Huffman tree (rule R94) has the tree invariants of rule R23, and what `build()` leaves in the state
(rules R90, R94, R98, R99). -/

namespace Sys2Proof.Machine

/-! ## Following a path -/

theorem follow_append (node : Table Node) (i j : NodeIdx) (p q : BitSeq) (h : follow node i p = some j) :
    follow node i (p ++ q) = follow node j q := by
  induction p generalizing i with
  | nil =>
    simp only [follow, Option.some.injEq] at h
    subst h
    rfl
  | cons b p ih =>
    rw [follow] at h
    rw [List.cons_append, follow]
    cases hl : isLeafIdx i with
    | true =>
      rw [if_pos hl] at h
      simp at h
    | false =>
      cases hn : nodeOf? node i with
      | none => simp [hl, hn] at h
      | some n =>
        simp only [hl, hn, Bool.false_eq_true, if_false] at h ⊢
        exact ih _ h

theorem follow_one (node : Table Node) (i : NodeIdx) (b : Bool) (hl : isLeafIdx i = false) (hi : i.toNat < 511) :
    follow node i [b] = some (if b then (nodeOf node i).right else (nodeOf node i).left) := by
  rw [follow, hl, nodeOf?_of_lt node i hi]
  rfl

theorem follow_cons (node : Table Node) (i : NodeIdx) (b : Bool) (p : BitSeq) (hl : isLeafIdx i = false)
    (hi : i.toNat < 511) :
    follow node i (b :: p) = follow node (if b then (nodeOf node i).right else (nodeOf node i).left) p := by
  rw [follow, hl, nodeOf?_of_lt node i hi]
  rfl

theorem follow_leaf (node : Table Node) (i j : NodeIdx) (p : BitSeq) (hl : isLeafIdx i = true)
    (h : follow node i p = some j) : p = [] ∧ i = j := by
  cases p with
  | nil => exact ⟨rfl, Option.some.inj h⟩
  | cons b p =>
    rw [follow, if_pos hl] at h
    simp at h

/-! ## From rule R94 to rule R23 -/

/-- An allocated internal node is the node of some merge. -/
theorem internalIn_iff (freq : Table Count) (nint : BitVec 8) (p : NodeIdx) (hn : nint.toNat ≤ 255) :
    internalIn freq nint p ↔ ∃ k, k < nint.toNat ∧ p = mergeIdx k := by
  unfold internalIn allocIn
  constructor
  · rintro ⟨h1, h2⟩
    rw [h2] at h1
    have h2 := (isLeafIdx_false_iff p).mp h2
    have h1 : p.toNat < 256 + nint.toNat := by simpa using h1
    exact ⟨p.toNat - 256, by omega, eq_mergeIdx p _ (by omega) (by omega)⟩
  · rintro ⟨k, hk, rfl⟩
    have hl := mergeIdx_not_leaf k (by omega)
    have ht := mergeIdx_toNat k (by omega)
    rw [hl]
    refine ⟨?_, rfl⟩
    simp
    omega

theorem alloc_of_queued (freq : Table Count) (node : Table Node) (nint : BitVec 8) (k : Nat) (i : NodeIdx)
    (hk : k ≤ nint.toNat) (h : queuedAt freq node k i) : allocIn freq nint i = true := by
  unfold allocIn
  rcases h.1 with ⟨h1, h2⟩ | ⟨h1, h2⟩
  · rw [h1]
    simpa using h2
  · rw [(isLeafIdx_false_iff i).mpr h1]
    simp
    omega

theorem alloc_cases (freq : Table Count) (nint : BitVec 8) (i : NodeIdx) (h : allocIn freq nint i = true) :
    (isLeafIdx i = true ∧ freqOf freq (leafSym i) ≠ 0) ∨ (256 ≤ i.toNat ∧ i.toNat < 256 + nint.toNat) := by
  unfold allocIn at h
  cases hl : isLeafIdx i with
  | true =>
    rw [hl] at h
    exact Or.inl ⟨rfl, by simpa using h⟩
  | false =>
    rw [hl] at h
    exact Or.inr ⟨(isLeafIdx_false_iff i).mp hl, by simpa using h⟩

theorem alloc_leafIdx (freq : Table Count) (nint : BitVec 8) (k : Sym) :
    allocIn freq nint (leafIdx k) = true ↔ freqOf freq k ≠ 0 := by
  simp [allocIn]

theorem alloc_lt (freq : Table Count) (nint : BitVec 8) (i : NodeIdx) (h : allocIn freq nint i = true) :
    i.toNat < 256 + nint.toNat := by
  rcases alloc_cases freq nint i h with ⟨h1, _⟩ | ⟨_, h2⟩
  · have := (isLeafIdx_iff i).mp h1
    omega
  · exact h2

/-- No walk leaves the allocated nodes, where every internal node's children are allocated (rule R22). -/
theorem follow_alloc_of {freq : Table Count} {node : Table Node} {nint : BitVec 8}
    (hc : ∀ p, internalIn freq nint p →
      allocIn freq nint (nodeOf node p).left = true ∧ allocIn freq nint (nodeOf node p).right = true)
    (p : BitSeq) (i j : NodeIdx) (hi : allocIn freq nint i = true) (hf : follow node i p = some j) :
    allocIn freq nint j = true := by
  induction p generalizing i with
  | nil =>
    rw [← Option.some.inj hf]
    exact hi
  | cons b p ih =>
    cases hl : isLeafIdx i with
    | true =>
      rw [follow, if_pos hl] at hf
      simp at hf
    | false =>
      have hlt := alloc_lt _ _ _ hi
      have hn := nint.isLt
      have hi' : i.toNat < 511 := by
        by_contra hge
        have : i.toNat = 511 := by have := i.isLt; omega
        rw [follow, if_neg (by simp [hl])] at hf
        have hnil : i = NIL := BitVec.eq_of_toNat_eq this
        simp [nodeOf?, hnil] at hf
      rw [follow_cons node i b p hl hi'] at hf
      have hc := hc i ⟨hi, hl⟩
      refine ih _ ?_ hf
      cases b
      · exact hc.1
      · exact hc.2

section Derive
variable {freq : Table Count} {node : Table Node} {root : NodeIdx} {nint : BitVec 8}

/-- Two merges have no child in common (rule R23(c)). -/
theorem HuffmanTree.child_unique (h : HuffmanTree freq node root nint) (i : NodeIdx) (j k : Nat)
    (hj : j < nint.toNat) (hk : k < nint.toNat) (hcj : isChildOf node i (mergeIdx j))
    (hck : isChildOf node i (mergeIdx k)) : j = k := by
  have key : ∀ a b, a < b → b < nint.toNat → isChildOf node i (mergeIdx a) → ¬ isChildOf node i (mergeIdx b) := by
    intro a b hab hb hca hcb
    have hq : queuedAt freq node b i := by
      rcases hcb with rfl | rfl
      · exact (h.merges b hb).leftQueued
      · exact (h.merges b hb).rightQueued
    exact hq.2 a hab hca
  rcases Nat.lt_trichotomy j k with hlt | heq | hlt
  · exact absurd hck (key j k hlt hk hcj)
  · exact heq
  · exact absurd hcj (key k j hlt hj hck)

/-- Every allocated node is reached from the root (rules R23(c), R111). -/
theorem HuffmanTree.reach (h : HuffmanTree freq node root nint) (hn : nint.toNat ≤ 255) (d : Nat) (i : NodeIdx)
    (hd : 511 - i.toNat ≤ d) (ha : allocIn freq nint i = true) : ∃ p, follow node root p = some i := by
  induction d generalizing i with
  | zero =>
    have := alloc_lt _ _ _ ha
    omega
  | succ d ih =>
    by_cases hr : i = root
    · exact ⟨[], by rw [hr]; rfl⟩
    · have hq : ¬ queuedAt freq node nint.toNat i := fun hq => hr ((h.last i).mp hq)
      have hex : ∃ k, k < nint.toNat ∧ isChildOf node i (mergeIdx k) := by
        by_contra hno
        exact hq ⟨alloc_cases freq nint i ha, fun j hj hc => hno ⟨j, hj, hc⟩⟩
      obtain ⟨k, hk, hc⟩ := hex
      have hqk : queuedAt freq node k i := by
        rcases hc with rfl | rfl
        · exact (h.merges k hk).leftQueued
        · exact (h.merges k hk).rightQueued
      have hlt := queuedAt_lt freq node k i hqk
      have hmk := mergeIdx_toNat k (by omega)
      have hint := (internalIn_iff freq nint (mergeIdx k) hn).mpr ⟨k, hk, rfl⟩
      obtain ⟨p, hp⟩ := ih (mergeIdx k) (by omega) hint.1
      have hone := fun b => follow_one node (mergeIdx k) b hint.2 (by omega)
      rcases hc with hc | hc
      · exact ⟨p ++ [false], by rw [follow_append node root _ p _ hp, hone]; simp [hc]⟩
      · exact ⟨p ++ [true], by rw [follow_append node root _ p _ hp, hone]; simp [hc]⟩

theorem HuffmanTree.children_alloc (h : HuffmanTree freq node root nint) (hn : nint.toNat ≤ 255) (p : NodeIdx)
    (hp : internalIn freq nint p) :
    allocIn freq nint (nodeOf node p).left = true ∧ allocIn freq nint (nodeOf node p).right = true := by
  obtain ⟨k, hk, rfl⟩ := (internalIn_iff freq nint p hn).mp hp
  exact ⟨alloc_of_queued _ _ _ k _ (by omega) (h.merges k hk).leftQueued,
    alloc_of_queued _ _ _ k _ (by omega) (h.merges k hk).rightQueued⟩

theorem HuffmanTree.follow_alloc (h : HuffmanTree freq node root nint) (hn : nint.toNat ≤ 255) (p : BitSeq)
    (i j : NodeIdx) (hi : allocIn freq nint i = true) (hf : follow node i p = some j) :
    allocIn freq nint j = true :=
  follow_alloc_of (h.children_alloc hn) p i j hi hf

/-- The invariants of rules R19 and R23 hold of every Huffman tree. -/
theorem HuffmanTree.treeOk (h : HuffmanTree freq node root nint) (nsym : BitVec 9)
    (hsym : nsym.toNat = (keysOf freq).length) (hint : nsym.toNat = nint.toNat + 1) :
    TreeOk freq node root nsym nint := by
  have hn : nint.toNat ≤ 255 := by
    have := nint.isLt
    omega
  have hroot : queuedAt freq node nint.toNat root := (h.last root).mpr rfl
  have hra := alloc_of_queued _ _ _ _ _ (Nat.le_refl _) hroot
  constructor
  · exact hra
  · intro p hp
    obtain ⟨hcl, hcr⟩ := h.children_alloc hn p hp
    obtain ⟨k, hk, rfl⟩ := (internalIn_iff freq nint p hn).mp hp
    have hok := h.merges k hk
    have hl := queuedAt_lt _ _ _ _ hok.leftQueued
    have hr := queuedAt_lt _ _ _ _ hok.rightQueued
    have hm := mergeIdx_toNat k (by omega)
    refine ⟨hcl, hcr, ?_, by omega, by omega⟩
    intro heq
    have := hok.leftFirst
    rw [heq] at this
    unfold keyLt at this
    omega
  · intro p hp
    obtain ⟨k, hk, rfl⟩ := (internalIn_iff freq nint p hn).mp hp
    exact (h.merges k hk).weight
  · intro i hi hne
    have hq : ¬ queuedAt freq node nint.toNat i := fun hq => hne ((h.last i).mp hq)
    have hex : ∃ k, k < nint.toNat ∧ isChildOf node i (mergeIdx k) := by
      by_contra hno
      exact hq ⟨alloc_cases freq nint i hi, fun j hj hc => hno ⟨j, hj, hc⟩⟩
    obtain ⟨k, hk, hc⟩ := hex
    refine ⟨mergeIdx k, ⟨(internalIn_iff freq nint _ hn).mpr ⟨k, hk, rfl⟩, hc⟩, ?_⟩
    intro q hq' hcq
    obtain ⟨j, hj, rfl⟩ := (internalIn_iff freq nint q hn).mp hq'
    rw [h.child_unique i j k hj hk hcq hc]
  · intro p hp hc
    obtain ⟨k, hk, rfl⟩ := (internalIn_iff freq nint p hn).mp hp
    exact hroot.2 k hk hc
  · intro k
    constructor
    · intro hk
      exact h.reach hn _ _ (Nat.le_refl _) ((alloc_leafIdx freq nint k).mpr hk)
    · rintro ⟨p, hp⟩
      exact (alloc_leafIdx freq nint k).mp (h.follow_alloc hn p root _ hra hp)
  · exact h.leaves
  · exact hsym
  · exact hint

end Derive

/-- Facts about merges depend on what the frequency table reads as, not on how it is held. -/
theorem HuffmanTree.congr {f g : Table Count} {node : Table Node} {root : NodeIdx} {nint : BitVec 8}
    (hfg : ∀ k, freqOf f k = freqOf g k) (h : HuffmanTree f node root nint) : HuffmanTree g node root nint := by
  have hq : ∀ k i, queuedAt f node k i ↔ queuedAt g node k i := by
    intro k i
    simp only [queuedAt, hfg]
  constructor
  · intro k hk
    rw [h.leaves k (by rwa [hfg])]
    simp [leafNode, hfg]
  · intro k hk
    have hm := h.merges k hk
    exact ⟨(hq _ _).mp hm.leftQueued, (hq _ _).mp hm.rightQueued, hm.leftFirst,
      fun i hi => hm.smallest i ((hq _ _).mpr hi), hm.weight⟩
  · intro i
    rw [← h.last i, hq]

/-! ## The build procedure -/

/-- What `build()` does: nothing for an empty table, else it writes `NODE` (allocated entries), `ROOT`, `NSYM`,
`NINT` with a Huffman tree of the keys (rules R90, R94, R99). -/
theorem build_spec (s : State) :
    (keysOf s.freq = [] ∧ s.build = none) ∨
    (keysOf s.freq ≠ [] ∧ ∃ nd r nsym nint, s.build = some (s.setTree nd r nsym nint) ∧
      HuffmanTree s.freq nd r nint ∧ TreeOk s.freq nd r nsym nint ∧
      (Table.wf 511 nodeDefault s.node = true → Table.wf 511 nodeDefault nd = true) ∧
      (∀ i, allocIn s.freq nint i = false → nodeOf nd i = nodeOf s.node i) ∧
      (nodeOf nd r).weight.toNat = totalCount s.freq) := by
  by_cases hne : keysOf s.freq = []
  · exact Or.inl ⟨hne, by simp [State.build, hne]⟩
  · right
    obtain ⟨hh, hcount, ht⟩ := mergeAll_huffman s.freq s.node hne
    have hle := keysOf_length_le s.freq
    refine ⟨hne, _, _, BitVec.ofNat 9 (keysOf s.freq).length, _, by simp [State.build, hne], hh, ?_,
      wf_mergeAll s.freq s.node, mergeAll_frame s.freq s.node hne, ht⟩
    refine hh.treeOk _ ?_ ?_
    · rw [BitVec.toNat_ofNat]
      omega
    · rw [BitVec.toNat_ofNat, BitVec.toNat_ofNat]
      omega

/-! ## Determinism -/

section Unique
variable {freq : Table Count} {a b : Table Node}

/-- The left child of a merge is the smallest key of its queue (rule R94). -/
theorem MergeOk.left_least {k : Nat} (h : MergeOk freq a k) (j : NodeIdx) (hj : queuedAt freq a k j)
    (hne : j ≠ (nodeOf a (mergeIdx k)).left) : keyLt a (nodeOf a (mergeIdx k)).left j := by
  by_cases hr : j = (nodeOf a (mergeIdx k)).right
  · rw [hr]
    exact h.leftFirst
  · have h1 := h.leftFirst
    have h2 := h.smallest j hj (by
      rintro (hc | hc)
      · exact hne hc.symm
      · exact hr hc.symm)
    unfold keyLt at *
    omega

/-- Merges over arenas that agree below the new index create the same node. -/
theorem MergeOk.unique {k : Nat} (ha : MergeOk freq a k) (hb : MergeOk freq b k)
    (hq : ∀ i, queuedAt freq a k i ↔ queuedAt freq b k i)
    (hw : ∀ i, queuedAt freq a k i → nodeOf a i = nodeOf b i) :
    nodeOf a (mergeIdx k) = nodeOf b (mergeIdx k) := by
  have hkey : ∀ i j, queuedAt freq a k i → queuedAt freq a k j → (keyLt a i j ↔ keyLt b i j) := by
    intro i j hi hj
    unfold keyLt
    rw [hw i hi, hw j hj]
  have hlb := (hq _).mpr hb.leftQueued
  have hrb := (hq _).mpr hb.rightQueued
  have hleft : (nodeOf a (mergeIdx k)).left = (nodeOf b (mergeIdx k)).left := by
    by_contra hne
    have h1 := ha.left_least _ hlb (Ne.symm hne)
    have h2 := hb.left_least _ ((hq _).mp ha.leftQueued) hne
    have h1 := (hkey _ _ ha.leftQueued hlb).mp h1
    unfold keyLt at h1 h2
    omega
  have hlr : ∀ {t : Table Node}, MergeOk freq t k →
      (nodeOf t (mergeIdx k)).left ≠ (nodeOf t (mergeIdx k)).right := by
    intro t ht heq
    have := ht.leftFirst
    rw [heq] at this
    unfold keyLt at this
    omega
  have hright : (nodeOf a (mergeIdx k)).right = (nodeOf b (mergeIdx k)).right := by
    by_contra hne
    have h1 := ha.smallest _ hrb (by
      rintro (hc | hc)
      · exact hlr hb (hleft ▸ hc)
      · exact hne hc)
    have h2 := hb.smallest _ ((hq _).mp ha.rightQueued) (by
      rintro (hc | hc)
      · exact hlr ha (hleft.trans hc)
      · exact hne hc.symm)
    have h1 := (hkey _ _ ha.rightQueued hrb).mp h1
    unfold keyLt at h1 h2
    omega
  have hweight : (nodeOf a (mergeIdx k)).weight = (nodeOf b (mergeIdx k)).weight := by
    apply BitVec.eq_of_toNat_eq
    rw [ha.weight, hb.weight, ← hleft, ← hright, hw _ ha.leftQueued, hw _ ha.rightQueued]
  cases hx : nodeOf a (mergeIdx k) with
  | mk wa la ra =>
    cases hy : nodeOf b (mergeIdx k) with
    | mk wb lb rb =>
      rw [hx, hy] at hleft hright hweight
      simp only at hleft hright hweight
      rw [hleft, hright, hweight]

/-- Two Huffman trees of one frequency table agree at every allocated index, stale contents of the arena
notwithstanding: the merges determine the tree (rule R102). -/
theorem HuffmanTree.node_unique {ra rb : NodeIdx} {nint : BitVec 8} (ha : HuffmanTree freq a ra nint)
    (hb : HuffmanTree freq b rb nint) (k : Nat) (hk : k ≤ nint.toNat) (i : NodeIdx) (hi : i.toNat < 256 + k)
    (hal : allocIn freq nint i = true) : nodeOf a i = nodeOf b i := by
  have hn := nint.isLt
  induction k generalizing i with
  | zero =>
    rcases alloc_cases _ _ _ hal with ⟨h1, h2⟩ | ⟨h1, _⟩
    · rw [← leafIdx_leafSym i h1, ha.leaves _ h2, hb.leaves _ h2]
    · omega
  | succ k ih =>
    have ih := ih (by omega)
    by_cases hik : i.toNat < 256 + k
    · exact ih i hik hal
    · have hi' : i = mergeIdx k := eq_mergeIdx i k (by omega) (by omega)
      have hst : ∀ j, j < k → nodeOf a (mergeIdx j) = nodeOf b (mergeIdx j) := by
        intro j hj
        have hm := mergeIdx_toNat j (by omega)
        exact ih _ (by omega) ((internalIn_iff freq nint _ (by omega)).mpr ⟨j, by omega, rfl⟩).1
      have hq : ∀ i, queuedAt freq a k i ↔ queuedAt freq b k i := by
        intro i
        unfold queuedAt
        refine and_congr_right (fun _ => forall_congr' (fun j => forall_congr' (fun hj => ?_)))
        rw [isChildOf, isChildOf, hst j hj]
      rw [hi']
      refine MergeOk.unique (ha.merges k (by omega)) (hb.merges k (by omega)) hq (fun j hj => ?_)
      exact ih j (queuedAt_lt _ _ _ _ hj) (alloc_of_queued _ _ _ k _ (by omega) hj)

end Unique

/-- Two Huffman trees of one frequency table have one root. -/
theorem HuffmanTree.root_unique {freq : Table Count} {a b : Table Node} {ra rb : NodeIdx} {nint : BitVec 8}
    (ha : HuffmanTree freq a ra nint) (hb : HuffmanTree freq b rb nint) : ra = rb := by
  have hn := nint.isLt
  rw [← hb.last]
  have hq := (ha.last ra).mpr rfl
  refine ⟨hq.1, fun j hj hc => hq.2 j hj ?_⟩
  have halloc := ((internalIn_iff freq nint (mergeIdx j) (by omega)).mpr ⟨j, hj, rfl⟩).1
  have hnode := ha.node_unique hb nint.toNat (Nat.le_refl _) (mergeIdx j) (alloc_lt _ _ _ halloc) halloc
  unfold isChildOf at hc ⊢
  rwa [hnode]

end Sys2Proof.Machine
end

