-- ==== Sys2Proof/Laws/CodeGen.lean ====
section
/-! SUPPORT. What the code-table generator computes (rules R110 to R114, R117): paths are unique, the walk finds
each of them, and the table holds them. -/

namespace Sys2Proof.Machine

/-! ## Paths are unique -/

/-- The last edge of a path leaves an internal node for its child. -/
theorem follow_snoc (node : Table Node) (r i : NodeIdx) (p : BitSeq) (b : Bool)
    (h : follow node r (p ++ [b]) = some i) :
    ∃ u, follow node r p = some u ∧ isLeafIdx u = false ∧
      i = if b then (nodeOf node u).right else (nodeOf node u).left := by
  induction p generalizing r with
  | nil =>
    rw [List.nil_append, follow] at h
    cases hl : isLeafIdx r with
    | true => simp [hl] at h
    | false =>
      refine ⟨r, rfl, hl, ?_⟩
      cases hn : nodeOf? node r with
      | none => simp [hl, hn] at h
      | some n =>
        have : n = nodeOf node r := by
          unfold nodeOf? at hn
          split at hn
          · simp at hn
          · exact (Option.some.inj hn).symm
        simp only [hl, hn, Bool.false_eq_true, if_false, follow, Option.some.injEq] at h
        rw [← h, this]
  | cons c p ih =>
    rw [List.cons_append, follow] at h
    cases hl : isLeafIdx r with
    | true => simp [hl] at h
    | false =>
      cases hn : nodeOf? node r with
      | none => simp [hl, hn] at h
      | some n =>
        simp only [hl, hn, Bool.false_eq_true, if_false] at h
        obtain ⟨u, hu, hul, hui⟩ := ih _ h
        exact ⟨u, by simp [follow, hl, hn, hu], hul, hui⟩

section Paths
variable {freq : Table Count} {node : Table Node} {root : NodeIdx} {nsym : BitVec 9} {nint : BitVec 8}

theorem TreeOk.alloc_lt (h : TreeOk freq node root nsym nint) (i : NodeIdx) (hi : allocIn freq nint i = true) :
    i.toNat < 511 := by
  have h1 := h.nsymCounts
  have h2 := h.nintCounts
  have h3 := keysOf_length_le freq
  have := Sys2Proof.Machine.alloc_lt _ _ _ hi
  omega

theorem TreeOk.follow_alloc (h : TreeOk freq node root nsym nint) (p : BitSeq) (i j : NodeIdx)
    (hi : allocIn freq nint i = true) (hf : follow node i p = some j) : allocIn freq nint j = true :=
  follow_alloc_of (fun q hq => ⟨(h.children q hq).1, (h.children q hq).2.1⟩) p i j hi hf

theorem TreeOk.root_follow_alloc (h : TreeOk freq node root nsym nint) (p : BitSeq) (j : NodeIdx)
    (hf : follow node root p = some j) : allocIn freq nint j = true :=
  h.follow_alloc p root j h.rootAlloc hf

/-- A path from the root reaches the allocated nodes and no other (rules R22, R23(c)). -/
theorem TreeOk.reach_iff_alloc (h : TreeOk freq node root nsym nint) (i : NodeIdx) :
    (∃ p, follow node root p = some i) ↔ allocIn freq nint i = true := by
  refine ⟨fun ⟨p, hp⟩ => h.root_follow_alloc p i hp, fun ha => ?_⟩
  generalize hd : 511 - i.toNat = d
  induction d using Nat.strongRecOn generalizing i with
  | ind d ih =>
    by_cases hr : i = root
    · exact ⟨[], by rw [hr]; rfl⟩
    · obtain ⟨q, ⟨hq, hc⟩, _⟩ := h.oneParent i ha hr
      have hlt := h.alloc_lt q hq.1
      obtain ⟨_, _, _, hleft, hright⟩ := h.children q hq
      have hone := fun b => follow_one node q b hq.2 hlt
      rcases hc with rfl | rfl
      · obtain ⟨p, hp⟩ := ih _ (by omega) q hq.1 rfl
        exact ⟨p ++ [false], by rw [follow_append node root _ p _ hp, hone]; simp⟩
      · obtain ⟨p, hp⟩ := ih _ (by omega) q hq.1 rfl
        exact ⟨p ++ [true], by rw [follow_append node root _ p _ hp, hone]; simp⟩

/-- Every allocated node has exactly one path (rule R111). -/
theorem TreeOk.path_unique (h : TreeOk freq node root nsym nint) (p q : BitSeq) (i : NodeIdx)
    (hp : follow node root p = some i) (hq : follow node root q = some i) : p = q := by
  induction p using List.reverseRecOn generalizing q i with
  | nil =>
    rcases List.eq_nil_or_concat' q with rfl | ⟨q', c, rfl⟩
    · rfl
    · obtain ⟨u, hu, hul, hui⟩ := follow_snoc node root i q' c hq
      have hr : root = i := Option.some.inj hp
      refine absurd ?_ (h.rootNoParent u ⟨h.root_follow_alloc q' u hu, hul⟩)
      rw [hr, hui]
      cases c
      · exact Or.inl rfl
      · exact Or.inr rfl
  | append_singleton p b ih =>
    obtain ⟨u, hu, hul, hui⟩ := follow_snoc node root i p b hp
    have hua := h.root_follow_alloc p u hu
    have hcu : isChildOf node i u := by
      rw [hui]
      cases b
      · exact Or.inl rfl
      · exact Or.inr rfl
    rcases List.eq_nil_or_concat' q with rfl | ⟨q', c, rfl⟩
    · have hr : root = i := Option.some.inj hq
      exact absurd (hr ▸ hcu) (h.rootNoParent u ⟨hua, hul⟩)
    · obtain ⟨v, hv, hvl, hvi⟩ := follow_snoc node root i q' c hq
      have hva := h.root_follow_alloc q' v hv
      have hcv : isChildOf node i v := by
        rw [hvi]
        cases c
        · exact Or.inl rfl
        · exact Or.inr rfl
      have hne : i ≠ root := fun hr => h.rootNoParent u ⟨hua, hul⟩ (hr ▸ hcu)
      obtain ⟨w, _, hw⟩ := h.oneParent i (h.root_follow_alloc _ i hp) hne
      have huv : u = v := (hw u ⟨hua, hul⟩ hcu).trans (hw v ⟨hva, hvl⟩ hcv).symm
      subst huv
      have hd := (h.children u ⟨hua, hul⟩).2.2.1
      have hbc : b = c := by
        rw [hui] at hvi
        cases b <;> cases c <;> simp_all
      rw [ih q' u hu hv, hbc]

/-- A symbol has one code word. -/
theorem TreeOk.codeWord_unique (h : TreeOk freq node root nsym nint) (k : Sym) (p q : BitSeq)
    (hp : isCodeWord node root k p) (hq : isCodeWord node root k q) : p = q := by
  unfold isCodeWord at hp hq
  split at hp
  · rename_i hl
    rw [if_pos hl] at hq
    rw [hp, hq]
  · rename_i hl
    rw [if_neg hl] at hq
    exact h.path_unique p q _ hp hq

theorem TreeOk.codeWord_exists (h : TreeOk freq node root nsym nint) (k : Sym) (hk : freqOf freq k ≠ 0) :
    ∃ p, isCodeWord node root k p := by
  unfold isCodeWord
  split
  · exact ⟨_, rfl⟩
  · exact (h.reachable k).mp hk

/-- A code word has at least one bit. -/
theorem codeWord_ne_nil (k : Sym) (p : BitSeq) (hp : isCodeWord node root k p) : 1 ≤ p.length := by
  unfold isCodeWord at hp
  split at hp
  · simp [hp]
  · rename_i hl
    cases p with
    | nil =>
      have : root = leafIdx k := Option.some.inj hp
      simp [this] at hl
    | cons b p => simp

/-! ## The one-leaf tree -/

/-- Under a root that is a leaf there is one key, the root's symbol (rule R98). -/
theorem TreeOk.leafRoot_key (h : TreeOk freq node root nsym nint) (hl : isLeafIdx root = true) (k : Sym)
    (hk : freqOf freq k ≠ 0) : k = leafSym root := by
  obtain ⟨p, hp⟩ := (h.reachable k).mp hk
  rw [(follow_leaf node root _ p hl hp).2, leafSym_leafIdx]

/-- A root that is a leaf means `NINT = 0`: there is no internal node (rule R98). -/
theorem TreeOk.leafRoot_nint (h : TreeOk freq node root nsym nint) (hl : isLeafIdx root = true) :
    nint.toNat = 0 := by
  have h1 := h.nsymCounts
  have h2 := h.nintCounts
  have hone : (keysOf freq).length ≤ 1 := by
    have hall : ∀ k ∈ keysOf freq, k = leafSym root := fun k hk => h.leafRoot_key hl k ((mem_keysOf _ _).mp hk)
    have hnd := keysOf_nodup freq
    cases hks : keysOf freq with
    | nil => simp
    | cons a l =>
      cases l with
      | nil => simp
      | cons b l =>
        rw [hks] at hall hnd
        have hab : a = b := (hall a (by simp)).trans (hall b (by simp)).symm
        simp [hab] at hnd
  omega

theorem TreeOk.leafRoot_no_internal (h : TreeOk freq node root nsym nint) (hl : isLeafIdx root = true)
    (p : NodeIdx) : ¬ internalIn freq nint p := by
  intro hp
  have h0 := h.leafRoot_nint hl
  have hlt := Sys2Proof.Machine.alloc_lt _ _ _ hp.1
  have hge := (isLeafIdx_false_iff p).mp hp.2
  omega

/-- One key means the root is its leaf (rule R98). -/
theorem TreeOk.leafRoot_of_one (h : TreeOk freq node root nsym nint) (k : Sym) (hk : keysOf freq = [k]) :
    root = leafIdx k ∧ nsym = 1 ∧ nint = 0 := by
  have h1 := h.nsymCounts
  have h2 := h.nintCounts
  rw [hk, List.length_singleton] at h1
  have hs : nsym = 1 := BitVec.eq_of_toNat_eq (by rw [h1]; rfl)
  have hn : nint = 0 := BitVec.eq_of_toNat_eq (by rw [show nint.toNat = 0 by omega]; rfl)
  refine ⟨?_, hs, hn⟩
  rcases alloc_cases _ _ _ h.rootAlloc with ⟨hl, hf⟩ | ⟨h3, h4⟩
  · have hm := (mem_keysOf _ _).mpr hf
    rw [hk, List.mem_singleton] at hm
    rw [← hm, leafIdx_leafSym _ hl]
  · omega

/-! ## The walk -/

/-- The walk ends, and what it lists is exactly the leaves below a node with their paths (rules R111, R198). -/
theorem TreeOk.leavesBelow_spec (h : TreeOk freq node root nsym nint) (fuel : Nat) (i : NodeIdx) (path : BitSeq)
    (hi : allocIn freq nint i = true) (hf1 : 1 ≤ fuel) (hf : i.toNat ≤ fuel + 254) :
    ∃ ls, leavesBelow node fuel i path = .ok ls ∧
      ∀ k q, (k, q) ∈ ls ↔ ∃ p, q = path ++ p ∧ follow node i p = some (leafIdx k) := by
  induction fuel generalizing i path with
  | zero => omega
  | succ fuel ih =>
    cases hl : isLeafIdx i with
    | true =>
      refine ⟨[(leafSym i, path)], by rw [leavesBelow, if_pos hl], fun k q => ?_⟩
      constructor
      · intro hm
        simp only [List.mem_singleton, Prod.mk.injEq] at hm
        obtain ⟨rfl, rfl⟩ := hm
        exact ⟨[], by simp, by rw [leafIdx_leafSym i hl]; rfl⟩
      · rintro ⟨p, rfl, hp⟩
        obtain ⟨rfl, rfl⟩ := follow_leaf node i _ p hl hp
        simp
    | false =>
      have hint : internalIn freq nint i := ⟨hi, hl⟩
      obtain ⟨hcl, hcr, _, hltl, hltr⟩ := h.children i hint
      have hlt := h.alloc_lt i hi
      have h256 := (isLeafIdx_false_iff i).mp hl
      obtain ⟨ls, hls, hlm⟩ := ih (nodeOf node i).left (path ++ [false]) hcl (by omega) (by omega)
      obtain ⟨rs, hrs, hrm⟩ := ih (nodeOf node i).right (path ++ [true]) hcr (by omega) (by omega)
      refine ⟨ls ++ rs, ?_, fun k q => ?_⟩
      · rw [leavesBelow, if_neg (by simp [hl]), nodeOf?_of_lt node i hlt]
        simp only [hls, hrs]
      · rw [List.mem_append, hlm, hrm]
        constructor
        · rintro (⟨p, rfl, hp⟩ | ⟨p, rfl, hp⟩)
          · exact ⟨false :: p, by simp, by rw [follow_cons node i _ p hl hlt]; exact hp⟩
          · exact ⟨true :: p, by simp, by rw [follow_cons node i _ p hl hlt]; exact hp⟩
        · rintro ⟨p, rfl, hp⟩
          cases p with
          | nil =>
            have : i = leafIdx k := Option.some.inj hp
            simp [this] at hl
          | cons b p =>
            rw [follow_cons node i b p hl hlt] at hp
            cases b
            · exact Or.inl ⟨p, by simp, hp⟩
            · exact Or.inr ⟨p, by simp, hp⟩

/-- The walk from the root. -/
theorem TreeOk.leavesBelow_root (h : TreeOk freq node root nsym nint) :
    ∃ ls, leavesBelow node walkFuel root [] = .ok ls ∧
      ∀ k q, (k, q) ∈ ls ↔ follow node root q = some (leafIdx k) := by
  have hlt := h.alloc_lt root h.rootAlloc
  obtain ⟨ls, h1, h2⟩ := h.leavesBelow_spec walkFuel root [] h.rootAlloc (by decide) (by simp only [walkFuel]; omega)
  exact ⟨ls, h1, fun k q => by rw [h2]; simp⟩

end Paths

/-! ## Code words by symbol -/

theorem wordOf_mem (ws : List (Sym × BitSeq)) (k : Sym) (p : BitSeq) (h : wordOf ws k = some p) : (k, p) ∈ ws := by
  induction ws with
  | nil => simp [wordOf] at h
  | cons e ws ih =>
    obtain ⟨k', p'⟩ := e
    unfold wordOf at h ih
    rw [List.lookup_cons] at h
    by_cases hk : k = k'
    · subst hk
      simp at h
      simp [h]
    · have hne : (k == k') = false := by simpa using hk
      rw [hne] at h
      exact List.mem_cons_of_mem _ (ih h)

theorem wordOf_of_mem (ws : List (Sym × BitSeq)) (k : Sym) (p : BitSeq) (h : (k, p) ∈ ws) :
    ∃ q, wordOf ws k = some q := by
  induction ws with
  | nil => simp at h
  | cons e ws ih =>
    obtain ⟨k', p'⟩ := e
    unfold wordOf at ih ⊢
    rw [List.lookup_cons]
    by_cases hk : k = k'
    · subst hk
      exact ⟨p', by simp⟩
    · have hne : (k == k') = false := by simpa using hk
      rw [hne]
      rcases List.mem_cons.mp h with h' | h'
      · exact absurd (Prod.mk.inj h').1 hk
      · exact ih h'

/-- The generator finds the code word of every key (rules R111, R112). -/
theorem codeWords_spec (s : State) (h : s.treeOk) :
    ∃ ws, s.codeWords = .ok ws ∧
      ∀ k, s.readFreq k ≠ 0 → ∃ p, wordOf ws k = some p ∧ isCodeWord s.node s.root k p := by
  unfold State.codeWords
  cases hl : isLeafIdx s.root with
  | true =>
    refine ⟨_, rfl, fun k hk => ?_⟩
    have hm : (k, [false]) ∈ (keysOf s.freq).map (fun k => (k, [false])) :=
      List.mem_map.mpr ⟨k, (mem_keysOf _ _).mpr hk, rfl⟩
    obtain ⟨q, hq⟩ := wordOf_of_mem _ _ _ hm
    obtain ⟨k', _, hk'⟩ := List.mem_map.mp (wordOf_mem _ _ _ hq)
    have : q = [false] := ((Prod.mk.inj hk').2).symm
    exact ⟨q, hq, by rw [isCodeWord, if_pos hl, this]⟩
  | false =>
    obtain ⟨ls, hls, hmem⟩ := TreeOk.leavesBelow_root h
    refine ⟨ls, by simpa using hls, fun k hk => ?_⟩
    obtain ⟨p, hp⟩ := (TreeOk.reachable h k).mp hk
    obtain ⟨q, hq⟩ := wordOf_of_mem ls k p ((hmem k p).mpr hp)
    refine ⟨q, hq, ?_⟩
    rw [isCodeWord, if_neg (by simp [hl])]
    exact (hmem k q).mp (wordOf_mem ls k q hq)

/-! ## The table -/

theorem codeOf_fold (ws : List (Sym × BitSeq)) (ks : List Sym) (t : Table Code) (k : Sym) :
    codeOf (ks.foldl (fun t k => Table.write codeDefault t k.toNat (codeEntry ((wordOf ws k).getD []))) t) k =
      if k ∈ ks then codeEntry ((wordOf ws k).getD []) else codeOf t k := by
  induction ks generalizing t with
  | nil => simp
  | cons j ks ih =>
    rw [List.foldl_cons, ih, codeOf_write]
    by_cases hk : k ∈ ks
    · simp [hk]
    · by_cases hj : k = j
      · simp [hj]
      · simp [hk, hj]

theorem codeOf_tableOfWords (ks : List Sym) (ws : List (Sym × BitSeq)) (k : Sym) :
    codeOf (tableOfWords ks ws) k = if k ∈ ks then codeEntry ((wordOf ws k).getD []) else codeDefault := by
  rw [tableOfWords, codeOf_fold]
  rfl

theorem wf_tableOfWords (ks : List Sym) (ws : List (Sym × BitSeq)) :
    Table.wf 256 codeDefault (tableOfWords ks ws) = true := by
  have h : ∀ (ks : List Sym) (t : Table Code), Table.wf 256 codeDefault t = true →
      Table.wf 256 codeDefault
        (ks.foldl (fun t k => Table.write codeDefault t k.toNat (codeEntry ((wordOf ws k).getD []))) t) = true := by
    intro ks
    induction ks with
    | nil => exact fun t ht => ht
    | cons k ks ih => exact fun t ht => ih _ (Table.wf_write _ _ _ _ _ k.isLt ht)
  exact h ks [] rfl

/-! ## The first symbol whose code word is too long -/

theorem find_sorted (p : Sym → Bool) (l : List Sym) (hs : l.Pairwise (fun a b => a.toNat < b.toNat)) (k : Sym)
    (h : l.find? p = some k) : k ∈ l ∧ p k = true ∧ ∀ j ∈ l, p j = true → k.toNat ≤ j.toNat := by
  induction l with
  | nil => simp at h
  | cons a l ih =>
    obtain ⟨ha, hs⟩ := List.pairwise_cons.mp hs
    rw [List.find?_cons] at h
    cases hp : p a with
    | true =>
      rw [hp] at h
      simp only [Option.some.injEq] at h
      subst h
      refine ⟨by simp, hp, fun j hj _ => ?_⟩
      rcases List.mem_cons.mp hj with rfl | hj
      · exact Nat.le_refl _
      · exact Nat.le_of_lt (ha j hj)
    | false =>
      rw [hp] at h
      obtain ⟨h1, h2, h3⟩ := ih hs h
      refine ⟨List.mem_cons_of_mem _ h1, h2, fun j hj hpj => ?_⟩
      rcases List.mem_cons.mp hj with rfl | hj
      · simp [hp] at hpj
      · exact h3 j hj hpj

/-! ## Code words as prefixes -/

/-- A code word is not a prefix of another one's (rule R117(b)): where one path to a leaf begins another, the leaves
are the same. -/
theorem follow_prefix (node : Table Node) (root : NodeIdx) (p q : BitSeq) (j k : Sym)
    (hp : follow node root p = some (leafIdx j)) (hq : follow node root q = some (leafIdx k)) (h : p <+: q) : j = k := by
  obtain ⟨r, rfl⟩ := h
  rw [follow_append _ _ _ _ _ hp] at hq
  exact (leafIdx_inj _ _).mp (follow_leaf _ _ _ _ (by simp) hq).2

/-- Every bit sequence that is long enough begins with the path of some key (rule R117(c)). -/
theorem TreeOk.prefix_exists {freq : Table Count} {node : Table Node} {root : NodeIdx} {nsym : BitVec 9}
    {nint : BitVec 8} (h : TreeOk freq node root nsym nint) (n : Nat) (i : NodeIdx)
    (hi : allocIn freq nint i = true) (hn : i.toNat ≤ n + 255) (bs : BitSeq) (hb : n ≤ bs.length) :
    ∃ k p, p <+: bs ∧ follow node i p = some (leafIdx k) ∧ freqOf freq k ≠ 0 := by
  induction n generalizing i bs with
  | zero =>
    have hl : isLeafIdx i = true := (isLeafIdx_iff i).mpr (by omega)
    refine ⟨leafSym i, [], by simp, by rw [leafIdx_leafSym i hl]; rfl, ?_⟩
    rwa [← alloc_leafIdx freq nint, leafIdx_leafSym i hl]
  | succ n ih =>
    cases hl : isLeafIdx i with
    | true =>
      refine ⟨leafSym i, [], by simp, by rw [leafIdx_leafSym i hl]; rfl, ?_⟩
      rwa [← alloc_leafIdx freq nint, leafIdx_leafSym i hl]
    | false =>
      cases bs with
      | nil => simp at hb
      | cons b bs =>
        obtain ⟨hcl, hcr, _, hll, hlr⟩ := h.children i ⟨hi, hl⟩
        have hlt := h.alloc_lt i hi
        have hbs : n ≤ bs.length := by simpa using hb
        cases b with
        | false =>
          obtain ⟨k, p, hp, hf, hk⟩ := ih _ hcl (by omega) bs hbs
          exact ⟨k, false :: p, by simpa using hp, by rw [follow_cons node i _ p hl hlt]; exact hf, hk⟩
        | true =>
          obtain ⟨k, p, hp, hf, hk⟩ := ih _ hcr (by omega) bs hbs
          exact ⟨k, true :: p, by simpa using hp, by rw [follow_cons node i _ p hl hlt]; exact hf, hk⟩

/-- The code word of a key, read from its entry (rules R24, R114). -/
theorem CodeOk.word {s : State} (h : CodeOk s) (hc : s.cfg.legal = true) (k : Sym) (hk : s.readFreq k ≠ 0) :
    ∃ p, isCodeWord s.node s.root k p ∧ 1 ≤ p.length ∧ p.length ≤ s.cfg.maxLen ∧ (s.readCode k).word = p ∧
      (s.readCode k).len.toNat = p.length := by
  obtain ⟨p, h1, h2, h3, h4⟩ := h.present k hk
  have hlen : p.length ≤ 63 := by
    simp only [Config.legal, Bool.and_eq_true, decide_eq_true_eq] at hc
    omega
  exact ⟨p, h1, h2, h3, by rw [h4, word_codeEntry p hlen], by rw [h4, codeEntry_len p hlen]⟩

/-- Every sequence of keys has a sequence of code words (rules R111, R112). -/
theorem codeWords_exist (s : State) (h : s.treeOk) (data : List Sym) (hk : ∀ b ∈ data, s.readFreq b ≠ 0) :
    ∃ words, List.Forall₂ (fun b p => s.readFreq b ≠ 0 ∧ isCodeWord s.node s.root b p) data words := by
  induction data with
  | nil => exact ⟨[], .nil⟩
  | cons b data ih =>
    obtain ⟨words, hw⟩ := ih (fun c hc => hk c (List.mem_cons_of_mem _ hc))
    have hb := hk b (List.mem_cons_self ..)
    obtain ⟨p, hp⟩ := TreeOk.codeWord_exists h b hb
    exact ⟨p :: words, .cons ⟨hb, hp⟩ hw⟩

/-- What `CGEN` does in phase `TREE` on a tree that meets rule R23: the fault of the smallest symbol whose code
word is longer than `MAXLEN`, or the code table of all keys (rules R113, R114). -/
theorem cgen_spec (s : State) (hphase : s.phase = .tree) (h : s.treeOk) :
    (∃ k p, s.readFreq k ≠ 0 ∧ isCodeWord s.node s.root k p ∧ s.cfg.maxLen < p.length ∧
      (∀ j q, s.readFreq j ≠ 0 → isCodeWord s.node s.root j q → s.cfg.maxLen < q.length → k.toNat ≤ j.toNat) ∧
      execCgen s = .next (s.raise .maxCodeLengthExceeded (k.setWidth 16))) ∨
    ((∀ k p, s.readFreq k ≠ 0 → isCodeWord s.node s.root k p → p.length ≤ s.cfg.maxLen) ∧
      ∃ c, execCgen s = .next ((s.setCode c).setPhase .codes) ∧ Table.wf 256 codeDefault c = true ∧
        CodeOk ((s.setCode c).setPhase .codes)) := by
  obtain ⟨ws, hws, hword⟩ := codeWords_spec s h
  have hall : (keysOf s.freq).all (fun k => (wordOf ws k).isSome) = true := by
    rw [List.all_eq_true]
    intro k hk
    obtain ⟨p, hp, _⟩ := hword k ((mem_keysOf _ _).mp hk)
    simp [hp]
  have hrun : execCgen s =
      match (keysOf s.freq).find? (tooLong s.cfg.maxLen ws) with
      | some k => .next (s.raise .maxCodeLengthExceeded (k.setWidth 16))
      | none => .next ((s.setCode (tableOfWords (keysOf s.freq) ws)).setPhase .codes) := by
    simp only [execCgen, frontEnd, hphase, hws, hall]
    cases (keysOf s.freq).find? (tooLong s.cfg.maxLen ws) <;> simp [legal]
  have hlong : ∀ k p, s.readFreq k ≠ 0 → isCodeWord s.node s.root k p →
      (tooLong s.cfg.maxLen ws k = true ↔ s.cfg.maxLen < p.length) := by
    intro k p hk hp
    obtain ⟨q, hq, hqc⟩ := hword k hk
    have : q = p := TreeOk.codeWord_unique h k q p hqc hp
    simp [tooLong, hq, this]
  cases hfind : (keysOf s.freq).find? (tooLong s.cfg.maxLen ws) with
  | some k =>
    left
    obtain ⟨hk, hkl, hmin⟩ := find_sorted _ _ (keysOf_sorted s.freq) k hfind
    have hk' : s.readFreq k ≠ 0 := (mem_keysOf _ _).mp hk
    obtain ⟨p, _, hpc⟩ := hword k hk'
    refine ⟨k, p, hk', hpc, (hlong k p hk' hpc).mp hkl, ?_, by rw [hrun, hfind]⟩
    intro j q hj hq hlt
    exact hmin j ((mem_keysOf _ _).mpr hj) ((hlong j q hj hq).mpr hlt)
  | none =>
    right
    have hshort : ∀ k p, s.readFreq k ≠ 0 → isCodeWord s.node s.root k p → p.length ≤ s.cfg.maxLen := by
      intro k p hk hp
      have hnot := List.find?_eq_none.mp hfind k ((mem_keysOf _ _).mpr hk)
      rw [hlong k p hk hp] at hnot
      omega
    refine ⟨hshort, tableOfWords (keysOf s.freq) ws, by rw [hrun, hfind], wf_tableOfWords _ _, ?_⟩
    constructor
    · intro k hk
      have hk' : ¬ k ∈ keysOf s.freq := by
        rw [mem_keysOf]
        exact not_not.mpr hk
      simp only [State.readCode, State.setPhase_code, State.setCode_code]
      rw [codeOf_tableOfWords, if_neg hk']
    · intro k hk
      have hk' : s.readFreq k ≠ 0 := hk
      obtain ⟨p, hp, hpc⟩ := hword k hk'
      refine ⟨p, hpc, codeWord_ne_nil k p hpc, hshort k p hk' hpc, ?_⟩
      simp only [State.readCode, State.setPhase_code, State.setCode_code]
      rw [codeOf_tableOfWords, if_pos ((mem_keysOf _ _).mpr hk'), hp]
      rfl

end Sys2Proof.Machine
end

