-- ==== Sys2Proof/Laws/FrontEnd.lean ====
section
/-! SUPPORT. The front end every command passes (rules R68, R69, R173), and the shape of `exec` that follows: one
equation per command for the phases it is legal in. -/

namespace Sys2Proof.Machine

theorem frontEnd_ignored (i : Instr) (s : State) (run : Host.Outcome State Fault Refusal)
    (h : s.phase = .fault) : frontEnd i s run = .next s := by
  rw [frontEnd, if_pos h]

theorem frontEnd_run (i : Instr) (s : State) (run : Host.Outcome State Fault Refusal) (h : s.phase ≠ .fault)
    (hl : legal i s.phase = true) : frontEnd i s run = run := by
  rw [frontEnd, if_neg h, if_pos hl]

theorem frontEnd_badSequence (i : Instr) (s : State) (run : Host.Outcome State Fault Refusal)
    (h : s.phase ≠ .fault) (hl : legal i s.phase = false) :
    frontEnd i s run = .next (s.raise .badSequence (badSequenceInfo s.phase.code i.opcode)) := by
  rw [frontEnd, if_neg h, if_neg (by simp [hl])]

/-- The three things that can happen to a legal word that is not `SRST`. -/
theorem frontEnd_cases (i : Instr) (s : State) (run : Host.Outcome State Fault Refusal) :
    (s.phase = .fault ∧ frontEnd i s run = .next s) ∨
    (s.phase ≠ .fault ∧ legal i s.phase = true ∧ frontEnd i s run = run) ∨
    (s.phase ≠ .fault ∧ legal i s.phase = false ∧
      frontEnd i s run = .next (s.raise .badSequence (badSequenceInfo s.phase.code i.opcode))) := by
  by_cases h : s.phase = .fault
  · exact Or.inl ⟨h, frontEnd_ignored i s run h⟩
  · cases hl : legal i s.phase with
    | true => exact Or.inr (Or.inl ⟨h, rfl, frontEnd_run i s run h hl⟩)
    | false => exact Or.inr (Or.inr ⟨h, rfl, frontEnd_badSequence i s run h hl⟩)

/-- A command's phases are never `FAULT` (rule R69). -/
theorem legal_not_fault (i : Instr) (p : Phase) (h : legal i p = true) (hi : i ≠ .srst) : p ≠ .fault := by
  rintro rfl
  cases i <;> simp [legal] at h hi

/-- Every command but `SRST` is what the front end makes of its own rule. -/
theorem exec_frontEnd (i : Instr) (s : State) (hi : i ≠ .srst) : ∃ run, exec i s = frontEnd i s run := by
  cases i with
  | srst => exact absurd rfl hi
  | fclr => exact ⟨_, rfl⟩
  | fset sym count => exact ⟨_, rfl⟩
  | fget sym => exact ⟨_, rfl⟩
  | tbuild => exact ⟨_, rfl⟩
  | tget idx => exact ⟨_, rfl⟩
  | cgen => exact ⟨_, rfl⟩
  | cget sym => exact ⟨_, rfl⟩
  | cstart => exact ⟨_, rfl⟩
  | cput byte => exact ⟨_, rfl⟩
  | cend => exact ⟨_, rfl⟩
  | dstart tbc => exact ⟨_, rfl⟩
  | dbyte byte last => exact ⟨_, rfl⟩

end Sys2Proof.Machine
end

