-- ==== Sys2Proof/Laws/Walk.lean ====
section
/-! SUPPORT. What the decompressor's walk does (rules R137 to R142, R145): it changes `OUT` and `DCUR` only, it never
meets a node that does not exist, and it emits a symbol exactly at the end of each code word. -/

namespace Sys2Proof.Machine

/-! ## One step -/

/-- A step under a one-leaf tree (rule R141). -/
theorem walkStep_leafRoot (bit : Bool) (s : State) (hl : isLeafIdx s.root = true) :
    walkStep bit s = if bit then .raised (s.raise .invalidCodeBit 0) else .going (s.emit [leafSym s.root]) := by
  rw [walkStep, if_pos hl]

/-- A step from an internal node of the arena (rule R140). -/
theorem walkStep_internal (bit : Bool) (s : State) (hr : isLeafIdx s.root = false) (hd : s.dcur.toNat < 511) :
    walkStep bit s =
      if isLeafIdx (if bit then (s.readNode s.dcur).right else (s.readNode s.dcur).left) then
        .going ((s.emit [leafSym (if bit then (s.readNode s.dcur).right else (s.readNode s.dcur).left)]).setDcur
          s.root)
      else .going (s.setDcur (if bit then (s.readNode s.dcur).right else (s.readNode s.dcur).left)) := by
  rw [walkStep, if_neg (by simp [hr]), nodeOf?_of_lt _ _ hd]
  rfl

/-- Where a step leads on a tree that meets rule R23. -/
theorem walkStep_spec (bit : Bool) (s : State) (h : s.treeOk) (hc : s.cursorOk) :
    (∃ bs d, walkStep bit s = .going ((s.emit bs).setDcur d) ∧ (d = s.root ∨ internalIn s.freq s.nint d)) ∨
    (isLeafIdx s.root = true ∧ walkStep bit s = .raised (s.raise .invalidCodeBit 0)) := by
  cases hr : isLeafIdx s.root with
  | true =>
    have hd : s.dcur = s.root := hc.resolve_right (TreeOk.leafRoot_no_internal h hr s.dcur)
    rw [walkStep_leafRoot bit s hr]
    cases bit
    · exact Or.inl ⟨[leafSym s.root], s.root, by rw [← hd]; rfl, Or.inl rfl⟩
    · exact Or.inr ⟨rfl, rfl⟩
  | false =>
    left
    have hint : internalIn s.freq s.nint s.dcur := by
      rcases hc with hc | hc
      · exact hc ▸ ⟨TreeOk.rootAlloc h, hr⟩
      · exact hc
    obtain ⟨hcl, hcr, _, _, _⟩ := TreeOk.children h s.dcur hint
    rw [walkStep_internal bit s hr (TreeOk.alloc_lt h _ hint.1)]
    generalize hch : (if bit then (s.readNode s.dcur).right else (s.readNode s.dcur).left) = child
    have hca : allocIn s.freq s.nint child = true := by
      rw [← hch]
      cases bit
      · exact hcl
      · exact hcr
    cases hl : isLeafIdx child with
    | true => exact ⟨[leafSym child], s.root, by simp, Or.inl rfl⟩
    | false => exact ⟨[], child, by simp [State.emit, State.setDcur], Or.inr ⟨hca, hl⟩⟩

/-! ## A walk over several bits -/

theorem walk_append (as bs : BitSeq) (s s' : State) (h : walk as s = .going s') :
    walk (as ++ bs) s = walk bs s' := by
  induction as generalizing s with
  | nil =>
    simp only [walk, Progress.going.injEq] at h
    rw [h]
    rfl
  | cons a as ih =>
    rw [List.cons_append, walk]
    rw [walk] at h
    cases hs : walkStep a s with
    | going t =>
      rw [hs] at h
      exact ih t h
    | raised t => simp [hs] at h
    | stuck f => simp [hs] at h

/-- A walk that raised a fault does not go on (rule R170). -/
theorem walk_raised_append (as bs : BitSeq) (s t u : State) (h : walk as s = .raised u) :
    walk (as ++ bs) s ≠ .going t := by
  induction as generalizing s with
  | nil => simp [walk] at h
  | cons a as ih =>
    rw [List.cons_append, walk]
    rw [walk] at h
    cases hs : walkStep a s with
    | going v =>
      rw [hs] at h
      exact ih v h
    | raised v => simp
    | stuck f => simp

/-- Where a walk leads on a tree that meets rule R23: it goes on with `OUT` grown and `DCUR` at the root or at an
allocated internal node, or, under a one-leaf tree only, it raises `InvalidCodeBit` after the symbols of the earlier
bits (rules R28, R140, R141, R171). It never stops the model. -/
theorem walk_spec (bits : BitSeq) (s : State) (h : s.treeOk) (hc : s.cursorOk) :
    (∃ bs d, walk bits s = .going ((s.emit bs).setDcur d) ∧ (d = s.root ∨ internalIn s.freq s.nint d)) ∨
    (isLeafIdx s.root = true ∧ ∃ bs, walk bits s = .raised ((s.emit bs).raise .invalidCodeBit 0)) := by
  induction bits generalizing s with
  | nil => exact Or.inl ⟨[], s.dcur, by simp [walk, State.emit, State.setDcur], hc⟩
  | cons b bits ih =>
    rw [walk]
    rcases walkStep_spec b s h hc with ⟨bs, d, hs, hd⟩ | ⟨hl, hs⟩
    · rw [hs]
      have hemit : ∀ cs e, (((s.emit bs).setDcur d).emit cs).setDcur e = (s.emit (bs ++ cs)).setDcur e := by
        intro cs e
        simp [State.emit, State.setDcur]
      rcases ih ((s.emit bs).setDcur d) h hd with ⟨cs, e, hw, he⟩ | ⟨hl, cs, hw⟩
      · exact Or.inl ⟨bs ++ cs, e, by rw [← hemit]; exact hw, he⟩
      · have hd' : d = s.dcur := by
          have h1 : d = s.root := hd.resolve_right (TreeOk.leafRoot_no_internal h hl d)
          have h2 : s.dcur = s.root := hc.resolve_right (TreeOk.leafRoot_no_internal h hl s.dcur)
          rw [h1, h2]
        refine Or.inr ⟨hl, bs ++ cs, ?_⟩
        rw [hd'] at hw
        simp only [hd', hw]
        simp [State.emit, State.setDcur, State.raise]
    · exact Or.inr ⟨hl, [], by rw [hs]; simp [State.emit]⟩

/-- What any walk can do, whatever the state: it grows `OUT` by at most one symbol a bit and moves `DCUR`; under a one-leaf
tree it may end in `InvalidCodeBit`, and in nothing else of the hardware's (rules R138, R140, R141). -/
theorem walk_frame (bits : BitSeq) (s : State) :
    (∃ bs d, bs.length ≤ bits.length ∧ walk bits s = .going ((s.emit bs).setDcur d)) ∨
    (∃ bs d, bs.length ≤ bits.length ∧ isLeafIdx s.root = true ∧
      walk bits s = .raised (((s.emit bs).setDcur d).raise .invalidCodeBit 0)) ∨
    ∃ f, walk bits s = .stuck f := by
  induction bits generalizing s with
  | nil => exact Or.inl ⟨[], s.dcur, by simp, by simp [walk, State.emit, State.setDcur]⟩
  | cons b bits ih =>
    have hstep : (∃ bs d, bs.length ≤ 1 ∧ walkStep b s = .going ((s.emit bs).setDcur d)) ∨
        (isLeafIdx s.root = true ∧ walkStep b s = .raised (s.raise .invalidCodeBit 0)) ∨
        ∃ f, walkStep b s = .stuck f := by
      unfold walkStep
      split
      · rename_i hl
        cases b
        · exact Or.inl ⟨[leafSym s.root], s.dcur, by simp, rfl⟩
        · exact Or.inr (Or.inl ⟨hl, rfl⟩)
      · cases nodeOf? s.node s.dcur with
        | none => exact Or.inr (Or.inr ⟨_, rfl⟩)
        | some n =>
          left
          dsimp only
          generalize (if b = true then n.right else n.left) = child
          split
          · exact ⟨[leafSym child], s.root, by simp, rfl⟩
          · exact ⟨[], child, by simp, by simp [State.emit, State.setDcur]⟩
    rw [walk]
    rcases hstep with ⟨bs, d, hlen, hs⟩ | ⟨hl, hs⟩ | ⟨f, hs⟩
    · have hemit : ∀ cs e, (((s.emit bs).setDcur d).emit cs).setDcur e = (s.emit (bs ++ cs)).setDcur e := by
        intro cs e
        simp [State.emit, State.setDcur]
      rw [hs]
      rcases ih ((s.emit bs).setDcur d) with ⟨cs, e, hl, hw⟩ | ⟨cs, e, hl, hr, hw⟩ | ⟨f, hw⟩
      · exact Or.inl ⟨bs ++ cs, e, by simp; omega, by simp only [hw, hemit]⟩
      · exact Or.inr (Or.inl ⟨bs ++ cs, e, by simp; omega, hr, by simp only [hw, hemit]⟩)
      · exact Or.inr (Or.inr ⟨f, hw⟩)
    · exact Or.inr (Or.inl ⟨[], s.dcur, by simp, hl, by rw [hs]; simp [State.emit, State.setDcur]⟩)
    · exact Or.inr (Or.inr ⟨f, by rw [hs]⟩)

/-- Walking the rest of a path from an internal node ends at its leaf: the symbol is emitted and the walk is back at
the root (rules R140, R145). -/
theorem walk_path (p : BitSeq) (k : Sym) (s : State) (h : s.treeOk) (hr : isLeafIdx s.root = false)
    (hi : internalIn s.freq s.nint s.dcur) (hp : follow s.node s.dcur p = some (leafIdx k)) :
    walk p s = .going ((s.emit [k]).setDcur s.root) := by
  induction p generalizing s with
  | nil =>
    have : s.dcur = leafIdx k := Option.some.inj hp
    have hl := hi.2
    rw [this] at hl
    simp at hl
  | cons b p ih =>
    have hlt := TreeOk.alloc_lt h _ hi.1
    rw [follow_cons s.node s.dcur b p hi.2 hlt] at hp
    obtain ⟨hcl, hcr, _, _, _⟩ := TreeOk.children h s.dcur hi
    rw [walk, walkStep_internal b s hr hlt]
    change (match (if isLeafIdx (if b then (nodeOf s.node s.dcur).right else (nodeOf s.node s.dcur).left) then _
      else _) with | Progress.going s' => _ | Progress.raised s' => _ | Progress.stuck f => _) = _
    have hca : allocIn s.freq s.nint
        (if b then (nodeOf s.node s.dcur).right else (nodeOf s.node s.dcur).left) = true := by
      cases b
      · exact hcl
      · exact hcr
    simp only [State.readNode]
    revert hp hca
    generalize (if b then (nodeOf s.node s.dcur).right else (nodeOf s.node s.dcur).left) = child
    intro hp hca
    cases hl : isLeafIdx child with
    | true =>
      obtain ⟨rfl, rfl⟩ := follow_leaf s.node child _ p hl hp
      simp [walk]
    | false =>
      simp only [Bool.false_eq_true, if_false]
      have := ih (s.setDcur child) h hr ⟨hca, hl⟩ hp
      rw [this]
      rfl

/-- Walking one code word from the root emits its symbol and comes back to the root, for either kind of tree
(rules R140, R141, R145). -/
theorem walk_codeWord (p : BitSeq) (k : Sym) (s : State) (h : s.treeOk) (hd : s.dcur = s.root)
    (hk : s.readFreq k ≠ 0) (hp : isCodeWord s.node s.root k p) :
    walk p s = .going (s.emit [k]) := by
  unfold isCodeWord at hp
  cases hr : isLeafIdx s.root with
  | true =>
    rw [if_pos hr] at hp
    subst hp
    rw [TreeOk.leafRoot_key h hr k hk, walk, walkStep_leafRoot false s hr]
    rfl
  | false =>
    rw [if_neg (by simp [hr])] at hp
    have := walk_path p k s h hr ⟨hd ▸ TreeOk.rootAlloc h, hd ▸ hr⟩ (hd ▸ hp)
    rw [this]
    simp [State.emit, State.setDcur, hd]

/-- Walking the code words of a sequence of keys emits the sequence (rules R145, R146). -/
theorem walk_codeWords (data : List Sym) (words : List BitSeq) (s : State) (h : s.treeOk) (hd : s.dcur = s.root)
    (hw : List.Forall₂ (fun k p => s.readFreq k ≠ 0 ∧ isCodeWord s.node s.root k p) data words) :
    walk words.flatten s = .going (s.emit data) := by
  induction data generalizing words s with
  | nil =>
    cases hw
    simp [walk, State.emit]
  | cons k data ih =>
    cases hw with
    | cons hkp hrest =>
      rename_i p words
      rw [List.flatten_cons, walk_append p _ s _ (walk_codeWord p k s h hd hkp.1 hkp.2)]
      rw [ih words (s.emit [k]) h hd hrest]
      simp [State.emit]

/-- Any walk under an internal root, from a node the path `q` leads to: the bits `q` and the bits walked are the code
words of the symbols emitted, followed by the path to where the walk stands (rules R29, R145). -/
theorem walk_path_words (bits : BitSeq) (s : State) (q : BitSeq) (h : s.treeOk) (hr : isLeafIdx s.root = false)
    (hq : follow s.node s.root q = some s.dcur) (hi : isLeafIdx s.dcur = false) :
    ∃ syms words q' d, walk bits s = .going ((s.emit syms).setDcur d) ∧
      List.Forall₂ (fun k p => s.readFreq k ≠ 0 ∧ isCodeWord s.node s.root k p) syms words ∧
      q ++ bits = words.flatten ++ q' ∧ follow s.node s.root q' = some d ∧ isLeafIdx d = false := by
  induction bits generalizing s q with
  | nil => exact ⟨[], [], q, s.dcur, by simp [walk, State.emit, State.setDcur], .nil, by simp, hq, hi⟩
  | cons b bits ih =>
    have hlt := TreeOk.alloc_lt h _ (TreeOk.root_follow_alloc h q _ hq)
    have hq1 := follow_append s.node s.root _ q [b] hq
    rw [follow_one _ _ b hi hlt] at hq1
    rw [walk, walkStep_internal b s hr hlt]
    have hread : (if b = true then (s.readNode s.dcur).right else (s.readNode s.dcur).left) =
        (if b = true then (nodeOf s.node s.dcur).right else (nodeOf s.node s.dcur).left) := rfl
    rw [hread]
    revert hq1
    generalize (if b = true then (nodeOf s.node s.dcur).right else (nodeOf s.node s.dcur).left) = c
    intro hq1
    cases hl : isLeafIdx c with
    | true =>
      have hck : leafIdx (leafSym c) = c := leafIdx_leafSym c hl
      obtain ⟨syms, words, q', d, h1, h2, h3, h4, h5⟩ := ih ((s.emit [leafSym c]).setDcur s.root) [] h hr rfl hr
      refine ⟨leafSym c :: syms, (q ++ [b]) :: words, q', d, ?_, .cons ⟨?_, ?_⟩ h2, ?_, h4, h5⟩
      · simp only [if_true]
        rw [h1]
        simp [State.emit, State.setDcur]
      · have halloc := TreeOk.root_follow_alloc h _ _ hq1
        rw [← hck] at halloc
        exact (alloc_leafIdx s.freq s.nint (leafSym c)).mp halloc
      · rw [isCodeWord, if_neg (by simp [hr]), hck]
        exact hq1
      · simp only [List.nil_append] at h3
        rw [List.flatten_cons, List.append_assoc (q ++ [b]), ← h3]
        simp
    | false =>
      obtain ⟨syms, words, q', d, h1, h2, h3, h4, h5⟩ := ih (s.setDcur c) (q ++ [b]) h hr hq1 hl
      refine ⟨syms, words, q', d, ?_, h2, ?_, h4, h5⟩
      · simp only [Bool.false_eq_true, if_false]
        rw [h1]
        rfl
      · rw [← h3]
        simp

/-- Zeros under a one-leaf tree (rule R141). -/
theorem walk_zeros (n : Nat) (s : State) (hl : isLeafIdx s.root = true) :
    walk (zeros n) s = .going (s.emit (List.replicate n (leafSym s.root))) := by
  induction n generalizing s with
  | zero => simp [zeros, walk, State.emit]
  | succ n ih =>
    have hz : zeros (n + 1) = false :: zeros n := rfl
    rw [hz, walk, walkStep_leafRoot _ _ hl]
    simp only [Bool.false_eq_true, if_false]
    rw [ih (s.emit [leafSym s.root]) hl]
    simp [State.emit, List.replicate_succ]

end Sys2Proof.Machine
end

