-- ==== Sys2Proof/Laws/Stream.lean ====
section
/-! SUPPORT. The two streams (rules R120 to R127, R137 to R146): what `flush` emits and keeps, the defensive check
passes on every tree of rule R23, and a payload decodes as the walk over its valid bits. -/

namespace Sys2Proof.Machine

/-! ## Flush -/

theorem flushGroups_spec (n : Nat) (b : BitSeq) (h : 8 * n ≤ b.length) :
    ((flushGroups n b).1.flatMap unpack8) ++ (flushGroups n b).2 = b ∧
      (flushGroups n b).1.length = n ∧ (flushGroups n b).2.length = b.length - 8 * n := by
  induction n generalizing b with
  | zero => simp [flushGroups]
  | succ n ih =>
    obtain ⟨h1, h2, h3⟩ := ih (b.drop 8) (by rw [List.length_drop]; omega)
    rw [List.length_drop] at h3
    refine ⟨?_, ?_, ?_⟩
    · simp only [flushGroups, List.flatMap_cons]
      rw [unpack8_pack8 (b.take 8) (by rw [List.length_take]; omega), List.append_assoc, h1, List.take_append_drop]
    · simp only [flushGroups, List.length_cons, h2]
    · simp only [flushGroups, h3]
      omega

/-- `flush` emits the whole groups of 8 bits in order and keeps the rest (rule R123). -/
theorem flush_spec (b : BitSeq) :
    ((flush b).1.flatMap unpack8) ++ (flush b).2 = b ∧ (flush b).1.length = b.length / 8 ∧
      (flush b).2.length = b.length % 8 := by
  obtain ⟨h1, h2, h3⟩ := flushGroups_spec (b.length / 8) b (Nat.mul_div_le _ _)
  exact ⟨h1, h2, by have := Nat.div_add_mod b.length 8; unfold flush; omega⟩

/-! ## The defensive check -/

/-- `CorruptTree` cannot be raised: the check passes on every tree that meets rule R23 (rule R137). -/
theorem leafSetMatches_of_treeOk (s : State) (h : s.treeOk) : s.leafSetMatches = true := by
  obtain ⟨ls, hls, hmem⟩ := TreeOk.leavesBelow_root h
  unfold State.leafSetMatches
  rw [hls]
  simp only [List.all_eq_true]
  intro k _
  rw [beq_iff_eq, Bool.eq_iff_iff]
  simp only [List.any_eq_true, beq_iff_eq, bne_iff_ne]
  rw [show (s.readFreq k ≠ 0) = (freqOf s.freq k ≠ 0) from rfl, TreeOk.reachable h k]
  constructor
  · rintro ⟨⟨k', p⟩, hm, hk⟩
    simp only at hk
    subst hk
    exact ⟨p, (hmem _ _).mp hm⟩
  · rintro ⟨p, hp⟩
    exact ⟨(k, p), (hmem k p).mpr hp, rfl⟩

/-! ## The final byte -/

/-- The byte `CEND` emits holds the pending bits on top of zeros (rule R124). -/
theorem unpack8_cend (p : BitSeq) (h : p.length ≤ 7) :
    unpack8 ((pendingImage p).setWidth 8 <<< 1) = p ++ zeros (8 - p.length) := by
  have hlen : (p ++ zeros (7 - p.length)).length = 7 := by simp [zeros]; omega
  have hlt := valOf_lt (p ++ zeros (7 - p.length))
  rw [hlen] at hlt
  have hbyte : (pendingImage p).setWidth 8 <<< 1 = pack8 ((p ++ zeros (7 - p.length)) ++ [false]) := by
    apply BitVec.eq_of_toNat_eq
    unfold pack8 pendingImage
    rw [valOf_append (p ++ zeros (7 - p.length)) [false], BitVec.toNat_shiftLeft, BitVec.toNat_setWidth, BitVec.toNat_ofNat, BitVec.toNat_ofNat,
      Nat.mod_eq_of_lt hlt, Nat.shiftLeft_eq]
    simp only [valOf, List.length_cons, List.length_nil, Bool.toNat_false]
    omega
  rw [hbyte, unpack8_pack8 _ (by rw [List.length_append, hlen]; rfl), List.append_assoc]
  congr 1
  have : 8 - p.length = (7 - p.length) + 1 := by omega
  rw [this, zeros, zeros, List.replicate_succ']

/-! ## A whole payload -/

/-- The valid bits of a payload, its last byte flagged `LAST` (rule R139). -/
def payloadBits (tbc : BitVec 3) : List Byte → BitSeq
  | [] => []
  | [b] => (unpack8 b).take (validBits true tbc)
  | b :: c :: bs => unpack8 b ++ payloadBits tbc (c :: bs)

theorem validBits_partial (tbc : BitVec 3) (h : tbc ≠ 0) : validBits true tbc = tbc.toNat := by
  rw [validBits, if_pos (by simpa using h)]

theorem payloadBits_whole (bs : List Byte) : payloadBits 0 bs = bs.flatMap unpack8 := by
  induction bs with
  | nil => rfl
  | cons b bs ih =>
    cases bs with
    | nil => simp [payloadBits, validBits, List.take_of_length_le]
    | cons c bs => rw [payloadBits, ih]; rfl

theorem payloadBits_partial (tbc : BitVec 3) (h : tbc ≠ 0) (bs : List Byte) (b : Byte) :
    payloadBits tbc (bs ++ [b]) = bs.flatMap unpack8 ++ (unpack8 b).take tbc.toNat := by
  induction bs with
  | nil => simp only [List.nil_append, payloadBits, validBits_partial tbc h, List.flatMap_nil]
  | cons a bs ih =>
    cases bs with
    | nil =>
      simp only [List.cons_append, List.nil_append, payloadBits, validBits_partial tbc h, List.flatMap_cons,
        List.flatMap_nil, List.append_nil]
    | cons c bs =>
      have h1 : payloadBits tbc (a :: c :: bs ++ [b]) = unpack8 a ++ payloadBits tbc (c :: bs ++ [b]) := rfl
      have h2 : (a :: c :: bs).flatMap unpack8 = unpack8 a ++ (c :: bs).flatMap unpack8 := rfl
      rw [h1, h2, ih, List.append_assoc]

theorem exec_dbyte (byte : Byte) (last : Bool) (s : State) (h : s.phase = .decode) :
    exec (.dbyte byte last) s =
      match walk ((unpack8 byte).take (validBits last s.tbc)) s with
      | .going s' => .next (s'.endOfByte last)
      | .raised s' => .next s'
      | .stuck f => .fault f :=
  frontEnd_run _ _ _ (by simp [h]) (by simp [legal, h])

/-- Decoding a payload is walking its valid bits: where that walk ends at the root, the commands end in `DONE`
(rules R138, R139, R142). -/
theorem decodeCommands_spec (bytes : List Byte) (s : State) (bs : List Byte) (hne : bytes ≠ [])
    (hphase : s.phase = .decode) (htree : s.treeOk) (hcur : s.cursorOk)
    (hw : walk (payloadBits s.tbc bytes) s = .going ((s.emit bs).setDcur s.root)) :
    execAll (decodeCommands bytes) s = .next (((s.emit bs).setDcur s.root).setPhase .done) := by
  induction bytes generalizing s bs with
  | nil => exact absurd rfl hne
  | cons b bytes ih =>
    cases bytes with
    | nil =>
      rw [payloadBits] at hw
      simp only [decodeCommands, execAll, exec_dbyte b true s hphase, hw]
      simp [State.endOfByte]
    | cons c bytes =>
      rw [payloadBits] at hw
      simp only [decodeCommands, execAll, exec_dbyte b false s hphase]
      have htake : (unpack8 b).take (validBits false s.tbc) = unpack8 b := by
        simp [validBits, List.take_of_length_le]
      rw [htake]
      rcases walk_spec (unpack8 b) s htree hcur with ⟨es, d, hs, hd⟩ | ⟨_, es, hs⟩
      · rw [walk_append _ _ _ _ hs] at hw
        simp only [hs, State.endOfByte, Bool.false_eq_true, if_false]
        -- the bytes emitted later
        rcases walk_spec (payloadBits s.tbc (c :: bytes)) ((s.emit es).setDcur d) htree hd with
          ⟨fs, e, hs', _⟩ | ⟨_, fs, hs'⟩
        · have heq : (((s.emit es).setDcur d).emit fs).setDcur e = (s.emit bs).setDcur s.root := by
            have := hs'.symm.trans hw
            exact Progress.going.inj this
          have hout : es ++ fs = bs := by
            have := congrArg State.out heq
            simpa [State.emit, State.setDcur] using this
          have he : e = s.root := by
            have := congrArg State.dcur heq
            simpa using this
          have := ih ((s.emit es).setDcur d) fs (by simp) hphase htree hd (by rw [he] at hs'; exact hs')
          rw [this, ← hout]
          simp [State.emit, State.setDcur]
        · exact absurd (hs'.symm.trans hw) (by simp)
      · exact absurd hw (walk_raised_append _ _ s _ _ hs)

end Sys2Proof.Machine
end

