-- ==== Sys2Proof/Laws/Commands.lean ====
section
/-! SUPPORT. What a command can do, said once: the three ways the front end answers, and each command's own effect
(rules R68, R80 to R156), and what runs of one command do. Provers cite `exec_next` and never unfold a meaning. -/

namespace Sys2Proof.Machine

/-- The effect of a command that runs in a phase it is legal in, from `s` to `t`. -/
def Effect (s t : State) : Instr → Prop
  | .srst => t = s.resetState
  | .fclr => t = s.clearFreq
  | .fset k c => t = s.writeFreq k c
  | .fget k => t = s.readBack ((s.readFreq k).setWidth 64) 0
  | .tbuild =>
    (s.build = none ∧ t = s.raise .emptyFrequencyTable 0) ∨ ∃ u, s.build = some u ∧ t = u.setPhase .tree
  | .tget idx => t = s.readBack (s.nodeReadBack idx) 0
  | .cgen =>
    (∃ k : Sym, t = s.raise .maxCodeLengthExceeded (k.setWidth 16)) ∨
      ∃ c, Table.wf 256 codeDefault c = true ∧ t = (s.setCode c).setPhase .codes
  | .cget k => t = s.readBack ((s.readCode k).bits.setWidth 64) ((s.readCode k).len.setWidth 8)
  | .cstart => t = (s.setPending []).setPhase .comp
  | .cput b =>
    ((s.readCode b).len = 0 ∧ t = s.raise .symbolNotInCodeTable (b.setWidth 16)) ∨
      ((s.readCode b).len ≠ 0 ∧ t = (s.emit (flush (s.cputBuffer b)).1).setPending (flush (s.cputBuffer b)).2)
  | .cend => t = (((s.emit s.cendBytes).setTbc s.pcnt).setPending []).setPhase .done
  | .dstart tbc =>
    (s.build = none ∧ t = s.raise .emptyFrequencyTable 0) ∨
      ∃ u, s.build = some u ∧ t = ((u.setTbc tbc).setDcur u.root).setPhase .decode
  | .dbyte _ last =>
    ∃ bs d, bs.length ≤ 8 ∧
      (t = ((s.emit bs).setDcur d).endOfByte last ∨
        (isLeafIdx s.root = true ∧ t = ((s.emit bs).setDcur d).raise .invalidCodeBit 0))

/-- A tree that `build()` gives meets rule R23, so its leaf set matches (rule R137). -/
theorem build_leafSetMatches (s u : State) (h : s.build = some u) : u.treeOk ∧ u.leafSetMatches = true := by
  rcases build_spec s with ⟨_, hn⟩ | ⟨_, nd, r, nsym, nint, hb, _, htree, _⟩
  · rw [hn] at h
    simp at h
  · rw [hb, Option.some.injEq] at h
    subst h
    have ht : (s.setTree nd r nsym nint).treeOk := htree
    exact ⟨ht, leafSetMatches_of_treeOk _ ht⟩

/-- `DSTART` in phase `IDLE`: the defensive check always passes (rules R136, R137). -/
theorem exec_dstart (tbc : BitVec 3) (s : State) (h : s.phase = .idle) :
    exec (.dstart tbc) s =
      match s.build with
      | none => .next (s.raise .emptyFrequencyTable 0)
      | some u => .next (((u.setTbc tbc).setDcur u.root).setPhase .decode) := by
  have hrun : exec (.dstart tbc) s = _ := frontEnd_run _ _ _ (by simp [h]) (by simp [legal, h])
  rw [hrun]
  cases hb : s.build with
  | none => rfl
  | some u => simp [(build_leafSetMatches s u hb).2]

/-- What a command can do when it answers a next state: nothing in `FAULT`, `BadSequence` out of phase, else its own
effect (rules R68, R173). -/
theorem exec_next (i : Instr) (s t : State) (h : exec i s = .next t) :
    (i ≠ .srst ∧ s.phase = .fault ∧ t = s) ∨
    (i ≠ .srst ∧ s.phase ≠ .fault ∧ legal i s.phase = false ∧
      t = s.raise .badSequence (badSequenceInfo s.phase.code i.opcode)) ∨
    (legal i s.phase = true ∧ Effect s t i) := by
  by_cases hi : i = .srst
  · subst hi
    exact Or.inr (Or.inr ⟨rfl, (Host.Outcome.next.inj h).symm⟩)
  obtain ⟨run, hrun⟩ := exec_frontEnd i s hi
  rcases frontEnd_cases i s run with ⟨hf, he⟩ | ⟨hf, hl, he⟩ | ⟨hf, hl, he⟩
  · rw [hrun, he] at h
    exact Or.inl ⟨hi, hf, (Host.Outcome.next.inj h).symm⟩
  · refine Or.inr (Or.inr ⟨hl, ?_⟩)
    have hr : ∀ r, exec i s = frontEnd i s r → exec i s = r := fun r hr => hr.trans (frontEnd_run i s r hf hl)
    cases i with
    | srst => exact absurd rfl hi
    | fclr => exact (Host.Outcome.next.inj ((hr _ rfl).symm.trans h)).symm
    | fset k c => exact (Host.Outcome.next.inj ((hr _ rfl).symm.trans h)).symm
    | fget k => exact (Host.Outcome.next.inj ((hr _ rfl).symm.trans h)).symm
    | tget idx => exact (Host.Outcome.next.inj ((hr _ rfl).symm.trans h)).symm
    | cget k => exact (Host.Outcome.next.inj ((hr _ rfl).symm.trans h)).symm
    | cstart => exact (Host.Outcome.next.inj ((hr _ rfl).symm.trans h)).symm
    | cend => exact (Host.Outcome.next.inj ((hr _ rfl).symm.trans h)).symm
    | tbuild =>
      have h' := (hr _ rfl).symm.trans h
      cases hb : s.build with
      | none =>
        rw [hb] at h'
        exact Or.inl ⟨hb, (Host.Outcome.next.inj h').symm⟩
      | some u =>
        rw [hb] at h'
        exact Or.inr ⟨u, hb, (Host.Outcome.next.inj h').symm⟩
    | dstart tbc =>
      have hp : s.phase = .idle := by simpa [legal] using hl
      have h' := (exec_dstart tbc s hp).symm.trans h
      cases hb : s.build with
      | none =>
        rw [hb] at h'
        exact Or.inl ⟨hb, (Host.Outcome.next.inj h').symm⟩
      | some u =>
        rw [hb] at h'
        exact Or.inr ⟨u, hb, (Host.Outcome.next.inj h').symm⟩
    | cgen =>
      have h' := (hr _ rfl).symm.trans h
      cases hw : s.codeWords with
      | error f => simp [hw] at h'
      | ok ws =>
        simp only [hw] at h'
        split at h'
        · cases hfind : (keysOf s.freq).find? (tooLong s.cfg.maxLen ws) with
          | some k =>
            rw [hfind] at h'
            exact Or.inl ⟨k, (Host.Outcome.next.inj h').symm⟩
          | none =>
            rw [hfind] at h'
            exact Or.inr ⟨_, wf_tableOfWords _ _, (Host.Outcome.next.inj h').symm⟩
        · simp at h'
    | cput b =>
      have h' := (hr _ rfl).symm.trans h
      split at h'
      · rename_i hlen
        exact Or.inl ⟨hlen, (Host.Outcome.next.inj h').symm⟩
      · rename_i hlen
        exact Or.inr ⟨hlen, (Host.Outcome.next.inj h').symm⟩
    | dbyte b last =>
      have h' := (hr _ rfl).symm.trans h
      have hlen : ((unpack8 b).take (validBits last s.tbc)).length ≤ 8 := by simp
      rcases walk_frame ((unpack8 b).take (validBits last s.tbc)) s with
        ⟨bs, d, hl', hw⟩ | ⟨bs, d, hl', hroot, hw⟩ | ⟨f, hw⟩
      · rw [hw] at h'
        exact ⟨bs, d, by omega, Or.inl (Host.Outcome.next.inj h').symm⟩
      · rw [hw] at h'
        exact ⟨bs, d, by omega, Or.inr ⟨hroot, (Host.Outcome.next.inj h').symm⟩⟩
      · simp [hw] at h'
  · rw [hrun, he] at h
    exact Or.inr (Or.inl ⟨hi, hf, hl, (Host.Outcome.next.inj h).symm⟩)

/-- The table of phases (rule R69) and the table of transitions (rule R13) allow the same pairs. -/
theorem legal_eq_transition (i : Instr) (p : Phase) : legal i p = (transition p i).isSome := by
  cases i with
  | dbyte b last => cases p <;> cases last <;> rfl
  | _ => cases p <;> rfl

/-- A list of commands, cut in two. -/
theorem execAll_append (as bs : List Instr) (s t : State) (h : execAll as s = .next t) :
    execAll (as ++ bs) s = execAll bs t := by
  induction as generalizing s with
  | nil =>
    have : s = t := Host.Outcome.next.inj h
    rw [this]
    rfl
  | cons a as ih =>
    simp only [execAll, List.cons_append] at h ⊢
    cases ha : exec a s with
    | next u =>
      rw [ha] at h
      exact ih u h
    | fault f => simp [ha] at h
    | refused r => simp [ha] at h

/-- `CPUT` of a byte that has a code (rule R122). -/
theorem exec_cput (b : Byte) (s : State) (hp : s.phase = .comp) (hl : (s.readCode b).len ≠ 0) :
    exec (.cput b) s = .next ((s.emit (flush (s.cputBuffer b)).1).setPending (flush (s.cputBuffer b)).2) := by
  have hrun : exec (.cput b) s = _ := frontEnd_run _ _ _ (by simp [hp]) (by simp [legal, hp])
  rw [hrun, if_neg hl]

/-- A run of `CPUT`s: what is emitted and what stays pending are the bits that were pending and the code words
(rules R122, R123, R127). -/
theorem execAll_cputs (data : List Byte) (words : List BitSeq) (s : State) (p : BitSeq) (hp : p.length ≤ 7)
    (hc : s.cfg.legal = true) (hphase : s.phase = .comp) (htree : s.treeOk) (hcode : CodeOk s)
    (hpcnt : s.pcnt = pendingCount p) (hpbits : s.pbits = pendingImage p)
    (hw : List.Forall₂ (fun b p => s.readFreq b ≠ 0 ∧ isCodeWord s.node s.root b p) data words) :
    ∃ bytes q, q.length ≤ 7 ∧ bytes.flatMap unpack8 ++ q = p ++ words.flatten ∧
      execAll (data.map .cput) s = .next ((s.emit bytes).setPending q) := by
  induction data generalizing words s p with
  | nil =>
    cases hw
    refine ⟨[], p, hp, by simp, congrArg Host.Outcome.next ?_⟩
    cases s
    simp only at hpcnt hpbits
    subst hpcnt hpbits
    simp [State.emit, State.setPending]
  | cons b data ih =>
    cases hw with
    | cons hbp hrest =>
      rename_i w words
      obtain ⟨q0, hq0, hpos, _, hword, hlen⟩ := hcode.word hc b hbp.1
      have heq : q0 = w := TreeOk.codeWord_unique htree b q0 w hq0 hbp.2
      subst heq
      have hl : (s.readCode b).len ≠ 0 := by
        intro h0
        rw [h0] at hlen
        have hzero : (0 : BitVec 6).toNat = 0 := rfl
        omega
      have hbuf : s.cputBuffer b = p ++ q0 := by
        simp only [State.cputBuffer, hpcnt, hpbits, pendingBits_image p hp, hword]
      obtain ⟨f1, _, f3⟩ := flush_spec (s.cputBuffer b)
      obtain ⟨bytes, q, hq7, hbits, hx⟩ := ih words
        ((s.emit (flush (s.cputBuffer b)).1).setPending (flush (s.cputBuffer b)).2) (flush (s.cputBuffer b)).2
        (by omega) hc hphase htree ⟨hcode.absent, hcode.present⟩ rfl rfl hrest
      refine ⟨(flush (s.cputBuffer b)).1 ++ bytes, q, hq7, ?_, ?_⟩
      · rw [List.flatMap_append, List.append_assoc, hbits, ← List.append_assoc, f1, hbuf]
        simp
      · simp only [List.map_cons, execAll, exec_cput b s hphase hl]
        rw [hx]
        simp [State.emit, State.setPending]

/-- A run of `FSET`s (rule R82). -/
theorem execAll_fsets (entries : List (Sym × Count)) (s : State) (hp : s.phase = .idle) :
    ∃ f, execAll (entries.map (fun e => .fset e.1 e.2)) s = .next { s with freq := f } ∧
      (Table.wf 256 freqDefault s.freq = true → Table.wf 256 freqDefault f = true) ∧
      ((entries.map Prod.fst).Nodup → ∀ k, freqOf f k = (entries.lookup k).getD (freqOf s.freq k)) := by
  induction entries generalizing s with
  | nil => exact ⟨s.freq, rfl, id, fun _ _ => rfl⟩
  | cons e entries ih =>
    obtain ⟨k0, c0⟩ := e
    have hrun : exec (.fset k0 c0) s = .next (s.writeFreq k0 c0) :=
      frontEnd_run _ _ _ (by simp [hp]) (by simp [legal, hp])
    obtain ⟨f, h1, h2, h3⟩ := ih (s.writeFreq k0 c0) hp
    refine ⟨f, ?_, fun hw => h2 (Table.wf_write _ _ _ _ _ k0.isLt hw), fun hnd k => ?_⟩
    · simp only [List.map_cons, execAll, hrun, h1]
      rfl
    · obtain ⟨hnot, hnd⟩ := List.nodup_cons.mp hnd
      have hread : freqOf (s.writeFreq k0 c0).freq k = if k = k0 then c0 else freqOf s.freq k := freqOf_write _ _ _ _
      rw [h3 hnd k, List.lookup_cons, hread]
      by_cases hk : k = k0
      · subst hk
        have hnone : entries.lookup k = none := by
          rw [List.lookup_eq_none_iff]
          intro p hp
          simp only [bne_iff_ne]
          rintro rfl
          exact hnot (List.mem_map.mpr ⟨p, hp, rfl⟩)
        simp [hnone]
      · have hne : (k == k0) = false := by simpa using hk
        simp [hne, hk]

end Sys2Proof.Machine
end

