-- ==== Sys2Proof/Laws/Depth.lean ====
section
/-! SUPPORT. How deep a Huffman tree can be (rule R97): weights along a path grow at least as the Fibonacci
numbers. -/

namespace Sys2Proof.Machine

section Depth
variable {freq : Table Count} {node : Table Node} {root : NodeIdx} {nint : BitVec 8}

/-- Nothing in the queue is lighter than what an earlier merge took out of it (rule R94). -/
theorem HuffmanTree.right_le (h : HuffmanTree freq node root nint) (m k : Nat) (hmk : m < k) (hk : k ≤ nint.toNat)
    (z : NodeIdx) (hz : queuedAt freq node k z) :
    (nodeOf node (nodeOf node (mergeIdx m)).right).weight.toNat ≤ (nodeOf node z).weight.toNat := by
  have hn := nint.isLt
  induction k generalizing z with
  | zero => omega
  | succ k ih =>
    have hok := h.merges k (by omega)
    by_cases hnew : z = mergeIdx k
    · have hw := hok.weight
      rw [hnew, hw]
      by_cases hm : m = k
      · subst hm
        omega
      · have := ih (by omega) (by omega) _ hok.rightQueued
        omega
    · have hz' : queuedAt freq node k z := by
        refine ⟨hz.1.imp_right (fun h' => ⟨h'.1, ?_⟩), fun j hj => hz.2 j (by omega)⟩
        have : z.toNat ≠ 256 + k := fun h'' => hnew (eq_mergeIdx z k (by omega) h'')
        omega
      by_cases hm : m = k
      · subst hm
        have := hok.smallest z hz' (hz.2 m (by omega))
        unfold keyLt at this
        omega
      · exact ih (by omega) (by omega) z hz'

/-- Every allocated node weighs at least 1: counts of keys are not 0 (rules R20, R91). -/
theorem HuffmanTree.weight_pos (h : HuffmanTree freq node root nint) (n : Nat) (i : NodeIdx) (hi : i.toNat ≤ n)
    (ha : allocIn freq nint i = true) : 1 ≤ (nodeOf node i).weight.toNat := by
  have hn := nint.isLt
  induction n generalizing i with
  | zero =>
    rcases alloc_cases _ _ _ ha with ⟨hl, hf⟩ | ⟨h1, _⟩
    · rw [← leafIdx_leafSym i hl, h.leaves _ hf]
      have hne : (freqOf freq (leafSym i)).toNat ≠ 0 := fun h0 => hf (BitVec.eq_of_toNat_eq h0)
      have := (freqOf freq (leafSym i)).isLt
      simp only [leafNode, BitVec.toNat_setWidth]
      omega
    · omega
  | succ n ih =>
    rcases alloc_cases _ _ _ ha with ⟨hl, hf⟩ | ⟨h1, h2⟩
    · rw [← leafIdx_leafSym i hl, h.leaves _ hf]
      have hne : (freqOf freq (leafSym i)).toNat ≠ 0 := fun h0 => hf (BitVec.eq_of_toNat_eq h0)
      have := (freqOf freq (leafSym i)).isLt
      simp only [leafNode, BitVec.toNat_setWidth]
      omega
    · have hi' : i = mergeIdx (i.toNat - 256) := eq_mergeIdx i _ (by omega) (by omega)
      have hok := h.merges (i.toNat - 256) (by omega)
      have hlt := queuedAt_lt _ _ _ _ hok.leftQueued
      have hw := hok.weight
      have hl := ih _ (by omega) (alloc_of_queued _ _ _ _ _ (by omega) hok.leftQueued)
      rw [← hi'] at hw hl
      omega

/-- A node with a leaf `n` edges below it weighs at least the Fibonacci number `n + 2`. -/
theorem HuffmanTree.fib_le (h : HuffmanTree freq node root nint) (p : BitSeq) (v : NodeIdx) (k : Sym)
    (hv : allocIn freq nint v = true) (hp : follow node v p = some (leafIdx k)) :
    Nat.fib (p.length + 2) ≤ (nodeOf node v).weight.toNat := by
  have hn := nint.isLt
  have hn' : nint.toNat ≤ 255 := by omega
  -- the children of an internal node, and what its weight is
  have hnode : ∀ (u : NodeIdx) (b : Bool) (q : BitSeq) (j : NodeIdx), allocIn freq nint u = true →
      follow node u (b :: q) = some j → ∃ m, m < nint.toNat ∧ u = mergeIdx m ∧
        follow node (if b then (nodeOf node u).right else (nodeOf node u).left) q = some j := by
    intro u b q j hu hq
    cases hl : isLeafIdx u with
    | true => rw [follow, if_pos hl] at hq; simp at hq
    | false =>
      obtain ⟨m, hm, rfl⟩ := (internalIn_iff freq nint u hn').mp ⟨hu, hl⟩
      have hlt := mergeIdx_toNat m (by omega)
      rw [follow_cons node _ b q hl (by omega)] at hq
      exact ⟨m, hm, rfl, hq⟩
  induction hlen : p.length using Nat.strongRecOn generalizing p v with
  | ind n ih =>
    subst hlen
    cases p with
    | nil => exact h.weight_pos _ v (Nat.le_refl _) hv
    | cons b p =>
      obtain ⟨m, hm, rfl, hc⟩ := hnode v b p _ hv hp
      have hok := h.merges m hm
      have hchild : ∀ c : Bool, queuedAt freq node m
          (if c then (nodeOf node (mergeIdx m)).right else (nodeOf node (mergeIdx m)).left) := by
        intro c
        cases c
        · exact hok.leftQueued
        · exact hok.rightQueued
      have hsum : (nodeOf node (mergeIdx m)).weight.toNat =
          (nodeOf node (if b then (nodeOf node (mergeIdx m)).right else (nodeOf node (mergeIdx m)).left)).weight.toNat +
          (nodeOf node (if !b then (nodeOf node (mergeIdx m)).right
            else (nodeOf node (mergeIdx m)).left)).weight.toNat := by
        rw [hok.weight]
        cases b
        · rfl
        · exact Nat.add_comm _ _
      have hqc := hchild b
      have hqd := hchild (!b)
      revert hc hsum hqc hqd
      generalize (if b then (nodeOf node (mergeIdx m)).right else (nodeOf node (mergeIdx m)).left) = c
      generalize (if !b then (nodeOf node (mergeIdx m)).right else (nodeOf node (mergeIdx m)).left) = d
      intro hc hsum hqc hqd
      have hca := alloc_of_queued freq node nint m c (by omega) hqc
      have hda := alloc_of_queued freq node nint m d (by omega) hqd
      have h1 := ih p.length (by simp) p c hca hc rfl
      have h2 := h.weight_pos _ d (Nat.le_refl _) hda
      rw [List.length_cons, hsum]
      cases p with
      | nil =>
        have h3 : Nat.fib 3 = 2 := rfl
        have h4 : Nat.fib 2 = 1 := rfl
        simp only [List.length_nil, Nat.zero_add, h3, h4] at h1 ⊢
        omega
      | cons b' p =>
        obtain ⟨mc, hmc, rfl, he⟩ := hnode c b' p _ hca hc
        have hokc := h.merges mc hmc
        have hlt : mc < m := by
          have := queuedAt_lt _ _ _ _ hqc
          rw [mergeIdx_toNat mc (by omega)] at this
          omega
        have hea : allocIn freq nint
            (if b' then (nodeOf node (mergeIdx mc)).right else (nodeOf node (mergeIdx mc)).left) = true := by
          cases b'
          · exact alloc_of_queued _ _ _ mc _ (by omega) hokc.leftQueued
          · exact alloc_of_queued _ _ _ mc _ (by omega) hokc.rightQueued
        have h5 := ih p.length (by simp only [List.length_cons]; omega) p _ hea he rfl
        have h6 := h.right_le mc m hlt (by omega) d hqd
        have h7 : (nodeOf node (if b' then (nodeOf node (mergeIdx mc)).right
            else (nodeOf node (mergeIdx mc)).left)).weight.toNat ≤
              (nodeOf node (nodeOf node (mergeIdx mc)).right).weight.toNat := by
          cases b'
          · have := hokc.leftFirst
            unfold keyLt at this
            simp only [Bool.false_eq_true, if_false]
            omega
          · exact Nat.le_refl _
        have h8 : Nat.fib (p.length + 2 + 2) = Nat.fib (p.length + 2) + Nat.fib (p.length + 2 + 1) := Nat.fib_add_two
        have h9 : (b' :: p).length + 1 + 2 = p.length + 2 + 2 := by simp
        have h10 : (b' :: p).length + 2 = p.length + 2 + 1 := by simp
        rw [h9, h8]
        rw [h10] at h1
        omega

end Depth

end Sys2Proof.Machine
end

