-- ==== Sys2Proof/Laws/Encoding.lean ====
section
/-! SUPPORT. The four fields of an assembled word are what was assembled, and a word is assembled from its fields
(rules R61, R64); the operand a format zero-extends comes back (rule R63). -/

namespace Sys2Proof

section Fields
variable (op flg : BitVec 8) (a : BitVec 16) (imm : BitVec 32)

@[simp] theorem wordOP_assemble : wordOP (assemble op flg a imm) = op := by
  apply BitVec.eq_of_getLsbD_eq
  intro i hi
  simp only [wordOP, assemble, BitVec.getLsbD_extractLsb', BitVec.getLsbD_or, BitVec.getLsbD_shiftLeft,
    BitVec.getLsbD_setWidth]
  have h1 : flg.getLsbD (56 + i - 48) = false := BitVec.getLsbD_of_ge _ _ (by omega)
  have h2 : a.getLsbD (56 + i - 32) = false := BitVec.getLsbD_of_ge _ _ (by omega)
  have h3 : imm.getLsbD (56 + i) = false := BitVec.getLsbD_of_ge _ _ (by omega)
  simp [h1, h2, h3, hi, show 56 + i < 64 by omega, show i < 64 by omega]

@[simp] theorem wordFLG_assemble : wordFLG (assemble op flg a imm) = flg := by
  apply BitVec.eq_of_getLsbD_eq
  intro i hi
  simp only [wordFLG, assemble, BitVec.getLsbD_extractLsb', BitVec.getLsbD_or, BitVec.getLsbD_shiftLeft,
    BitVec.getLsbD_setWidth]
  have h2 : a.getLsbD (48 + i - 32) = false := BitVec.getLsbD_of_ge _ _ (by omega)
  have h3 : imm.getLsbD (48 + i) = false := BitVec.getLsbD_of_ge _ _ (by omega)
  simp [h2, h3, hi, show 48 + i < 64 by omega, show 48 + i < 56 by omega, show i < 64 by omega]

@[simp] theorem wordA_assemble : wordA (assemble op flg a imm) = a := by
  apply BitVec.eq_of_getLsbD_eq
  intro i hi
  simp only [wordA, assemble, BitVec.getLsbD_extractLsb', BitVec.getLsbD_or, BitVec.getLsbD_shiftLeft,
    BitVec.getLsbD_setWidth]
  simp [hi, show 32 + i < 64 by omega, show 32 + i < 56 by omega, show 32 + i < 48 by omega,
    show i < 64 by omega]

@[simp] theorem wordIMM_assemble : wordIMM (assemble op flg a imm) = imm := by
  apply BitVec.eq_of_getLsbD_eq
  intro i hi
  simp only [wordIMM, assemble, BitVec.getLsbD_extractLsb', BitVec.getLsbD_or, BitVec.getLsbD_shiftLeft,
    BitVec.getLsbD_setWidth]
  simp [hi, show i < 64 by omega, show i < 56 by omega, show i < 48 by omega]

end Fields

/-- A word is assembled from its own fields. -/
theorem assemble_fields (w : CmdWord) : assemble (wordOP w) (wordFLG w) (wordA w) (wordIMM w) = w := by
  apply BitVec.eq_of_getLsbD_eq
  intro i hi
  simp only [assemble, wordOP, wordFLG, wordA, wordIMM, BitVec.getLsbD_extractLsb', BitVec.getLsbD_or,
    BitVec.getLsbD_shiftLeft, BitVec.getLsbD_setWidth]
  by_cases h1 : i < 32
  · simp [h1, hi, show i < 48 by omega, show i < 56 by omega]
  · by_cases h2 : i < 48
    · simp [*, show i - 32 < 16 by omega, show i < 56 by omega, show 32 + (i - 32) = i by omega,
        show i - 32 < 64 by omega]
    · by_cases h3 : i < 56
      · simp [*, show ¬ i - 32 < 16 by omega, show i - 48 < 8 by omega, show 48 + (i - 48) = i by omega,
          show i - 48 < 64 by omega]
      · simp [*, show ¬ i - 32 < 16 by omega, show ¬ i - 48 < 8 by omega, show i - 56 < 8 by omega,
          show 56 + (i - 56) = i by omega, show i - 56 < 64 by omega]

/-- Two words with equal fields are equal. -/
theorem eq_of_fields (w v : CmdWord) (h1 : wordOP w = wordOP v) (h2 : wordFLG w = wordFLG v)
    (h3 : wordA w = wordA v) (h4 : wordIMM w = wordIMM v) : w = v := by
  rw [← assemble_fields w, ← assemble_fields v, h1, h2, h3, h4]

/-! ## Operands: the low bits come back, the reserved high bits are 0 -/

theorem setWidth_low {n m : Nat} (x : BitVec n) (h : n ≤ m) : (x.setWidth m).extractLsb' 0 n = x := by
  apply BitVec.eq_of_getLsbD_eq
  intro i hi
  simp [hi, show i < m by omega]

theorem setWidth_high {n m k : Nat} (x : BitVec n) : (x.setWidth m).extractLsb' n k = 0 := by
  apply BitVec.eq_of_getLsbD_eq
  intro i hi
  simp [BitVec.getLsbD_extractLsb', BitVec.getLsbD_setWidth]

/-- A vector whose high bits are 0 is the zero-extension of its low bits. -/
theorem setWidth_of_high {n m k : Nat} (y : BitVec m) (hm : m = n + k) (h : y.extractLsb' n k = 0) :
    (y.extractLsb' 0 n).setWidth m = y := by
  apply BitVec.eq_of_getLsbD_eq
  intro i hi
  simp only [BitVec.getLsbD_setWidth, BitVec.getLsbD_extractLsb', Nat.zero_add, hi, decide_true, Bool.true_and]
  by_cases h1 : i < n
  · simp [h1]
  · have h2 := congrArg (fun z => z.getLsbD (i - n)) h
    simp only [BitVec.getLsbD_extractLsb', show n + (i - n) = i by omega, show i - n < k by omega, decide_true,
      Bool.true_and] at h2
    simpa [h1] using h2.symm

/-! ## Reserved bits and masks -/

/-- What passes a reserved-bit check (rule R62). -/
theorem checked_eq (ok : Bool) (w : CmdWord) (c d : Cmd) :
    checked ok w c = d ↔ (ok = true ∧ c = d) ∨ (ok = false ∧ Cmd.illegal .reservedBit (wordOP w) = d) := by
  unfold checked
  cases ok <;> simp

/-- Masking the bits from `k` up asks whether they are 0 (rules R62, R64). -/
theorem and_high_mask {n : Nat} (k : Nat) (x : BitVec n) (hk : k ≤ n) :
    x &&& (BitVec.allOnes n <<< k) = 0 ↔ x.extractLsb' k (n - k) = 0 := by
  constructor
  · intro h
    apply BitVec.eq_of_getLsbD_eq
    intro i hi
    have := congrArg (fun z => z.getLsbD (k + i)) h
    simp only [BitVec.getLsbD_and, BitVec.getLsbD_shiftLeft, BitVec.getLsbD_allOnes] at this
    simp only [BitVec.getLsbD_extractLsb']
    simpa [show k + i < n by omega, hi, show i < n by omega] using this
  · intro h
    apply BitVec.eq_of_getLsbD_eq
    intro i hi
    by_cases hik : i < k
    · simp [hik]
    · have := congrArg (fun z => z.getLsbD (i - k)) h
      simp only [BitVec.getLsbD_extractLsb', show k + (i - k) = i by omega, show i - k < n - k by omega, decide_true,
        Bool.true_and] at this
      simp [this]

theorem wordOP_and (v w : CmdWord) : wordOP (v &&& w) = wordOP v &&& wordOP w := by
  apply BitVec.eq_of_getLsbD_eq
  intro i hi
  simp [wordOP, hi]

theorem wordFLG_and (v w : CmdWord) : wordFLG (v &&& w) = wordFLG v &&& wordFLG w := by
  apply BitVec.eq_of_getLsbD_eq
  intro i hi
  simp [wordFLG, hi]

theorem wordA_and (v w : CmdWord) : wordA (v &&& w) = wordA v &&& wordA w := by
  apply BitVec.eq_of_getLsbD_eq
  intro i hi
  simp [wordA, hi]

theorem wordIMM_and (v w : CmdWord) : wordIMM (v &&& w) = wordIMM v &&& wordIMM w := by
  apply BitVec.eq_of_getLsbD_eq
  intro i hi
  simp [wordIMM, hi]

/-- A masked comparison, field by field (rule R64). -/
theorem and_eq_iff_fields (w mask pat : CmdWord) :
    w &&& mask = pat ↔
      wordOP w &&& wordOP mask = wordOP pat ∧ wordFLG w &&& wordFLG mask = wordFLG pat ∧
      wordA w &&& wordA mask = wordA pat ∧ wordIMM w &&& wordIMM mask = wordIMM pat := by
  rw [← wordOP_and, ← wordFLG_and, ← wordA_and, ← wordIMM_and]
  exact ⟨fun h => by simp [h], fun h => eq_of_fields _ _ h.1 h.2.1 h.2.2.1 h.2.2.2⟩

end Sys2Proof
end

