-- ==== Sys2Proof/Laws/PerInstr.lean ====
section
/-! SUPPORT. Statements about every instruction as syntax, one lemma per constructor. Family `RoundTrip`: the
decoder reads back what the encoder wrote (rule R67). -/

namespace Sys2Proof.Laws.RoundTrip

/-- The decoder gives a well-formed instruction back from its word. -/
def Statement (i : Instr) : Prop := i.wf = true → decode (encode i) = .instr i

theorem srst : Statement .srst := fun _ => by decide
theorem fclr : Statement .fclr := fun _ => by decide
theorem tbuild : Statement .tbuild := fun _ => by decide
theorem cgen : Statement .cgen := fun _ => by decide
theorem cstart : Statement .cstart := fun _ => by decide
theorem cend : Statement .cend := fun _ => by decide

theorem fset (sym : Sym) (count : Count) : Statement (.fset sym count) := fun _ => by
  simp [decode, encode, Instr.opcode, Instr.fieldFLG, Instr.fieldA, Instr.fieldIMM, formatSI, checked, operandA8,
    setWidth_low, setWidth_high]

theorem fget (sym : Sym) : Statement (.fget sym) := fun _ => by
  simp [decode, encode, Instr.opcode, Instr.fieldFLG, Instr.fieldA, Instr.fieldIMM, formatS, checked, operandA8,
    setWidth_low, setWidth_high]

theorem cget (sym : Sym) : Statement (.cget sym) := fun _ => by
  simp [decode, encode, Instr.opcode, Instr.fieldFLG, Instr.fieldA, Instr.fieldIMM, formatS, checked, operandA8,
    setWidth_low, setWidth_high]

theorem cput (byte : Byte) : Statement (.cput byte) := fun _ => by
  simp [decode, encode, Instr.opcode, Instr.fieldFLG, Instr.fieldA, Instr.fieldIMM, formatS, checked, operandA8,
    setWidth_low, setWidth_high]

theorem tget (idx : NodeIdx) : Statement (.tget idx) := fun h => by
  have h : idx ≠ NIL := by simpa [Instr.wf] using h
  simp [decode, encode, Instr.opcode, Instr.fieldFLG, Instr.fieldA, Instr.fieldIMM, formatN, checked, operandIdx,
    setWidth_low, setWidth_high, h]

theorem dstart (tbc : BitVec 3) : Statement (.dstart tbc) := fun _ => by
  simp [decode, encode, Instr.opcode, Instr.fieldFLG, Instr.fieldA, Instr.fieldIMM, formatT, checked, operandTbc,
    setWidth_low, setWidth_high]

theorem dbyte (byte : Byte) (last : Bool) : Statement (.dbyte byte last) := fun _ => by
  cases last <;>
  simp [decode, encode, Instr.opcode, Instr.fieldFLG, Instr.fieldA, Instr.fieldIMM, formatBL, checked, operandA8,
    operandLast, setWidth_low, setWidth_high]

end Sys2Proof.Laws.RoundTrip
end

