-- ==== Sys2Proof/Laws/View.lean ====
section
/-! SUPPORT. Paths, code words and the decompressor's walk read allocated arena entries only (rule R22): a state whose
arena agrees at those, whatever stands in the other entries and in the code table, walks the same way. -/

namespace Sys2Proof.Machine

/-- A state with another arena and another code table. -/
def State.overTables (s : State) (n : Table Node) (c : Table Code) : State := { s with node := n, code := c }

/-- A walk's progress with another arena and another code table in its state. -/
def Progress.overTables (n : Table Node) (c : Table Code) : Progress → Progress
  | .going s => .going (s.overTables n c)
  | .raised s => .raised (s.overTables n c)
  | .stuck f => .stuck f

/-! ## Paths -/

section Paths
variable {freq : Table Count} {node n : Table Node} {root : NodeIdx} {nsym : BitVec 9} {nint : BitVec 8}

theorem TreeOk.follow_agree (h : TreeOk freq node root nsym nint)
    (hn : ∀ i, allocIn freq nint i = true → nodeOf n i = nodeOf node i) (p : BitSeq) (i : NodeIdx)
    (hi : allocIn freq nint i = true) : follow n i p = follow node i p := by
  induction p generalizing i with
  | nil => rfl
  | cons b p ih =>
    cases hl : isLeafIdx i with
    | true => simp [follow, hl]
    | false =>
      obtain ⟨h1, h2, _⟩ := h.children i ⟨hi, hl⟩
      have hlt := TreeOk.alloc_lt h _ hi
      rw [follow_cons n i b p hl hlt, follow_cons node i b p hl hlt, hn i hi]
      cases b
      · exact ih _ h1
      · exact ih _ h2

theorem TreeOk.codeWord_agree (h : TreeOk freq node root nsym nint)
    (hn : ∀ i, allocIn freq nint i = true → nodeOf n i = nodeOf node i) (k : Sym) (p : BitSeq) :
    isCodeWord n root k p ↔ isCodeWord node root k p := by
  simp only [isCodeWord, h.follow_agree hn p root h.rootAlloc]

end Paths

/-! ## The walk -/

theorem walkStep_agree (bit : Bool) (s : State) (n : Table Node) (c : Table Code) (h : s.treeOk) (hc : s.cursorOk)
    (hn : ∀ i, allocIn s.freq s.nint i = true → nodeOf n i = nodeOf s.node i) :
    walkStep bit (s.overTables n c) = (walkStep bit s).overTables n c := by
  cases hr : isLeafIdx s.root with
  | true =>
    rw [walkStep_leafRoot bit s hr, walkStep_leafRoot bit (s.overTables n c) hr]
    cases bit <;> rfl
  | false =>
    have hint : internalIn s.freq s.nint s.dcur := by
      rcases hc with hc | hc
      · exact hc ▸ ⟨h.rootAlloc, hr⟩
      · exact hc
    have hlt := TreeOk.alloc_lt h _ hint.1
    have hnode : (s.overTables n c).readNode s.dcur = s.readNode s.dcur := hn _ hint.1
    have hdcur : (s.overTables n c).dcur = s.dcur := rfl
    rw [walkStep_internal bit s hr hlt, walkStep_internal bit (s.overTables n c) hr hlt, hdcur, hnode]
    generalize (if bit = true then (s.readNode s.dcur).right else (s.readNode s.dcur).left) = child
    cases isLeafIdx child <;> rfl

theorem walk_agree (bits : BitSeq) (s : State) (n : Table Node) (c : Table Code) (h : s.treeOk) (hc : s.cursorOk)
    (hn : ∀ i, allocIn s.freq s.nint i = true → nodeOf n i = nodeOf s.node i) :
    walk bits (s.overTables n c) = (walk bits s).overTables n c := by
  induction bits generalizing s with
  | nil => rfl
  | cons b bits ih =>
    rw [walk, walk, walkStep_agree b s n c h hc hn]
    rcases walkStep_spec b s h hc with ⟨bs, d, hs, hd⟩ | ⟨_, hs⟩
    · rw [hs]
      exact ih ((s.emit bs).setDcur d) h hd hn
    · rw [hs]
      rfl

end Sys2Proof.Machine
end

