-- ==== Sys2Proof/Tests/Slice0.lean ====
section
/-! SUPPORT. Tests of one step each on small states, their expected values taken from spec/95_test_vectors.md (the
vector is named at each test), and, for every obligation with hypotheses, a theorem that shows concrete inputs meeting
them (`witness_<name of the obligation>`). -/

namespace Sys2Proof.Tests

set_option Elab.async false

open Sys2Proof.Machine

/-! ## Small states -/

/-- The state a command leads to; the reset state where it leads to none. -/
def resultOf : Host.Outcome State Fault Refusal → State
  | .next s => s
  | _ => State.reset

/-- The next state an outcome answers, if it answers one. -/
def nextOf : Host.Outcome State Fault Refusal → Option State
  | .next s => some s
  | .fault _ => none
  | .refused _ => none

theorem eq_next_of {o : Host.Outcome State Fault Refusal} {t : State} (h : nextOf o = some t) : o = .next t := by
  cases o with
  | next s => exact congrArg _ (Option.some.inj h)
  | fault r => exact absurd h (by simp [nextOf])
  | refused r => exact absurd h (by simp [nextOf])

theorem eq_resultOf {o : Host.Outcome State Fault Refusal} (h : (nextOf o).isSome = true) : o = .next (resultOf o) := by
  cases o with
  | next s => rfl
  | fault r => exact absurd h (by simp [nextOf])
  | refused r => exact absurd h (by simp [nextOf])

/-- The reset state, put in a phase. -/
def inPhase (p : Phase) : State := { State.reset with phase := p }

/-- The frequencies of V-TB1. -/
def demoIdle : State := { State.reset with freq := [(97, 4), (98, 2), (99, 1), (100, 1), (101, 1), (102, 1)] }
/-- After `build()`: the arena of V-TB1. -/
def demoBuilt : State :=
  { demoIdle with
    node := [(97, ⟨4, NIL, NIL⟩), (98, ⟨2, NIL, NIL⟩), (99, ⟨1, NIL, NIL⟩), (100, ⟨1, NIL, NIL⟩),
      (101, ⟨1, NIL, NIL⟩), (102, ⟨1, NIL, NIL⟩), (256, ⟨2, 99, 100⟩), (257, ⟨2, 101, 102⟩), (258, ⟨4, 98, 256⟩),
      (259, ⟨6, 257, 97⟩), (260, ⟨10, 258, 259⟩)]
    root := 260, nsym := 6, nint := 5 }
/-- After `TBUILD`. -/
def demoTree : State := demoBuilt.setPhase .tree
/-- After `CGEN`: the code table of V-CG1. -/
def demoCodes : State :=
  { demoBuilt with
    phase := .codes
    code := [(97, ⟨2, 3⟩), (98, ⟨2, 0⟩), (99, ⟨3, 2⟩), (100, ⟨3, 3⟩), (101, ⟨3, 4⟩), (102, ⟨3, 5⟩)] }
/-- After `CSTART`. -/
def demoComp : State := { demoCodes with phase := .comp }
/-- After `DSTART 7` on the same frequencies. -/
def demoDecode : State := { demoBuilt with phase := .decode, tbc := 7, dcur := 260 }

/-- The one-key table of V-DP9, `TX`. -/
def oneIdle : State := { State.reset with freq := [(120, 11)] }
/-- After `build()`. -/
def oneBuilt : State := { oneIdle with node := [(120, ⟨11, NIL, NIL⟩)], root := 120, nsym := 1, nint := 0 }
/-- After `DSTART 3`. -/
def oneDecode : State := { oneBuilt with phase := .decode, tbc := 3, dcur := 120 }

/-! ## Well-formedness: the one check, and a term it refuses -/

theorem test_tget_511_is_ill_formed : Instr.wf (.tget 511) = false := by decide
theorem test_tget_510_is_well_formed : Instr.wf (.tget 510) = true := by decide
/-- V-FE8. -/
theorem test_decoder_refuses_tget_511 : decode 0x210001FF00000000 = .illegal .nilIndex 0x21 := by decide

/-! ## Decoding: words written out from the encoding of rule R64 -/

theorem test_decode_srst : decode 0x0100000000000000 = .instr .srst := by decide
theorem test_decode_fclr : decode 0x1000000000000000 = .instr .fclr := by decide
theorem test_decode_fset : decode 0x110000FFFFFFFFFF = .instr (.fset 0xFF 0xFFFFFFFF) := by decide
theorem test_decode_fget : decode 0x1200006100000000 = .instr (.fget 0x61) := by decide
theorem test_decode_tbuild : decode 0x2000000000000000 = .instr .tbuild := by decide
theorem test_decode_tget : decode 0x210001FE00000000 = .instr (.tget 510) := by decide
theorem test_decode_cgen : decode 0x3000000000000000 = .instr .cgen := by decide
theorem test_decode_cget : decode 0x3100006100000000 = .instr (.cget 0x61) := by decide
theorem test_decode_cstart : decode 0x4000000000000000 = .instr .cstart := by decide
theorem test_decode_cput : decode 0x4100000B00000000 = .instr (.cput 0x0B) := by decide
theorem test_decode_cend : decode 0x4200000000000000 = .instr .cend := by decide
theorem test_decode_dstart : decode 0x5000000700000000 = .instr (.dstart 7) := by decide
theorem test_decode_dbyte : decode 0x510000FD00000000 = .instr (.dbyte 0xFD false) := by decide
theorem test_decode_dbyte_last : decode 0x5101001F00000000 = .instr (.dbyte 0x1F true) := by decide

/-- V-FE3, V-FE5, V-FE6, V-FE7, V-FE9, V-FE10, V-FE11. -/
theorem test_reserved_bits_are_refused :
    decode 0x0100000000000001 = .illegal .reservedBit 0x01 ∧ decode 0x1001000000000000 = .illegal .reservedBit 0x10 ∧
    decode 0x1100010000000005 = .illegal .reservedBit 0x11 ∧ decode 0x1200006100000001 = .illegal .reservedBit 0x12 ∧
    decode 0x2100020000000000 = .illegal .reservedBit 0x21 ∧ decode 0x5000000800000000 = .illegal .reservedBit 0x50 ∧
    decode 0x5102000000000000 = .illegal .reservedBit 0x51 := by decide

/-- V-FE1, V-FE2, V-FE4, V-FE13. -/
theorem test_unknown_opcodes_are_refused :
    decode 0 = .illegal .unknownOpcode 0x00 ∧ decode 0xFFFFFFFFFFFFFFFF = .illegal .unknownOpcode 0xFF ∧
    decode 0x0200000000000000 = .illegal .unknownOpcode 0x02 ∧
    decode 0x5200000000000000 = .illegal .unknownOpcode 0x52 := by decide

theorem test_table_word : decodeTableWord 64 0x1100006100000004 = some (.fset 0x61 4) := by decide

/-! ## The front end -/

/-- V-FE12: illegal and out of phase, `IllegalCommand` wins. -/
theorem test_illegal_before_out_of_phase :
    runWord 0x4100010000000000 State.reset =
      .next { State.reset with phase := .fault, err := 0x10, einfo := 0x0041 } :=
  eq_next_of (by decide +kernel)
/-- V-FE20: `FGET` in `DONE`. -/
theorem test_out_of_phase :
    runWord 0x1200006100000000 (inPhase .done) =
      .next { State.reset with phase := .fault, err := 0x11, einfo := 0x0512 } :=
  eq_next_of (by decide +kernel)
/-- V-FE24: after a fault `FSET` is ignored. -/
theorem test_fault_is_final :
    runWord 0x1100006100000001 { State.reset with phase := .fault, err := 0x01 } =
      .next { State.reset with phase := .fault, err := 0x01 } :=
  eq_next_of (by decide +kernel)
/-- A placed word is the very next thing a step runs (rule R195). -/
theorem test_step_runs_the_word :
    step (State.reset.withFetchWord 64 0x1100006100000004) =
      .next { State.reset with freq := [(97, 4)] } :=
  eq_next_of (by decide +kernel)

/-! ## One step of each command -/

/-- V-FE22. -/
theorem test_srst : exec .srst { demoIdle with phase := .done, tbc := 3, out := [0xFD] } = .next State.reset :=
  eq_next_of (by decide +kernel)
/-- V-FT5. -/
theorem test_fclr : exec .fclr { State.reset with freq := [(255, 0xFFFFFFFF)] } = .next State.reset :=
  eq_next_of (by decide +kernel)
/-- V-FT2: the second `FSET` replaces the first. -/
theorem test_fset_replaces :
    exec (.fset 0x61 7) { State.reset with freq := [(97, 4)] } = .next { State.reset with freq := [(97, 7)] } :=
  eq_next_of (by decide +kernel)
/-- V-FT3: a count of 0 removes the key. -/
theorem test_fset_zero_removes :
    exec (.fset 0x61 0) { State.reset with freq := [(97, 4)] } = .next State.reset :=
  eq_next_of (by decide +kernel)
/-- V-FT4. -/
theorem test_fget :
    (resultOf (exec (.fget 0xFF) { State.reset with freq := [(255, 0xFFFFFFFF)] })).rdata = 0x00000000FFFFFFFF := by
  decide +kernel
/-- V-FT6: legal in `IDLE`, an absent key reads 0. -/
theorem test_fget_absent : exec (.fget 0) State.reset = .next State.reset :=
  eq_next_of (by decide +kernel)
/-- V-TB1. -/
theorem test_tbuild : exec .tbuild demoIdle = .next demoTree := eq_next_of (by decide +kernel)
/-- V-TB8. -/
theorem test_tbuild_empty :
    exec .tbuild State.reset = .next { State.reset with phase := .fault, err := 0x01 } :=
  eq_next_of (by decide +kernel)
/-- V-TB1, `TGET 260` and `TGET 'a'`. -/
theorem test_tget_record :
    (resultOf (exec (.tget 260) demoTree)).rdata = 0xC20503000000000A ∧
      (resultOf (exec (.tget 0x61) demoTree)).rdata = 0x83FFFF0000000004 := by decide +kernel
/-- V-TB1, `TGET 'g'` and `TGET 261`. -/
theorem test_tget_unallocated :
    (resultOf (exec (.tget 0x67) demoTree)).rdata = 0 ∧ (resultOf (exec (.tget 261) demoTree)).rdata = 0 := by
  decide +kernel
/-- V-CG1. -/
theorem test_cgen : exec .cgen demoTree = .next demoCodes := eq_next_of (by decide +kernel)
/-- The depths of V-CG1 against `MAXLEN = 2`, as in V-CG4: `c` is the smallest symbol deeper than 2. -/
theorem test_cgen_too_long :
    (resultOf (exec .cgen { demoTree with cfg := ⟨2⟩ })).err = 0x02 ∧
      (resultOf (exec .cgen { demoTree with cfg := ⟨2⟩ })).einfo = 0x0063 := by decide +kernel
/-- V-CG1, `CGET 'c'`. -/
theorem test_cget :
    (resultOf (exec (.cget 0x63) demoCodes)).rdata = 2 ∧ (resultOf (exec (.cget 0x63) demoCodes)).raux = 3 := by
  decide +kernel
/-- Rule R121. -/
theorem test_cstart :
    exec .cstart { State.reset with phase := .codes, pcnt := 3, pbits := 0x70 } = .next (inPhase .comp) :=
  eq_next_of (by decide +kernel)
/-- V-CP4, `CPUT 0x02`: two bytes in one command. -/
theorem test_cput_two_bytes :
    let t := resultOf (exec (.cput 2)
      { State.reset with phase := .comp, pcnt := 7, pbits := 0x7E, code := [(2, ⟨10, 0x3FE⟩)] })
    t.out = [0xFD, 0xFF] ∧ t.pcnt = 1 ∧ t.pbits = 0 := by decide +kernel
/-- V-CP5. -/
theorem test_cput_without_code :
    exec (.cput 0x67) { State.reset with phase := .comp, pcnt := 2, pbits := 0x60 } =
      .next { State.reset with phase := .fault, err := 0x04, einfo := 0x67, pcnt := 2, pbits := 0x60 } :=
  eq_next_of (by decide +kernel)
/-- V-CP2. -/
theorem test_cend_partial_byte :
    exec .cend { State.reset with phase := .comp, pcnt := 5, pbits := 0x58 } =
      .next { State.reset with phase := .done, tbc := 5, out := [0xB0] } :=
  eq_next_of (by decide +kernel)
/-- V-CP6. -/
theorem test_cend_nothing_pending : exec .cend (inPhase .comp) = .next (inPhase .done) :=
  eq_next_of (by decide +kernel)
/-- V-TB1 and rule R136. -/
theorem test_dstart : exec (.dstart 7) demoIdle = .next demoDecode := eq_next_of (by decide +kernel)
/-- V-TB8 for `DSTART`. -/
theorem test_dstart_empty :
    exec (.dstart 0) State.reset = .next { State.reset with phase := .fault, err := 0x01 } :=
  eq_next_of (by decide +kernel)
/-- V-DP5. -/
theorem test_dbyte_truncated :
    let t := resultOf (exec (.dbyte 0xFD true) demoDecode)
    t.out = [0x61, 0x61, 0x61] ∧ t.phase = .fault ∧ t.err = 0x05 ∧ t.einfo = 0x0102 := by decide +kernel
/-- V-DP12 and V-DP11: padding is not looked at; a valid `1` under a one-leaf tree. -/
theorem test_dbyte_one_leaf :
    let t := resultOf (exec (.dbyte 0x10 true) oneDecode)
    let u := resultOf (exec (.dbyte 0x20 false) oneDecode)
    t.out = [0x78, 0x78, 0x78] ∧ t.phase = .done ∧ u.out = [0x78, 0x78] ∧ u.err = 0x12 ∧ u.einfo = 0 := by
  decide +kernel

/-! ## Command scripts (rules R70, R71) -/

/-- `FSET 'a', 4` with a comment. -/
theorem test_script_fset :
    readLine ['F', 'S', 'E', 'T', ' ', '\'', 'a', '\'', ',', ' ', '4', ' ', '#', 'x'] =
      some (.command (.fset 0x61 4)) := by decide +kernel
/-- `DBYTE 0x97, LAST`, and the same with no flag. -/
theorem test_script_dbyte :
    readLine ['D', 'B', 'Y', 'T', 'E', ' ', '0', 'x', '9', '7', ',', ' ', 'L', 'A', 'S', 'T'] =
        some (.command (.dbyte 0x97 true)) ∧
      readLine ['D', 'B', 'Y', 'T', 'E', ' ', '1', '5', '1'] = some (.command (.dbyte 0x97 false)) := by decide +kernel
/-- `TGET 511` names no command; mnemonics are upper case. -/
theorem test_script_refuses :
    readLine ['T', 'G', 'E', 'T', ' ', '5', '1', '1'] = none ∧ readLine ['c', 'g', 'e', 'n'] = none := by decide +kernel
/-- `FTAB a:1`-like, `DSTR`, `REP`: the expansions of rule R71. -/
theorem test_script_pseudo :
    (readLine ['F', 'T', 'A', 'B', ' ', '1', ':', '2', ',', '3', ':', '4']).map ScriptLine.expand =
        some [.fset 1 2, .fset 3 4] ∧
      (readLine ['D', 'S', 'T', 'R', ' ', '1', ' ', '2']).map ScriptLine.expand =
        some [.dbyte 1 false, .dbyte 2 true] ∧
      (readLine ['R', 'E', 'P', ' ', '2', ',', ' ', 'C', 'P', 'U', 'T', ' ', '9']).map ScriptLine.expand =
        some [.cput 9, .cput 9] ∧
      (readLine ['C', 'S', 'T', 'R', ' ', '7']).map ScriptLine.expand = some [.cput 7] := by decide +kernel

/-! ## Facts about the small states -/

theorem demo_build : demoIdle.build = some demoBuilt := by decide +kernel
theorem demo_treeOk : demoBuilt.treeOk := (build_leafSetMatches _ _ demo_build).1
theorem demoTree_treeOk : demoTree.treeOk := demo_treeOk
theorem demo_cstart : exec .cstart demoCodes = .next demoComp :=
  eq_next_of (by decide +kernel)
theorem one_build : oneIdle.build = some oneBuilt := by decide +kernel
theorem one_dstart : exec (.dstart 3) oneIdle = .next oneDecode :=
  eq_next_of (by decide +kernel)

/-- A state with the tables of a built one has its tree. -/
theorem treeOk_of_tables (s t : State) (h : s.treeOk) (h1 : t.freq = s.freq) (h2 : t.node = s.node)
    (h3 : t.root = s.root) (h4 : t.nsym = s.nsym) (h5 : t.nint = s.nint) : t.treeOk := by
  unfold State.treeOk
  rw [h1, h2, h3, h4, h5]
  exact h

theorem demoCodes_treeOk : demoCodes.treeOk := by
  refine treeOk_of_tables demoBuilt _ demo_treeOk ?_ ?_ ?_ ?_ ?_ <;> decide +kernel
theorem demoComp_treeOk : demoComp.treeOk := by
  refine treeOk_of_tables demoBuilt _ demo_treeOk ?_ ?_ ?_ ?_ ?_ <;> decide +kernel
theorem demoDecode_treeOk : demoDecode.treeOk := by
  refine treeOk_of_tables demoBuilt _ demo_treeOk ?_ ?_ ?_ ?_ ?_ <;> decide +kernel
theorem oneDecode_treeOk : oneDecode.treeOk := by
  refine treeOk_of_tables oneBuilt _ (build_leafSetMatches _ _ one_build).1 ?_ ?_ ?_ ?_ ?_ <;> decide +kernel

/-- No code word of the demo tree is too long, and its table is the tree's. -/
theorem demo_cgen_runs :
    (∀ k p, demoTree.readFreq k ≠ 0 → isCodeWord demoTree.node demoTree.root k p → p.length ≤ demoTree.cfg.maxLen) ∧
      CodeOk demoCodes := by
  rcases cgen_spec demoTree rfl demoTree_treeOk with ⟨k, p, _, _, _, _, hx⟩ | ⟨hlen, c, hx, _, hok⟩
  · have h := Host.Outcome.next.inj (test_cgen.symm.trans hx)
    have hphase : demoCodes.phase = .codes := by decide +kernel
    rw [h] at hphase
    exact absurd hphase (by simp)
  · exact ⟨hlen, by rw [Host.Outcome.next.inj (test_cgen.symm.trans hx)]; exact hok⟩

theorem demoComp_codeOk : CodeOk demoComp := by
  have h : demoComp = (demoCodes.setPending []).setPhase .comp := by decide +kernel
  rw [h]
  exact ⟨demo_cgen_runs.2.absent, demo_cgen_runs.2.present⟩

theorem demoComp_inv : Inv demoComp where
  config := by decide +kernel
  freqWf := by decide +kernel
  nodeWf := by decide +kernel
  codeWf := by decide +kernel
  errIffFault := by decide +kernel
  errCode := Or.inl (by decide +kernel)
  pending := by decide +kernel
  tree := fun _ => demoComp_treeOk
  code := fun _ => demoComp_codeOk
  cursor := fun h => absurd h (by decide +kernel)

theorem demoDecode_inv : Inv demoDecode where
  config := by decide +kernel
  freqWf := by decide +kernel
  nodeWf := by decide +kernel
  codeWf := by decide +kernel
  errIffFault := by decide +kernel
  errCode := Or.inl (by decide +kernel)
  pending := by decide +kernel
  tree := fun _ => demoDecode_treeOk
  code := fun h => absurd h (by decide +kernel)
  cursor := fun _ => Or.inl (by decide +kernel)

theorem demo_freqWf : Table.wf 256 freqDefault demoIdle.freq = true := by decide +kernel

/-- The demo table, its pass dead, with inputs still to come. -/
def demoFault (port : List PortInput) : State :=
  { demoIdle with phase := .fault, err := 0x11, einfo := 0x0030, port := port }

theorem demoFault_inv (port : List PortInput) : Inv (demoFault port) where
  config := rfl
  freqWf := demo_freqWf
  nodeWf := rfl
  codeWf := rfl
  errIffFault := by simp [demoFault]
  errCode := Or.inr ⟨.badSequence, rfl⟩
  pending := by simp only [demoFault]; decide +kernel
  tree := fun h => absurd h (by simp [demoFault, Phase.treeValid])
  code := fun h => absurd h (by simp [demoFault])
  cursor := fun h => absurd h (by simp [demoFault])

/-! ## Witnesses: inputs that meet the hypotheses of the obligations -/

theorem witness_DecodeInvertsEncode :
    Instr.wf (.tget 510) = true ∧ decode 0x210001FE00000000 = .instr (.tget 510) ∧
    (0x210001FE00000000#64 ≠ 0x210001FD00000000#64 ∧ decode 0x210001FD00000000 = .instr (.tget 509)) := by decide

theorem witness_SelectedRowIsDecoded :
    ⟨"TGET", 0x2100000000000000, 0xFFFFFE00FFFFFFFF⟩ ∈ opcodeTable ∧
    OpcodeRow.selects ⟨"TGET", 0x2100000000000000, 0xFFFFFE00FFFFFFFF⟩ 0x210001FE00000000 = true ∧
    OpcodeRow.selects ⟨"TGET", 0x2100000000000000, 0xFFFFFE00FFFFFFFF⟩ 0x210001FF00000000 = false := by decide

theorem witness_IllegalWordsRaiseIllegalCommand :
    (∀ row ∈ opcodeTable, row.selects 0#64 = false) ∧ State.reset.phase ≠ .fault ∧
    (∀ row ∈ opcodeTable, row.selects 0x210001FF00000000#64 = false) ∧ (inPhase .fault).phase = .fault := by decide

theorem witness_StepRunsTheDecodedCommand :
    ((demoFault [.command 0, .rst]).port = .command 0 :: [.rst] ∧
      ({ State.reset with port := [.command 0x210001FF00000000] } : State).port = .command 0x210001FF00000000 :: []) ∧
    (State.reset.withFetchWord 64 0x3000000000000000).port = .command 0x3000000000000000 :: [] ∧
    decode 0x3000000000000000 = .instr .cgen ∧ decode (BitVec.ofNat 64 0x5101009700000000) = .instr (.dbyte 0x97 true) := by
  decide

theorem witness_StepIdlesAndResets :
    State.reset.port = [] ∧ (demoFault [.rst, .command 0]).port = .rst :: [.command 0] := by decide

theorem witness_FrontEndChecksInOrder :
    decode 0x0100000000000000 = .instr .srst ∧
    (decode 0x1000000000000000 ≠ .instr .srst ∧ (inPhase .fault).phase = .fault) ∧
    (decode 0x210001FF00000000 = .illegal .nilIndex 0x21 ∧ State.reset.phase ≠ .fault) ∧
    (decode 0x4200000000000000 = .instr .cend ∧ Instr.cend ≠ .srst ∧ (inPhase .done).phase ≠ .fault ∧
      transition (inPhase .done).phase .cend = none) := by decide

theorem witness_PhaseMovesAsTheTableSays :
    (Instr.tbuild ≠ .srst ∧ (inPhase .fault).phase = .fault) ∧
    (transition demoIdle.phase .tbuild = some .tree ∧ exec .tbuild demoIdle = .next demoTree) ∧
    (transition (inPhase .decode).phase (.dbyte 0 true) = some .done) ∧
    ((inPhase .done).phase ≠ .fault ∧ transition (inPhase .done).phase (.fget 0) = none) :=
  ⟨by decide, ⟨by decide, test_tbuild⟩, by decide, by decide⟩

theorem witness_FaultPhaseIgnoresAllButSrst :
    (inPhase .fault).phase = .fault ∧ (0x0100000000000001#64 : CmdWord) ≠ 0x0100000000000000#64 := by decide

/-- A word with each opcode and a reserved bit set, in a phase that is not `FAULT` (for the `illegalWhen` clauses), and
a phase that lists no command but `SRST` (for the `outOfPhase` clauses). -/
theorem witness_illegalWhen_and_outOfPhase :
    (wordOP 0x0100000000000001 = 0x01 ∧ reservedZ 0x0100000000000001) ∧
    (wordOP 0x1001000000000000 = 0x10 ∧ reservedZ 0x1001000000000000) ∧
    (wordOP 0x1100010000000005 = 0x11 ∧ reservedSI 0x1100010000000005) ∧
    (wordOP 0x1200006100000001 = 0x12 ∧ reservedS 0x1200006100000001) ∧
    (wordOP 0x2000800000000000 = 0x20 ∧ reservedZ 0x2000800000000000) ∧
    (wordOP 0x2100020000000000 = 0x21 ∧ reservedN 0x2100020000000000) ∧
    (wordOP 0x210001FF00000000 = 0x21 ∧ reservedN 0x210001FF00000000) ∧
    (wordOP 0x3000000080000000 = 0x30 ∧ reservedZ 0x3000000080000000) ∧
    (wordOP 0x3100010000000000 = 0x31 ∧ reservedS 0x3100010000000000) ∧
    (wordOP 0x4080000000000000 = 0x40 ∧ reservedZ 0x4080000000000000) ∧
    (wordOP 0x4100010000000000 = 0x41 ∧ reservedS 0x4100010000000000) ∧
    (wordOP 0x4200000000000001 = 0x42 ∧ reservedZ 0x4200000000000001) ∧
    (wordOP 0x5000000800000000 = 0x50 ∧ reservedT 0x5000000800000000) ∧
    (wordOP 0x5102000000000000 = 0x51 ∧ reservedBL 0x5102000000000000) ∧
    State.reset.phase ≠ .fault ∧ (inPhase .fault).phase = .fault ∧ (inPhase .done).phase ≠ .fault ∧
    (inPhase .done).phase ∉ [Phase.idle, .tree, .codes, .comp, .decode] := by
  unfold reservedZ reservedS reservedSI reservedN reservedT reservedBL
  refine ⟨?_, ?_, ?_, ?_, ?_, ?_, ?_, ?_, ?_, ?_, ?_, ?_, ?_, ?_, ?_⟩ <;> decide

theorem witness_SrstResetsEverything :
    wordOP 0x0100000000000001 = 0x01 ∧ reservedZ 0x0100000000000001 ∧ (inPhase .fault).phase = .fault := by
  unfold reservedZ
  decide

theorem witness_FclrEmptiesTheTable : demoIdle.phase = .idle := by decide
theorem witness_FsetWritesOneCount : demoIdle.phase = .idle := by decide
theorem witness_FgetReadsOneCount :
    State.reset.phase ∈ [Phase.idle, .tree, .codes, .comp, .decode] ∧
    (inPhase .decode).phase ∈ [Phase.idle, .tree, .codes, .comp, .decode] := by decide

/-- The same counts, set in another order and with a key set and removed again (V-TB9). -/
def demoIdleOther : State :=
  ((((((((State.reset.writeFreq 102 1).writeFreq 101 1).writeFreq 122 9).writeFreq 100 1).writeFreq 99 1).writeFreq 98
    2).writeFreq 97 4).writeFreq 122 0)

theorem demoIdleOther_eq : demoIdleOther = demoIdle := by decide +kernel

theorem witness_FrequencyTableIsItsReads :
    Table.wf 256 freqDefault demoIdle.freq = true ∧ Table.wf 256 freqDefault demoIdleOther.freq = true ∧
      ∀ k, demoIdle.readFreq k = demoIdleOther.readFreq k :=
  ⟨by decide +kernel, by decide +kernel, fun k => by rw [demoIdleOther_eq]⟩

theorem witness_FtabLoadsTheTable :
    State.reset.phase = .idle ∧ (([(0x61, 4), (0x62, 0)] : List (Sym × Count)).map Prod.fst).Nodup ∧
    Table.wf 256 freqDefault State.reset.freq = true ∧
    ([(0x62, 0), (0x61, 4)] : List (Sym × Count)).Perm [(0x61, 4), (0x62, 0)] := by decide

theorem reset_empty (k : Sym) : State.reset.readFreq k = 0 := rfl
theorem demo_has_key : ∃ k, demoIdle.readFreq k ≠ 0 := ⟨0x61, by decide +kernel⟩

theorem witness_BuildFollowsTheMergeRule :
    (∀ k, State.reset.readFreq k = 0) ∧ ∃ k, demoIdle.readFreq k ≠ 0 := ⟨reset_empty, demo_has_key⟩
theorem witness_BuildGivesATree : demoIdle.build = some demoBuilt := demo_build
theorem witness_WeightsAreExact :
    demoIdle.build = some demoBuilt ∧ allocIn demoBuilt.freq demoBuilt.nint 260 = true ∧
      allocIn demoBuilt.freq demoBuilt.nint 97 = true := ⟨demo_build, by decide +kernel, by decide +kernel⟩

theorem witness_OneKeyGivesOneLeaf : oneIdle.readFreq 120 ≠ 0 ∧ ∀ j, j ≠ 120 → oneIdle.readFreq j = 0 := by
  refine ⟨by decide +kernel, fun j hj => ?_⟩
  have h : oneIdle.freq = Table.write freqDefault [] (120#8).toNat 11 := by decide +kernel
  rw [State.readFreq, h]
  exact (freqOf_write _ _ _ _).trans ((if_neg hj).trans rfl)

theorem witness_EmptyTableFaults : State.reset.phase = .idle ∧ ∀ k, State.reset.readFreq k = 0 :=
  ⟨rfl, reset_empty⟩

/-- Two runs from equal tables, the second inside `DSTART` and over an arena with stale entries. -/
theorem witness_BuildIsDeterministic :
    let d : State := { demoIdleOther with node := [(260, ⟨77, 1, 2⟩), (300, ⟨5, 3, 4⟩)] }
    demoIdle.phase = .idle ∧ d.phase = .idle ∧ (∀ k, demoIdle.readFreq k = d.readFreq k) ∧
    exec .tbuild demoIdle = .next demoTree ∧ demoTree.phase = .tree ∧
    exec (.dstart 5) d = .next (resultOf (exec (.dstart 5) d)) ∧
    allocIn demoIdle.freq demoTree.nint 260 = true ∧ allocIn demoIdle.freq demoTree.nint 97 = true := by
  refine ⟨rfl, by decide +kernel, fun k => ?_, test_tbuild, rfl, eq_resultOf (by decide +kernel), by decide +kernel,
    by decide +kernel⟩
  change freqOf demoIdle.freq k = freqOf demoIdleOther.freq k
  rw [demoIdleOther_eq]

theorem witness_TbuildBuildsTheTree :
    (demoIdle.phase = .idle ∧ ∃ k, demoIdle.readFreq k ≠ 0) ∧
    (State.reset.phase = .idle ∧ ∀ k, State.reset.readFreq k = 0) := ⟨⟨rfl, demo_has_key⟩, rfl, reset_empty⟩

theorem witness_TgetReadsOneNode :
    (510#9 ≠ 511#9) ∧ demoTree.phase ∈ [Phase.tree, .codes, .comp, .decode] ∧ demoTree.alloc 260 = true ∧
    demoTree.alloc 261 = false ∧ demoTree.alloc 0x61 = true ∧ demoTree.alloc 0x67 = false := by decide +kernel

theorem witness_CgenWritesThePaths :
    (demoTree.cfg.legal = true ∧ demoTree.phase = .tree ∧ demoTree.treeOk ∧
      (∀ k p, demoTree.readFreq k ≠ 0 → isCodeWord demoTree.node demoTree.root k p →
        p.length ≤ demoTree.cfg.maxLen) ∧
      demoTree.readFreq 0x67 = 0 ∧ demoTree.readFreq 0x63 ≠ 0 ∧
      isCodeWord demoTree.node demoTree.root 0x63 [false, true, false]) ∧
    (let s : State := { demoTree with cfg := ⟨2⟩ }
     ∃ k p, s.cfg.legal = true ∧ s.phase = .tree ∧ s.treeOk ∧ s.readFreq k ≠ 0 ∧ isCodeWord s.node s.root k p ∧ s.cfg.maxLen < p.length ∧
      ∀ j q, s.readFreq j ≠ 0 → isCodeWord s.node s.root j q → s.cfg.maxLen < q.length → k.toNat ≤ j.toNat) := by
  refine ⟨⟨by decide +kernel, rfl, demoTree_treeOk, demo_cgen_runs.1, by decide +kernel, by decide +kernel, ?_⟩, ?_⟩
  · unfold isCodeWord
    decide +kernel
  · intro s
    have htree : s.treeOk := demoTree_treeOk
    rcases cgen_spec s rfl htree with ⟨k, p, h1, h2, h3, h4, _⟩ | ⟨_, c, hx, _⟩
    · exact ⟨k, p, rfl, rfl, htree, h1, h2, h3, h4⟩
    · have herr : (resultOf (execCgen s)).err = 0x02 := by decide +kernel
      rw [hx] at herr
      have hzero : s.err = 0 := by decide +kernel
      simp only [resultOf, State.setPhase_err, State.setCode_err, hzero] at herr
      exact absurd herr (by decide)

theorem witness_EveryKeyHasOneCodeWord : demoTree.treeOk ∧ demoTree.readFreq 0x61 ≠ 0 :=
  ⟨demoTree_treeOk, by decide +kernel⟩

theorem witness_CodeTableProperties :
    demoTree.cfg.legal = true ∧ demoTree.phase = .tree ∧ demoTree.treeOk ∧ exec .cgen demoTree = .next demoCodes ∧
    demoCodes.phase = .codes ∧ (0x61#8 ≠ 0x62#8 ∧ demoCodes.readFreq 0x61 ≠ 0 ∧ demoCodes.readFreq 0x62 ≠ 0) ∧
    2 ≤ demoCodes.nsym.toNat ∧ 255 ≤ (zeros 255).length :=
  ⟨by decide, rfl, demoTree_treeOk, test_cgen, by decide +kernel, by decide +kernel, by decide +kernel, by
    rw [zeros, List.length_replicate]⟩

theorem witness_NoCodeWordLongerThan57 :
    demoIdle.phase = .idle ∧ exec .tbuild demoIdle = .next demoTree ∧ demoTree.phase = .tree ∧
    demoTree.readFreq 0x63 ≠ 0 ∧ isCodeWord demoTree.node demoTree.root 0x63 [false, true, false] ∧
    57 ≤ demoTree.cfg.maxLen :=
  ⟨rfl, test_tbuild, rfl, by decide +kernel, by unfold isCodeWord; decide +kernel, by decide⟩

theorem witness_CgetReadsOneCodeWord :
    demoCodes.phase ∈ [Phase.codes, .comp] ∧ demoComp.phase ∈ [Phase.codes, .comp] ∧
    exec (.cget 0x63) demoCodes = .next (resultOf (exec (.cget 0x63) demoCodes)) ∧
    (demoCodes.cfg.legal = true ∧ CodeOk demoCodes ∧ demoCodes.readFreq 0x67 = 0 ∧
      (demoCodes.readCode 0x67).len = 0) ∧
    (demoCodes.treeOk ∧ demoCodes.readFreq 0x62 ≠ 0 ∧ isCodeWord demoCodes.node demoCodes.root 0x62 (zeros 2)) :=
  ⟨by decide +kernel, by decide +kernel, eq_resultOf (by decide +kernel),
    ⟨by decide +kernel, demo_cgen_runs.2, by decide +kernel, by decide +kernel⟩,
    demoCodes_treeOk, by decide +kernel, by unfold isCodeWord; decide +kernel⟩

theorem witness_PackingIsMsbFirst : [false, false, false, false, true, false, true, true].length = 8 := by decide
theorem witness_CstartOpensTheStream : demoCodes.phase = .codes := by decide +kernel
theorem witness_CputAppendsOneCodeWord :
    (demoComp.phase = .comp ∧ (demoComp.readCode 0x67).len = 0) ∧ (demoComp.readCode 0x61).len ≠ 0 := by decide +kernel
theorem witness_CendClosesTheStream :
    demoComp.phase = .comp ∧ ([] : BitSeq).length ≤ 7 ∧ (zeros 7).length ≤ 7 := by decide +kernel

/-- Data "ac" and its code words. -/
theorem demo_words (s : State) (h1 : s.freq = demoBuilt.freq) (h2 : s.node = demoBuilt.node) (h3 : s.root = demoBuilt.root) :
    List.Forall₂ (fun b p => s.readFreq b ≠ 0 ∧ isCodeWord s.node s.root b p) [0x61, 0x63]
      [[true, true], [false, true, false]] := by
  unfold State.readFreq isCodeWord
  rw [h1, h2, h3]
  exact .cons (by decide +kernel) (.cons (by decide +kernel) .nil)

theorem witness_CompressedStreamIsTheCodeWords :
    demoCodes.cfg.legal = true ∧ demoCodes.phase = .codes ∧ demoCodes.treeOk ∧ CodeOk demoCodes ∧
    List.Forall₂ (fun b p => demoCodes.readFreq b ≠ 0 ∧ isCodeWord demoCodes.node demoCodes.root b p) [0x61, 0x63]
      [[true, true], [false, true, false]] :=
  ⟨by decide +kernel, by decide +kernel, demoCodes_treeOk, demo_cgen_runs.2,
    demo_words _ (by decide +kernel) (by decide +kernel) (by decide +kernel)⟩

theorem witness_DstartOpensTheStream :
    (demoIdle.phase = .idle ∧ ∃ k, demoIdle.readFreq k ≠ 0) ∧
    (State.reset.phase = .idle ∧ ∀ k, State.reset.readFreq k = 0) := ⟨⟨rfl, demo_has_key⟩, rfl, reset_empty⟩

theorem witness_CorruptTreeIsUnreachable :
    demoIdle.build = some demoBuilt ∧ demoIdle.err ≠ 0x03 ∧ exec (.dstart 7) demoIdle = .next demoDecode :=
  ⟨demo_build, by decide, test_dstart⟩

theorem witness_WalkStepOfAnInternalRoot :
    256 ≤ demoDecode.root.toNat ∧ demoDecode.dcur ≠ 511 ∧ 256 ≤ (demoDecode.setDcur 256).root.toNat ∧
    (demoDecode.setDcur 256).dcur ≠ 511 := by decide +kernel
theorem witness_WalkStepOfAOneLeafTree : oneDecode.root.toNat < 256 := by decide +kernel

theorem witness_DbyteWalksTheValidBits :
    (demoDecode.phase = .decode ∧ demoDecode.treeOk ∧ demoDecode.cursorOk) ∧
    (oneDecode.phase = .decode ∧ oneDecode.treeOk ∧ oneDecode.cursorOk) :=
  ⟨⟨by decide +kernel, demoDecode_treeOk, Or.inl (by decide +kernel)⟩,
    by decide +kernel, oneDecode_treeOk, Or.inl (by decide +kernel)⟩

theorem witness_DbyteFrame :
    demoDecode.phase = .decode ∧ demoDecode.treeOk ∧ demoDecode.cursorOk ∧
    exec (.dbyte 0xFD true) demoDecode = .next (resultOf (exec (.dbyte 0xFD true) demoDecode)) ∧
    (resultOf (exec (.dbyte 0xFD false) demoDecode)).phase ≠ .fault :=
  ⟨by decide +kernel, demoDecode_treeOk, Or.inl (by decide +kernel), eq_resultOf (by decide +kernel), by decide +kernel⟩

/-- At the root, and inside the tree with `01` already taken. -/
theorem witness_DbyteEmitsWholeCodeWords :
    (demoDecode.phase = .decode ∧ demoDecode.treeOk ∧ 256 ≤ demoDecode.root.toNat ∧
      follow demoDecode.node demoDecode.root [] = some demoDecode.dcur ∧ 256 ≤ demoDecode.dcur.toNat) ∧
    (let s := demoDecode.setDcur 256
     s.phase = .decode ∧ s.treeOk ∧ 256 ≤ s.root.toNat ∧ follow s.node s.root [false, true] = some s.dcur ∧
      256 ≤ s.dcur.toNat) :=
  ⟨⟨by decide +kernel, demoDecode_treeOk, by decide +kernel, by decide +kernel, by decide +kernel⟩,
    by decide +kernel, demoDecode_treeOk, by decide +kernel, by decide +kernel, by decide +kernel⟩

/-- All valid bits 0; the first valid 1 at the first and at the last place. -/
theorem witness_DbyteUnderAOneLeafTree :
    oneDecode.phase = .decode ∧ oneDecode.root.toNat < 256 ∧ oneDecode.dcur = oneDecode.root ∧
    (unpack8 0x1F).take (validBits true oneDecode.tbc) = zeros (validBits true oneDecode.tbc) ∧
    (unpack8 0x00).take (validBits false oneDecode.tbc) = zeros (validBits false oneDecode.tbc) ∧
    (0 < validBits true oneDecode.tbc ∧ (unpack8 0x80).take (0 + 1) = zeros 0 ++ [true]) ∧
    (7 < validBits false oneDecode.tbc ∧ (unpack8 0x01).take (7 + 1) = zeros 7 ++ [true]) := by decide +kernel

theorem witness_DecompressionInvertsCompression :
    demoIdle.cfg.legal = true ∧ demoIdle.phase = .idle ∧ demoIdleOther.phase = .idle ∧
    (∀ k, demoIdle.readFreq k = demoIdleOther.readFreq k) ∧ ([0x61, 0x63] : List Byte) ≠ [] ∧
    (∀ b ∈ ([0x61, 0x63] : List Byte), demoIdle.readFreq b ≠ 0) ∧
    execAll [.tbuild, .cgen] demoIdle = .next demoCodes ∧ demoCodes.phase = .codes :=
  ⟨by decide, rfl, by decide +kernel, fun k => by rw [demoIdleOther_eq], by decide, by decide +kernel,
    eq_next_of (by decide +kernel), by decide +kernel⟩

/-- The default instance, and one whose `MAXLEN` the code words of "aba" just meet. -/
theorem witness_RoundTripFromReset :
    (Fresh State.reset ∧ State.reset.cfg.legal = true ∧ 57 ≤ State.reset.cfg.maxLen ∧
      ([0x61, 0x62, 0x61] : List Byte) ≠ [] ∧ ∀ b, ([0x61, 0x62, 0x61] : List Byte).count b < 2 ^ 32) ∧
    (Fresh (State.resetOf ⟨1⟩) ∧ (State.resetOf ⟨1⟩).cfg.legal = true ∧
      ∃ t, execAll (tableCommands [0x61, 0x62, 0x61]) (State.resetOf ⟨1⟩) = .next t ∧ t.phase = .codes) :=
  ⟨⟨rfl, by decide, by decide, by decide, fun _ => Nat.lt_of_le_of_lt List.count_le_length (by decide)⟩,
    rfl, by decide, _, eq_resultOf (by decide +kernel), by decide +kernel⟩

theorem witness_ReadBackChangesNothingElse :
    (∃ k, Instr.fget 0x61 = .fget k) ∧ transition demoIdle.phase (.fget 0x61) ≠ none ∧
    exec (.fget 0x61) demoIdle = .next (resultOf (exec (.fget 0x61) demoIdle)) :=
  ⟨⟨_, rfl⟩, by decide, eq_resultOf (by decide +kernel)⟩

/-- `TBUILD` meets every clause but that of the tree, `FSET` that one. -/
theorem witness_EachRegisterHasItsWriters :
    (Instr.tbuild ≠ .srst ∧ exec .tbuild demoIdle = .next demoTree ∧ demoTree.phase ≠ .fault) ∧
    (Instr.fset 0x61 7 ≠ .srst ∧
      exec (.fset 0x61 7) demoIdle = .next (resultOf (exec (.fset 0x61 7) demoIdle))) :=
  ⟨⟨by decide, test_tbuild, by decide⟩, by decide, eq_resultOf (by decide +kernel)⟩

theorem witness_OwnFaultsOfEachCommand :
    let t := resultOf (exec (.dbyte 0xFD true) demoDecode)
    demoDecode.phase ≠ .fault ∧ exec (.dbyte 0xFD true) demoDecode = .next t ∧ t.phase = .fault :=
  ⟨by decide +kernel, eq_resultOf (by decide +kernel), by decide +kernel⟩

theorem witness_OutputOfEachCommandIsBounded :
    (Inv demoComp ∧ Instr.cput 0x61 ≠ .srst ∧
      exec (.cput 0x61) demoComp = .next (resultOf (exec (.cput 0x61) demoComp))) ∧
    (Inv demoComp ∧ Instr.cend ≠ .srst ∧ exec .cend demoComp = .next (resultOf (exec .cend demoComp))) ∧
    (Inv demoDecode ∧ Instr.dbyte 0xFD false ≠ .srst ∧
      exec (.dbyte 0xFD false) demoDecode = .next (resultOf (exec (.dbyte 0xFD false) demoDecode))) ∧
    (Inv demoDecode ∧ Instr.fget 0x61 ≠ .srst ∧
      exec (.fget 0x61) demoDecode = .next (resultOf (exec (.fget 0x61) demoDecode))) :=
  ⟨⟨demoComp_inv, by decide, eq_resultOf (by decide +kernel)⟩, ⟨demoComp_inv, by decide, eq_resultOf (by decide +kernel)⟩,
    ⟨demoDecode_inv, by decide, eq_resultOf (by decide +kernel)⟩, demoDecode_inv, by decide,
    eq_resultOf (by decide +kernel)⟩

/-- The demo arena with a stale entry left above the allocated ones. -/
def staleNode : Table Node := demoBuilt.node ++ [(300, ⟨5, 3, 4⟩)]
/-- The demo tree with that entry, and with a code table no `CGEN` has written; its host sends `CGEN`. -/
def staleTree : State := { demoTree with node := staleNode, code := [(103, ⟨4, 9⟩)] }

theorem stale_build :
    ({ demoIdle with node := [(300, ⟨5, 3, 4⟩)] } : State).build = some { demoBuilt with node := staleNode } := by
  decide +kernel

/-- A state in phase `TREE` with the demo table and no fault meets the invariant if its tables do. -/
theorem tree_inv (s : State) (hp : s.phase = .tree) (hc : s.cfg.legal = true)
    (h1 : Table.wf 256 freqDefault s.freq = true) (h2 : Table.wf 511 nodeDefault s.node = true)
    (h3 : Table.wf 256 codeDefault s.code = true) (h4 : s.err = 0) (h5 : s.einfo = 0) (h6 : s.pbits = 0) (h7 : s.pcnt = 0)
    (ht : s.treeOk) : Inv s where
  config := hc
  freqWf := h1
  nodeWf := h2
  codeWf := h3
  errIffFault := by simp [hp, h4]
  errCode := Or.inl ⟨h4, h5⟩
  pending := by rw [h6, h7]; decide
  tree := fun _ => ht
  code := fun h => absurd h (by simp [hp])
  cursor := fun h => absurd h (by simp [hp])

theorem witness_StaleEntriesAreUnobservable :
    let s := demoTree.withFetchWord 64 0x3000000000000000
    let t := staleTree.withFetchWord 64 0x3000000000000000
    Inv s ∧ Inv t ∧ SameView s t ∧ s ≠ t ∧ step s = .next demoCodes := by
  have hnode : ∀ i, allocIn demoTree.freq demoTree.nint i = true → nodeOf staleNode i = nodeOf demoTree.node i := by
    decide +kernel
  refine ⟨tree_inv _ rfl rfl demo_freqWf (by decide +kernel) (by decide +kernel) rfl rfl rfl rfl demoTree_treeOk,
    tree_inv _ rfl rfl demo_freqWf (by decide +kernel) (by decide +kernel) rfl rfl rfl rfl
      (build_leafSetMatches _ _ stale_build).1,
    ⟨rfl, fun i h => hnode i h, fun h => absurd h (by decide)⟩, by decide +kernel, eq_next_of (by decide +kernel)⟩

theorem witness_OutputIsNeverTakenBack :
    Instr.cend ≠ .srst ∧ exec .cend demoComp = .next (resultOf (exec .cend demoComp)) :=
  ⟨by decide, eq_resultOf (by decide +kernel)⟩

theorem witness_StepKeepsTheInstance :
    step (State.reset.withFetchWord 64 0x1000000000000000) = .next State.reset :=
  eq_next_of (by decide +kernel)

/-- A fault that stays, and one that a reset clears. -/
theorem witness_FirstFaultIsFinal :
    (Inv (demoFault [.command 0]) ∧ (demoFault [.command 0]).err ≠ 0 ∧
      step (demoFault [.command 0]) = .next (demoFault [])) ∧
    (Inv (demoFault []) ∧ (demoFault []).err ≠ 0 ∧ step (demoFault []) = .next (demoFault [])) ∧
    (Inv (demoFault [.rst]) ∧ (demoFault [.rst]).err ≠ 0 ∧ step (demoFault [.rst]) = .next State.reset) ∧
    (Inv (demoFault [.command 0x0100000000000000]) ∧ (demoFault [.command 0x0100000000000000]).err ≠ 0 ∧
      step (demoFault [.command 0x0100000000000000]) = .next State.reset) :=
  ⟨⟨demoFault_inv _, by decide, eq_next_of (by decide +kernel)⟩,
    ⟨demoFault_inv _, by decide, eq_next_of (by decide +kernel)⟩,
    ⟨demoFault_inv _, by decide, eq_next_of (by decide +kernel)⟩,
    demoFault_inv _, by decide, eq_next_of (by decide +kernel)⟩

theorem witness_InvariantHoldsAtReset : Config.legal ⟨1⟩ = true ∧ Config.legal ⟨63⟩ = true := by decide

theorem witness_StepKeepsTheInvariant :
    Inv (demoTree.withFetchWord 64 0x3000000000000000) ∧
      step (demoTree.withFetchWord 64 0x3000000000000000) = .next demoCodes :=
  ⟨tree_inv _ rfl rfl demo_freqWf (by decide +kernel) (by decide +kernel) rfl rfl rfl rfl demoTree_treeOk,
    eq_next_of (by decide +kernel)⟩

theorem witness_EveryStepCompletes : Inv (demoFault [.command 0]) ∧ Inv demoDecode :=
  ⟨demoFault_inv _, demoDecode_inv⟩

/-- The demo table; 1000 times `'x'`, the source's own example; and two tables that read alike. -/
theorem witness_SourcePropertiesOfThePass :
    (demoIdle.cfg.legal = true ∧ demoIdle.phase = .idle ∧ execAll [.tbuild, .cgen] demoIdle = .next demoCodes ∧
      demoCodes.phase = .codes) ∧
    (Fresh (State.resetOf ⟨1⟩) ∧ (State.resetOf ⟨1⟩).cfg.legal = true ∧ 1 ≤ 1000 ∧ 1000 < 2 ^ 32) ∧
    (demoIdle.phase = .idle ∧ demoIdleOther.phase = .idle ∧ (∀ k, demoIdle.readFreq k = demoIdleOther.readFreq k) ∧
      exec .tbuild demoIdle = .next demoTree ∧ demoTree.phase = .tree ∧
      exec (.dstart 7) demoIdleOther = .next (resultOf (exec (.dstart 7) demoIdleOther))) :=
  ⟨⟨by decide, by decide, eq_next_of (by decide +kernel), by decide +kernel⟩, ⟨rfl, by decide, by decide, by decide⟩,
    by decide, by decide, fun k => by rw [demoIdleOther_eq], test_tbuild, by decide +kernel,
    eq_resultOf (by decide +kernel)⟩

end Sys2Proof.Tests
end

section
/-! SUPPORT. The commands of a whole pass, each on the state the one before left (rules R192, R193): loading the
counts, the tree that `TBUILD` and `DSTART` share, the code table of `CGEN`, and the two streams. -/

namespace Sys2Proof.Machine

/-! ## Loading the counts -/

namespace Fresh
variable {s : State}

theorem phase (h : Fresh s) : s.phase = .idle := congrArg State.phase h
theorem err (h : Fresh s) : s.err = 0 := congrArg State.err h
theorem freq (h : Fresh s) : s.freq = [] := congrArg State.freq h
theorem out (h : Fresh s) : s.out = [] := congrArg State.out h

end Fresh

theorem fresh_resetState (s : State) : Fresh s.resetState := rfl

/-- A state that came fresh from reset and has been loaded with the counts of a sequence: still `IDLE`, no fault, no
output, and `FREQ` reads the number of occurrences (rules R84, R192 step 2). -/
structure Loaded (data : List Byte) (s c : State) : Prop where
  phase : c.phase = .idle
  err : c.err = 0
  out : c.out = []
  cfg : c.cfg = s.cfg
  counts : ∀ k, c.readFreq k = BitVec.ofNat 32 (data.count k)

/-- The entries that `loadCommands` sets: each symbol that occurs, with its count. -/
def countEntries (data : List Byte) : List (Sym × Count) :=
  (allSyms.filter (fun k => data.contains k)).map (fun k => (k, BitVec.ofNat 32 (data.count k)))

theorem loadCommands_eq (data : List Byte) :
    loadCommands data = (countEntries data).map (fun e => .fset e.1 e.2) := by
  simp [loadCommands, countEntries, Function.comp_def]

theorem countEntries_nodup (data : List Byte) : ((countEntries data).map Prod.fst).Nodup := by
  simpa [countEntries, Function.comp_def] using allSyms_nodup.filter _

/-- A symbol that occurs has its count among the entries; any other has none, and its count is 0. -/
theorem lookup_countEntries (data : List Byte) (k : Sym) :
    ((countEntries data).lookup k).getD 0 = BitVec.ofNat 32 (data.count k) := by
  by_cases hk : k ∈ data
  · have hsome : (countEntries data).lookup k = some (BitVec.ofNat 32 (data.count k)) :=
      List.lookup_graph _ (List.mem_filter.mpr ⟨mem_allSyms k, by simpa using hk⟩)
    rw [hsome, Option.getD_some]
  · have hnone : (countEntries data).lookup k = none := by
      rw [List.lookup_eq_none_iff]
      intro p hm
      obtain ⟨a, ha, rfl⟩ := List.mem_map.mp hm
      simp only [bne_iff_ne]
      rintro rfl
      exact hk (by simpa using (List.mem_filter.mp ha).2)
    rw [hnone, List.count_eq_zero_of_not_mem hk]
    rfl

theorem execAll_loadCommands (data : List Byte) {s : State} (hs : Fresh s) :
    ∃ c, execAll (loadCommands data) s = .next c ∧ Loaded data s c := by
  obtain ⟨f, hrun, _, hread⟩ := execAll_fsets (countEntries data) s hs.phase
  refine ⟨{ s with freq := f }, by rw [loadCommands_eq, hrun], hs.phase, hs.err, hs.out, rfl, fun k => ?_⟩
  have hk := hread (countEntries_nodup data) k
  rw [hs.freq] at hk
  exact hk.trans (lookup_countEntries data k)

/-- A count below `2^32` is 0 for the symbols that do not occur and for no other. -/
theorem ofNat_count_ne_zero (data : List Byte) (k : Sym) (hc : data.count k < 2 ^ 32) :
    BitVec.ofNat 32 (data.count k) ≠ 0 ↔ k ∈ data := by
  rw [← List.count_pos_iff, Ne, ← BitVec.toNat_inj, BitVec.toNat_ofNat, Nat.mod_eq_of_lt hc]
  exact Nat.pos_iff_ne_zero.symm

theorem Loaded.readFreq_ne_zero {data : List Byte} {s c : State} (h : Loaded data s c)
    (hcount : ∀ b, data.count b < 2 ^ 32) (k : Sym) : c.readFreq k ≠ 0 ↔ k ∈ data := by
  rw [h.counts, ofNat_count_ne_zero data k (hcount k)]

/-! ## The tree of `build()` -/

/-- What `build()` makes of a state: it writes the tree's registers and the arena only, and the tree is the Huffman
tree of the counts (rules R23, R94, R96). -/
structure Built (s u : State) : Prop where
  frame : u = s.setTree u.node u.root u.nsym u.nint
  huffman : HuffmanTree s.freq u.node u.root u.nint
  tree : TreeOk s.freq u.node u.root u.nsym u.nint
  weight : (nodeOf u.node u.root).weight.toNat = totalCount s.freq

theorem built_of_build {s u : State} (h : s.build = some u) : Built s u := by
  rcases build_spec s with ⟨_, hn⟩ | ⟨_, nd, r, nsym, nint, hb, hh, ht, _, _, hw⟩
  · rw [hn] at h
    simp at h
  · rw [hb, Option.some.injEq] at h
    subst h
    exact ⟨rfl, hh, ht, hw⟩

theorem build_exists {s : State} {k : Sym} (hk : s.readFreq k ≠ 0) : ∃ u, s.build = some u := by
  rcases build_spec s with ⟨hnil, _⟩ | ⟨_, nd, r, nsym, nint, hb, _⟩
  · exact absurd ((keysOf_eq_nil _).mp hnil k) hk
  · exact ⟨_, hb⟩

namespace Built
variable {s u : State}

theorem freq (h : Built s u) : u.freq = s.freq := by rw [h.frame]; rfl
theorem cfg (h : Built s u) : u.cfg = s.cfg := by rw [h.frame]; rfl
theorem out (h : Built s u) : u.out = s.out := by rw [h.frame]; rfl
theorem err (h : Built s u) : u.err = s.err := by rw [h.frame]; rfl

theorem readFreq (h : Built s u) (k : Sym) : u.readFreq k = s.readFreq k := by
  simp only [State.readFreq, h.freq]

theorem treeOk (h : Built s u) : u.treeOk := by
  rw [State.treeOk, h.freq]
  exact h.tree

/-- No code word has more than 57 bits: the 58th edge would need a total count of `fib 60` (rule R97). -/
theorem codeWord_length_le (h : Built s u) (k : Sym) (p : BitSeq) (hp : isCodeWord u.node u.root k p) :
    p.length ≤ 57 := by
  unfold isCodeWord at hp
  split at hp
  · simp [hp]
  · by_contra hlong
    have hfib := h.huffman.fib_le p u.root k h.tree.rootAlloc hp
    have hmono : Nat.fib 60 ≤ Nat.fib (p.length + 2) := Nat.fib_mono (by omega)
    have hvalue : Nat.fib 60 = 1548008755920 := by norm_num
    have htotal := totalCount_le s.freq
    rw [h.weight] at hfib
    omega

end Built

/-! ## The same counts give the same tree -/

theorem allocIn_congr {f g : Table Count} (h : ∀ k, freqOf f k = freqOf g k) (nint : BitVec 8) (i : NodeIdx) :
    allocIn f nint i = allocIn g nint i := by
  simp only [allocIn, h]

theorem inTree_iff_alloc {s : State} (h : s.treeOk) (i : NodeIdx) : s.inTree i ↔ allocIn s.freq s.nint i = true :=
  TreeOk.reach_iff_alloc h i

/-- Tables that read alike build the same tree, whatever the arenas held before (rules R9(f), R102). -/
theorem Built.sameTree {c d t u : State} (ht : Built c t) (hu : Built d u)
    (hf : ∀ k, c.readFreq k = d.readFreq k) : SameTree t u := by
  have hkeys : keysOf c.freq = keysOf d.freq := keysOf_congr _ _ hf
  have hnsym : u.nsym = t.nsym := by
    apply BitVec.eq_of_toNat_eq
    rw [hu.tree.nsymCounts, ht.tree.nsymCounts, hkeys]
  have hnint : u.nint = t.nint := by
    apply BitVec.eq_of_toNat_eq
    have h1 := ht.tree.nintCounts
    have h2 := hu.tree.nintCounts
    rw [hnsym] at h2
    omega
  have hhuff : HuffmanTree c.freq u.node u.root t.nint := hnint ▸ hu.huffman.congr (fun k => (hf k).symm)
  refine ⟨(ht.huffman.root_unique hhuff).symm, hnsym, hnint, fun i => ?_, fun i hi => ?_⟩
  · rw [inTree_iff_alloc ht.treeOk, inTree_iff_alloc hu.treeOk, hnint, ht.freq, hu.freq, allocIn_congr hf]
  · have halloc := (inTree_iff_alloc ht.treeOk i).mp hi
    rw [ht.freq] at halloc
    exact (ht.huffman.node_unique hhuff _ (Nat.le_refl _) i (alloc_lt _ _ _ halloc) halloc).symm

/-- Equal trees give equal code words. -/
theorem SameTree.isCodeWord_iff {t u : State} (h : SameTree t u) (ht : t.treeOk) (k : Sym) (p : BitSeq) :
    isCodeWord u.node u.root k p ↔ isCodeWord t.node t.root k p := by
  rw [h.root]
  exact TreeOk.codeWord_agree ht (fun i hi => h.records i ((inTree_iff_alloc ht i).mpr hi)) k p

/-! ## `TBUILD`, `CGEN`, `DSTART` -/

theorem exec_tbuild (s : State) (hp : s.phase = .idle) :
    exec .tbuild s =
      match s.build with
      | none => .next (s.raise .emptyFrequencyTable 0)
      | some u => .next (u.setPhase .tree) :=
  frontEnd_run _ _ _ (by simp [hp]) (by simp [legal, hp])

/-- `TBUILD` that leaves `IDLE` for `TREE` has built the tree. -/
theorem built_of_tbuild {s t : State} (hp : s.phase = .idle) (h : exec .tbuild s = .next t) (ht : t.phase = .tree) :
    ∃ u, s.build = some u ∧ t = u.setPhase .tree := by
  rw [exec_tbuild s hp] at h
  cases hb : s.build with
  | none =>
    rw [hb] at h
    obtain rfl := Host.Outcome.next.inj h
    simp at ht
  | some u =>
    rw [hb] at h
    exact ⟨u, rfl, (Host.Outcome.next.inj h).symm⟩

/-- In `FAULT` every command but `SRST` is ignored (rule R173). -/
theorem exec_ignored (i : Instr) (s : State) (hi : i ≠ .srst) (hp : s.phase = .fault) : exec i s = .next s := by
  obtain ⟨run, hrun⟩ := exec_frontEnd i s hi
  rw [hrun, frontEnd_ignored i s run hp]

/-- `TBUILD` and `CGEN` that end in `CODES` have built the tree and written its code words. -/
theorem tables_of_codes {s t : State} (hp : s.phase = .idle) (h : execAll [.tbuild, .cgen] s = .next t)
    (ht : t.phase = .codes) :
    ∃ u c, s.build = some u ∧ t = (u.setCode c).setPhase .codes ∧ CodeOk t := by
  simp only [execAll, exec_tbuild s hp] at h
  cases hb : s.build with
  | none =>
    simp only [hb, exec_ignored .cgen _ (by simp) (State.raise_phase s _ _)] at h
    obtain rfl := Host.Outcome.next.inj h
    simp at ht
  | some u =>
    have htree : (u.setPhase .tree).treeOk := (built_of_build hb).treeOk
    have hcgen : exec .cgen (u.setPhase .tree) = execCgen (u.setPhase .tree) := rfl
    rcases cgen_spec (u.setPhase .tree) rfl htree with ⟨k, _, _, _, _, _, hrun⟩ | ⟨_, c, hrun, _, hcode⟩
    · simp only [hb, hcgen, hrun] at h
      obtain rfl := Host.Outcome.next.inj h
      simp at ht
    · simp only [hb, hcgen, hrun] at h
      obtain rfl := Host.Outcome.next.inj h
      exact ⟨u, c, rfl, rfl, hcode⟩

/-- `TBUILD` and `CGEN` end in `CODES` when no code word is longer than `MAXLEN` (rule R113). -/
theorem codes_of_short {s u : State} (hp : s.phase = .idle) (hb : s.build = some u)
    (hshort : ∀ k p, s.readFreq k ≠ 0 → isCodeWord u.node u.root k p → p.length ≤ s.cfg.maxLen) :
    ∃ t, execAll [.tbuild, .cgen] s = .next t ∧ t.phase = .codes := by
  have hbuilt := built_of_build hb
  have htree : (u.setPhase .tree).treeOk := hbuilt.treeOk
  have hcgen : exec .cgen (u.setPhase .tree) = execCgen (u.setPhase .tree) := rfl
  rcases cgen_spec (u.setPhase .tree) rfl htree with ⟨k, p, hk, hword, hlong, _⟩ | ⟨_, c, hrun, _⟩
  · have hlong' : u.cfg.maxLen < p.length := hlong
    have := hshort k p (hbuilt.readFreq k ▸ hk) hword
    rw [hbuilt.cfg] at hlong'
    omega
  · exact ⟨((u.setPhase .tree).setCode c).setPhase .codes, by simp only [execAll, exec_tbuild s hp, hb, hcgen, hrun],
      rfl⟩

/-! ## The compression stream -/

/-- `words` are the code words of the keys `data`, one for one (rules R111, R112). -/
def CodeWordsOf (s : State) (data : List Byte) (words : List BitSeq) : Prop :=
  List.Forall₂ (fun b p => s.readFreq b ≠ 0 ∧ isCodeWord s.node s.root b p) data words

theorem exec_cstart (s : State) (hp : s.phase = .codes) : exec .cstart s = .next ((s.setPending []).setPhase .comp) :=
  frontEnd_run _ _ _ (by simp [hp]) (by simp [legal, hp])

theorem exec_cend (s : State) (hp : s.phase = .comp) :
    exec .cend s = .next ((((s.emit s.cendBytes).setTbc s.pcnt).setPending []).setPhase .done) :=
  frontEnd_run _ _ _ (by simp [hp]) (by simp [legal, hp])

theorem pendingCount_toNat (q : BitSeq) (hq : q.length ≤ 7) : (pendingCount q).toNat = q.length := by
  rw [pendingCount, BitVec.toNat_ofNat]
  omega

/-- With the bytes of `CEND`, the valid bits of a payload are those of the whole bytes and the pending ones
(rules R124, R139). -/
theorem payloadBits_cendBytes (bytes : List Byte) (q : BitSeq) (hq : q.length ≤ 7) (s : State) :
    payloadBits (pendingCount q) (bytes ++ (s.setPending q).cendBytes) = bytes.flatMap unpack8 ++ q := by
  have hlen := pendingCount_toNat q hq
  have hpcnt : (s.setPending q).pcnt = pendingCount q := rfl
  by_cases h0 : pendingCount q = 0
  · have hnil : q = [] := List.length_eq_zero_iff.mp (by rw [← hlen, h0]; rfl)
    rw [State.cendBytes, if_pos (hpcnt.trans h0), h0, List.append_nil, payloadBits_whole, hnil, List.append_nil]
  · rw [State.cendBytes, if_neg (fun h => h0 (hpcnt.symm.trans h)), payloadBits_partial _ h0,
      State.setPending_pbits, unpack8_cend q hq, hlen, take_append_zeros]

/-- A compression stream over keys of the table emits a payload whose valid bits are the code words, one after
another (rules R121, R122, R124, R127). -/
theorem execAll_compress (data : List Byte) (words : List BitSeq) (s : State) (hp : s.phase = .codes)
    (hc : s.cfg.legal = true) (htree : s.treeOk) (hcode : CodeOk s)
    (hw : CodeWordsOf s data words) :
    ∃ payload tbc, payloadBits tbc payload = words.flatten ∧
      execAll (.cstart :: (data.map .cput ++ [.cend])) s =
        .next ((((s.emit payload).setTbc tbc).setPending []).setPhase .done) := by
  obtain ⟨bytes, q, hq, hbits, hrun⟩ := execAll_cputs data words ((s.setPending []).setPhase .comp) [] (by simp) hc rfl
    htree ⟨hcode.absent, hcode.present⟩ rfl rfl hw
  generalize hopen : ((s.setPending []).setPhase .comp).emit bytes = r at hrun
  have hphase : (r.setPending q).phase = .comp := by rw [← hopen]; rfl
  refine ⟨bytes ++ (r.setPending q).cendBytes, pendingCount q, ?_, ?_⟩
  · rw [payloadBits_cendBytes bytes q hq, hbits, List.nil_append]
  · simp only [execAll, exec_cstart s hp]
    rw [execAll_append _ _ _ _ hrun]
    simp only [execAll, exec_cend _ hphase]
    generalize (r.setPending q).cendBytes = final
    simp [← hopen, State.emit, State.setTbc, State.setPending, State.setPhase]

/-! ## The decompression stream -/

/-- Code words of at least one key have at least one bit. -/
theorem flatten_codeWords_ne_nil {s : State} {data : List Byte} {words : List BitSeq} (hne : data ≠ [])
    (hw : CodeWordsOf s data words) :
    words.flatten ≠ [] := by
  cases hw with
  | nil => exact absurd rfl hne
  | cons hbp _ =>
    have hlen := codeWord_ne_nil _ _ hbp.2
    intro hnil
    rw [List.flatten_cons, List.append_eq_nil_iff] at hnil
    simp [hnil.1] at hlen

/-- A decompression stream over a payload whose valid bits are the code words of a sequence emits the sequence and
ends in `DONE` (rules R136, R138, R142, R145). -/
theorem execAll_decompress (data : List Byte) (words : List BitSeq) (payload : List Byte) (tbc : BitVec 3)
    (s u : State) (hp : s.phase = .idle) (hb : s.build = some u) (hne : data ≠ [])
    (hw : CodeWordsOf u data words)
    (hbits : payloadBits tbc payload = words.flatten) :
    execAll (.dstart tbc :: decodeCommands payload) s =
      .next ((((u.setTbc tbc).setDcur u.root).emit data).setPhase .done) := by
  have htree : (((u.setTbc tbc).setDcur u.root).setPhase .decode).treeOk := (built_of_build hb).treeOk
  have hpayload : payload ≠ [] := by
    rintro rfl
    exact flatten_codeWords_ne_nil hne hw hbits.symm
  have hwalk := walk_codeWords data words (((u.setTbc tbc).setDcur u.root).setPhase .decode) htree rfl hw
  simp only [execAll, exec_dstart tbc s hp, hb]
  rw [decodeCommands_spec payload _ data hpayload rfl htree (Or.inl rfl) (by
    simp only [State.setPhase_tbc, State.setDcur_tbc, State.setTbc_tbc, hbits, hwalk]
    rfl)]
  rfl

/-! ## The round trip -/

/-- A whole compression pass whose table commands end in `CODES`: it ends well, and the valid bits of what it emitted
are the code words of the sequence (rules R192, R199). -/
theorem execAll_compressionPass {s t : State} {data : List Byte} (hs : Fresh s) (hc : s.cfg.legal = true)
    (hcount : ∀ b, data.count b < 2 ^ 32) (hrun : execAll (tableCommands data) s = .next t) (ht : t.phase = .codes) :
    ∃ c u words v, Loaded data s c ∧ c.build = some u ∧
      CodeWordsOf u data words ∧ execAll (compressionPass data) s = .next v ∧ passEndedWell v = true ∧
      payloadBits v.tbc v.out = words.flatten := by
  obtain ⟨c, hload, hc'⟩ := execAll_loadCommands data hs
  have htables : execAll [.tbuild, .cgen] c = .next t := (execAll_append _ _ _ _ hload).symm.trans hrun
  obtain ⟨u, codes, hb, rfl, hcode⟩ := tables_of_codes hc'.phase htables ht
  have hbuilt := built_of_build hb
  have hkeys : ∀ b ∈ data, u.readFreq b ≠ 0 := fun b hb => by
    rw [hbuilt.readFreq, hc'.readFreq_ne_zero hcount]
    exact hb
  obtain ⟨words, hwords⟩ := codeWords_exist u hbuilt.treeOk data hkeys
  have hcfg : u.cfg.legal = true := by rwa [hbuilt.cfg, hc'.cfg]
  obtain ⟨payload, tbc, hbits, hcomp⟩ := execAll_compress data words ((u.setCode codes).setPhase .codes) rfl hcfg
    hbuilt.treeOk hcode hwords
  have hpass : execAll (compressionPass data) s =
      execAll (.cstart :: (data.map .cput ++ [.cend])) ((u.setCode codes).setPhase .codes) := by
    rw [← execAll_append _ _ _ _ hrun, compressionPass]
    simp
  refine ⟨c, u, words, _, hc', hb, hwords, hpass.trans hcomp, ?_, ?_⟩
  · simp [passEndedWell, hbuilt.err, hc'.err]
  · simp [hbuilt.out, hc'.out, hbits]

/-- A whole decompression pass, with the counts of the compressing side, over a payload whose valid bits are the code
words of the sequence there: it ends well and has emitted the sequence (rules R193, R199). -/
theorem execAll_decompressionPass {s c u d : State} {data : List Byte} {words : List BitSeq} {payload : List Byte}
    {tbc : BitVec 3} (hd : Fresh d) (hne : data ≠ []) (hcount : ∀ b, data.count b < 2 ^ 32) (hc : Loaded data s c)
    (hb : c.build = some u)
    (hw : CodeWordsOf u data words)
    (hbits : payloadBits tbc payload = words.flatten) :
    ∃ w, execAll (decompressionPass data tbc payload) d = .next w ∧ passEndedWell w = true ∧ w.out = data := by
  obtain ⟨e, hload, he⟩ := execAll_loadCommands data hd
  obtain ⟨b, hbm⟩ := List.exists_mem_of_ne_nil data hne
  obtain ⟨v, hb'⟩ := build_exists ((he.readFreq_ne_zero hcount b).mpr hbm)
  have hbuilt := built_of_build hb
  have hbuilt' := built_of_build hb'
  have hread : ∀ k, c.readFreq k = e.readFreq k := fun k => (hc.counts k).trans (he.counts k).symm
  have hsame : SameTree u v := hbuilt.sameTree hbuilt' hread
  have hw' : CodeWordsOf v data words := by
    refine List.Forall₂.imp (fun k p hkp => ⟨?_, (hsame.isCodeWord_iff hbuilt.treeOk k p).mpr hkp.2⟩) hw
    rw [hbuilt'.readFreq, ← hread, ← hbuilt.readFreq]
    exact hkp.1
  have hpass : execAll (decompressionPass data tbc payload) d = execAll (.dstart tbc :: decodeCommands payload) e := by
    rw [decompressionPass, List.append_assoc, execAll_append _ _ _ _ hload]
    rfl
  refine ⟨_, hpass.trans (execAll_decompress data words payload tbc e v he.phase hb' hne hw' hbits), ?_, ?_⟩
  · simp [passEndedWell, hbuilt'.err, he.err]
  · simp [hbuilt'.out, he.out]

/-- From reset, a sequence round-trips where the table commands of its counts end in `CODES` (rules R9(a), R192,
R193). -/
theorem roundTrips_of_codes {s t : State} {data : List Byte} (hs : Fresh s) (hc : s.cfg.legal = true)
    (hne : data ≠ []) (hcount : ∀ b, data.count b < 2 ^ 32) (hrun : execAll (tableCommands data) s = .next t)
    (ht : t.phase = .codes) : RoundTrips s data := by
  obtain ⟨c, u, words, v, hload, hb, hwords, hpass, hwell, hbits⟩ := execAll_compressionPass hs hc hcount hrun ht
  obtain ⟨w, hpass', hwell', hout⟩ :=
    execAll_decompressionPass (fresh_resetState v) hne hcount hload hb hwords hbits
  exact ⟨v, w, hpass, hwell, hpass', hwell', hout⟩

/-- The table commands end in `CODES` when no code word of the tree of the counts is longer than `MAXLEN`. -/
theorem tableCommands_codes {s : State} {data : List Byte} (hs : Fresh s) (hne : data ≠ [])
    (hcount : ∀ b, data.count b < 2 ^ 32)
    (hshort : ∀ c u k p, Loaded data s c → Built c u → isCodeWord u.node u.root k p → p.length ≤ s.cfg.maxLen) :
    ∃ t, execAll (tableCommands data) s = .next t ∧ t.phase = .codes := by
  obtain ⟨c, hload, hc⟩ := execAll_loadCommands data hs
  obtain ⟨b, hbm⟩ := List.exists_mem_of_ne_nil data hne
  obtain ⟨u, hb⟩ := build_exists ((hc.readFreq_ne_zero hcount b).mpr hbm)
  rw [tableCommands, execAll_append _ _ _ _ hload]
  refine codes_of_short hc.phase hb (fun k p _ hp => ?_)
  rw [hc.cfg]
  exact hshort c u k p hc (built_of_build hb) hp

end Sys2Proof.Machine
end

section
open Sys2Proof Sys2Proof.Machine

/-- Settles O47: the payload of a pass is the code words of the sequence, both sides build one tree from the counts, and
no code word of any tree has more than 57 bits. -/
theorem roundTripFromReset : Obligations.RoundTripFromReset := by
  unfold Obligations.RoundTripFromReset
  refine ⟨fun s data hs hc hne hcount ⟨t, hrun, ht⟩ => roundTrips_of_codes hs hc hne hcount hrun ht,
    fun s data hs hc hne hcount hmax => ?_⟩
  obtain ⟨t, hrun, ht⟩ := tableCommands_codes hs hne hcount
    (fun c u k p _ hb hp => (hb.codeWord_length_le k p hp).trans hmax)
  exact roundTrips_of_codes hs hc hne hcount hrun ht

end

section
/-! SUPPORT. The properties (b) to (e) of rule R9, each from the tree invariants of rule R23 and the code table of
rule R24. -/

namespace Sys2Proof.Machine

section Properties
variable {s : State}

/-- A symbol has an entry in the code table exactly if it is a key (rules R24, R114). -/
theorem CodeOk.len_ne_zero_iff (h : CodeOk s) (hc : s.cfg.legal = true) (k : Sym) :
    (s.readCode k).len ≠ 0 ↔ s.readFreq k ≠ 0 := by
  constructor
  · intro hlen hk
    rw [h.absent k hk] at hlen
    exact hlen rfl
  · intro hk hlen
    obtain ⟨p, _, hpos, _, _, hp⟩ := h.word hc k hk
    rw [hlen] at hp
    have hzero : (0 : BitVec 6).toNat = 0 := rfl
    omega

/-- Rule R9(b): a code word that begins another one's has the same leaf at its end; a one-leaf tree has one key. -/
theorem CodeOk.prefixFree (h : CodeOk s) (hc : s.cfg.legal = true) (ht : s.treeOk) : PrefixFree s := by
  intro j k hne hj hk hpre
  have hj' := (h.len_ne_zero_iff hc j).mp hj
  have hk' := (h.len_ne_zero_iff hc k).mp hk
  obtain ⟨p, hp, _, _, hpw, _⟩ := h.word hc j hj'
  obtain ⟨q, hq, _, _, hqw, _⟩ := h.word hc k hk'
  cases hl : isLeafIdx s.root with
  | true => exact hne ((TreeOk.leafRoot_key ht hl j hj').trans (TreeOk.leafRoot_key ht hl k hk').symm)
  | false =>
    rw [isCodeWord, if_neg (by simp [hl])] at hp hq
    exact hne (follow_prefix s.node s.root p q j k hp hq (hpw ▸ hqw ▸ hpre))

/-- The leaves of the tree are the keys (rule R23(d)). -/
theorem inTree_leafIdx_iff (ht : s.treeOk) (k : Sym) : s.inTree (leafIdx k) ↔ s.readFreq k ≠ 0 :=
  (TreeOk.reachable ht k).symm

/-- Rule R9(c). -/
theorem CodeOk.symbolCoverage (h : CodeOk s) (hc : s.cfg.legal = true) (ht : s.treeOk) : SymbolCoverage s :=
  fun k => ⟨(h.len_ne_zero_iff hc k).symm, (inTree_leafIdx_iff ht k).symm⟩

/-- The internal nodes of the tree are those of the `NINT` merges (rules R21, R22). -/
theorem inTree_internal_iff (ht : s.treeOk) (i : NodeIdx) :
    s.inTree i ∧ isLeafIdx i = false ↔ ∃ k, k < s.nint.toNat ∧ i = mergeIdx k := by
  have hn := s.nint.isLt
  rw [inTree_iff_alloc ht]
  exact internalIn_iff s.freq s.nint i (by omega)

/-- The first merges have nodes of their own. -/
theorem mergeIdx_nodup (n : Nat) (hn : n ≤ 255) : ((List.range n).map mergeIdx).Nodup := by
  refine (List.nodup_map_iff_inj_on List.nodup_range).mpr fun a ha b hb hab => ?_
  have ha := List.mem_range.mp ha
  have hb := List.mem_range.mp hb
  have h1 := mergeIdx_toNat a (by omega)
  have h2 := mergeIdx_toNat b (by omega)
  rw [hab] at h1
  omega

/-- As many symbols as `NSYM` says have a property that the keys have and no other symbol (rule R19). -/
theorem exactly_keys (ht : s.treeOk) {P : Sym → Prop} (hP : ∀ k, P k ↔ s.readFreq k ≠ 0) :
    Exactly s.nsym.toNat P :=
  ⟨keysOf s.freq, keysOf_nodup s.freq, (TreeOk.nsymCounts ht).symm, fun k => (mem_keysOf _ _).trans (hP k).symm⟩

/-- Rule R9(e). -/
theorem CodeOk.sizeInvariant (h : CodeOk s) (hc : s.cfg.legal = true) (ht : s.treeOk) : SizeInvariant s where
  keys := exactly_keys ht fun _ => Iff.rfl
  leaves := exactly_keys ht (inTree_leafIdx_iff ht)
  codes := exactly_keys ht (h.len_ne_zero_iff hc)
  internals := by
    have hn := s.nint.isLt
    have hcount := TreeOk.nintCounts ht
    refine ⟨(List.range s.nint.toNat).map mergeIdx, mergeIdx_nodup _ (by omega), by simp; omega, fun i => ?_⟩
    refine Iff.trans ?_ (inTree_internal_iff ht i).symm
    simp [eq_comm]

/-- Rule R9(d): under one key the root is its leaf, which no path leaves, and its code word is the single bit `0`. -/
theorem CodeOk.oneLeafTree (h : CodeOk s) (hc : s.cfg.legal = true) (ht : s.treeOk) (k : Sym)
    (hk : keysOf s.freq = [k]) : OneLeafTree s k := by
  have hroot : s.root = leafIdx k := (TreeOk.leafRoot_of_one ht k hk).1
  have hl : isLeafIdx s.root = true := by rw [hroot, isLeafIdx_leafIdx]
  refine ⟨fun i => ⟨fun ⟨p, hp⟩ => ?_, ?_⟩, ?_⟩
  · rw [← (follow_leaf s.node s.root i p hl hp).2, hroot]
  · rintro rfl
    exact ⟨[], by rw [hroot]; rfl⟩
  · have hkey : s.readFreq k ≠ 0 := (mem_keysOf _ _).mp (by rw [hk]; exact List.mem_singleton_self k)
    obtain ⟨p, hp, _, _, hword, _⟩ := h.word hc k hkey
    rw [isCodeWord, if_pos hl] at hp
    rw [hword, hp]

end Properties

/-! ## One byte repeated -/

theorem count_replicate_lt {b : Byte} {n : Nat} (hn : n < 2 ^ 32) (k : Byte) :
    (List.replicate n b).count k < 2 ^ 32 :=
  Nat.lt_of_le_of_lt List.count_le_length (by simpa using hn)

/-- The counts of one byte repeated make it the only key. -/
theorem Loaded.keysOf_replicate {s c : State} {b : Byte} {n : Nat} (h : Loaded (List.replicate n b) s c)
    (hn : 1 ≤ n) (hn' : n < 2 ^ 32) : keysOf c.freq = [b] := by
  have hmem : ∀ k, k ∈ keysOf c.freq ↔ k = b := fun k => by
    rw [mem_keysOf]
    exact (h.readFreq_ne_zero (count_replicate_lt hn') k).trans (by simp [List.mem_replicate]; omega)
  exact List.perm_singleton.mp ((List.perm_ext_iff_of_nodup (keysOf_nodup _) (List.nodup_singleton b)).mpr
    (fun k => by rw [hmem, List.mem_singleton]))

/-- `TBUILD` of one key gives a code word of one bit (rules R98, R112). -/
theorem Built.codeWord_of_one {c u : State} (h : Built c u) {b k : Sym} {p : BitSeq} (hb : keysOf c.freq = [b])
    (hp : isCodeWord u.node u.root k p) : p = [false] := by
  have hl : isLeafIdx u.root = true := by rw [(h.tree.leafRoot_of_one b hb).1, isLeafIdx_leafIdx]
  rwa [isCodeWord, if_pos hl] at hp

/-! ## After `TBUILD` and `CGEN` -/

/-- What holds when `TBUILD` and `CGEN` end in `CODES`: `MAXLEN` and the counts are what they were, the tree meets
rule R23 and the code table is the tree's (rules R95, R114). -/
theorem tables_spec {s t : State} (hp : s.phase = .idle) (h : execAll [.tbuild, .cgen] s = .next t)
    (ht : t.phase = .codes) : t.cfg = s.cfg ∧ t.freq = s.freq ∧ t.treeOk ∧ CodeOk t := by
  obtain ⟨u, c, hb, rfl, hcode⟩ := tables_of_codes hp h ht
  have hbuilt := built_of_build hb
  exact ⟨hbuilt.cfg, hbuilt.freq, hbuilt.treeOk, hcode⟩

/-- A tree has been built from at least one key (rule R19). -/
theorem Built.key_exists {s u : State} (h : Built s u) : ∃ k, s.readFreq k ≠ 0 := by
  have hlen : 0 < (keysOf s.freq).length := by
    rw [← h.tree.nsymCounts, h.tree.nintCounts]
    omega
  obtain ⟨k, hk⟩ := List.exists_mem_of_length_pos hlen
  exact ⟨k, (mem_keysOf _ _).mp hk⟩

/-- `DSTART` on a table with a key has built the tree. -/
theorem built_of_dstart {d u : State} {tbc : BitVec 3} {k : Sym} (hp : d.phase = .idle) (hk : d.readFreq k ≠ 0)
    (h : exec (.dstart tbc) d = .next u) :
    ∃ v, d.build = some v ∧ u = ((v.setTbc tbc).setDcur v.root).setPhase .decode := by
  obtain ⟨v, hb⟩ := build_exists hk
  rw [exec_dstart tbc d hp, hb] at h
  exact ⟨v, hb, (Host.Outcome.next.inj h).symm⟩

end Sys2Proof.Machine
end

section
open Sys2Proof Sys2Proof.Machine

/-- Rule R9(d) over a whole pass: one byte repeated. -/
theorem oneByteRepeated (s : State) (b : Byte) (n : Nat) (hs : Fresh s) (hc : s.cfg.legal = true) (hn : 1 ≤ n)
    (hn' : n < 2 ^ 32) :
    (∃ t, execAll (tableCommands (List.replicate n b)) s = .next t ∧ t.phase = .codes ∧ t.nsym = 1 ∧
      OneLeafTree t b) ∧
    RoundTrips s (List.replicate n b) := by
  have hne : List.replicate n b ≠ [] := by simp; omega
  have hcount := count_replicate_lt (b := b) hn'
  have hmax : 1 ≤ s.cfg.maxLen := by
    simp only [Config.legal, Bool.and_eq_true, decide_eq_true_eq] at hc
    exact hc.1
  obtain ⟨t, hrun, ht⟩ := tableCommands_codes hs hne hcount (fun c u k p hload hb hp => by
    rw [hb.codeWord_of_one (hload.keysOf_replicate hn hn') hp]
    exact hmax)
  refine ⟨⟨t, hrun, ht, ?_⟩, roundTrips_of_codes hs hc hne hcount hrun ht⟩
  obtain ⟨c, hload, hloaded⟩ := execAll_loadCommands (List.replicate n b) hs
  have htables : execAll [.tbuild, .cgen] c = .next t := (execAll_append _ _ _ _ hload).symm.trans hrun
  obtain ⟨hcfg, hfreq, htree, hcode⟩ := tables_spec hloaded.phase htables ht
  have hkeys : keysOf t.freq = [b] := by rw [hfreq, hloaded.keysOf_replicate hn hn']
  have hc' : t.cfg.legal = true := by rwa [hcfg, hloaded.cfg]
  exact ⟨(TreeOk.leafRoot_of_one htree b hkeys).2.1, hcode.oneLeafTree hc' htree b hkeys⟩

/-- Rule R9(f), for the two commands that build. -/
theorem sameTree_of_tbuild_dstart (c d t u : State) (tbc : BitVec 3) (hc : c.phase = .idle) (hd : d.phase = .idle)
    (hf : ∀ k, c.readFreq k = d.readFreq k) (ht : exec .tbuild c = .next t) (hphase : t.phase = .tree)
    (hu : exec (.dstart tbc) d = .next u) : SameTree t u := by
  obtain ⟨v, hv, rfl⟩ := built_of_tbuild hc ht hphase
  have hbuilt := built_of_build hv
  obtain ⟨k, hk⟩ := hbuilt.key_exists
  obtain ⟨w, hw, rfl⟩ := built_of_dstart hd (hf k ▸ hk) hu
  obtain ⟨hroot, hnsym, hnint, hnodes, hrecords⟩ := hbuilt.sameTree (built_of_build hw) hf
  exact ⟨hroot, hnsym, hnint, hnodes, hrecords⟩

/-- Settles O59: (b), (c) and (e) from the invariants of the tables that `TBUILD` and `CGEN` leave, (d) and (f) from the
two lemmas above. -/
theorem sourcePropertiesOfThePass : Obligations.SourcePropertiesOfThePass := by
  unfold Obligations.SourcePropertiesOfThePass
  refine ⟨fun s t hc hp hrun ht => ?_, oneByteRepeated, sameTree_of_tbuild_dstart⟩
  obtain ⟨hcfg, hfreq, htree, hcode⟩ := tables_spec hp hrun ht
  have hc' : t.cfg.legal = true := hcfg ▸ hc
  exact ⟨hcode.prefixFree hc' htree, hcode.symbolCoverage hc' htree, hcode.sizeInvariant hc' htree,
    fun k => by simp only [State.readFreq, hfreq]⟩

end

section
/-! SUPPORT. What every command keeps, and where it leaves `PHASE` (rules R11, R13, R30): read off `Effect`, so each
fact is one case split over the commands. -/

namespace Sys2Proof.Machine

/-! ## The operations under the commands -/

/-- No fault is recorded as "no error" (rule R161). -/
theorem HwFault.code_ne_zero (f : HwFault) : f.code ≠ 0 := by
  cases f <;> decide

/-- A raised fault is a fault on record (rule R170). -/
theorem State.raise_fault_recorded (s : State) (f : HwFault) (info : BitVec 16) :
    (s.raise f info).phase = .fault ∧ (s.raise f info).err ≠ 0 :=
  ⟨rfl, f.code_ne_zero⟩

/-- The three ends of a byte: the stream goes on, ends well, or is truncated (rules R138, R142). -/
theorem State.endOfByte_cases (s : State) (last : Bool) :
    (last = false ∧ s.endOfByte last = s) ∨ (last = true ∧ s.endOfByte last = s.setPhase .done) ∨
    (last = true ∧ s.endOfByte last = s.raise .truncatedStream (s.dcur.setWidth 16)) := by
  cases last with
  | false => exact Or.inl ⟨rfl, rfl⟩
  | true =>
    by_cases hroot : s.dcur = s.root
    · exact Or.inr (Or.inl ⟨rfl, by simp [State.endOfByte, hroot]⟩)
    · exact Or.inr (Or.inr ⟨rfl, by simp [State.endOfByte, hroot]⟩)

theorem Built.port {s u : State} (h : Built s u) : u.port = s.port := by rw [h.frame]; rfl

/-! ## What no command but `SRST` touches -/

/-- `t` goes on from `s`: the same `MAXLEN`, the same inputs still to come, and nothing taken back of what was emitted
(rules R11, R30). -/
structure Continues (s t : State) : Prop where
  cfg : t.cfg = s.cfg
  port : t.port = s.port
  out : s.out <+: t.out

theorem Continues.refl (s : State) : Continues s s := ⟨rfl, rfl, List.prefix_rfl⟩

theorem Continues.trans {s t u : State} (h : Continues s t) (h' : Continues t u) : Continues s u :=
  ⟨h'.cfg.trans h.cfg, h'.port.trans h.port, h.out.trans h'.out⟩

/-- A state that differs in none of the three fields. -/
theorem Continues.of_eq {s t : State} (hcfg : t.cfg = s.cfg) (hport : t.port = s.port) (hout : t.out = s.out) :
    Continues s t :=
  ⟨hcfg, hport, hout ▸ List.prefix_rfl⟩

theorem Continues.emit (s : State) (bs : List Byte) : Continues s (s.emit bs) :=
  ⟨rfl, rfl, List.prefix_append s.out bs⟩

theorem Continues.raise (s : State) (f : HwFault) (info : BitVec 16) : Continues s (s.raise f info) :=
  .of_eq rfl rfl rfl

theorem Built.continues {s u : State} (h : Built s u) : Continues s u := .of_eq h.cfg h.port h.out

theorem Continues.endOfByte (s : State) (last : Bool) : Continues s (s.endOfByte last) := by
  rcases s.endOfByte_cases last with ⟨_, he⟩ | ⟨_, he⟩ | ⟨_, he⟩ <;> rw [he]
  · exact .refl s
  · exact .of_eq rfl rfl rfl
  · exact .raise s _ _

/-- Only `CPUT`, `CEND` and `DBYTE` write one of the three fields, and they append to `OUT`. -/
theorem Effect.continues {i : Instr} {s t : State} (h : Effect s t i) (hi : i ≠ .srst) : Continues s t := by
  cases i with
  | srst => exact absurd rfl hi
  | fclr | fset _ _ | fget _ | tget _ | cget _ | cstart =>
    obtain rfl := h
    exact .of_eq rfl rfl rfl
  | tbuild =>
    obtain ⟨_, rfl⟩ | ⟨u, hb, rfl⟩ := h
    · exact .raise s _ _
    · exact (built_of_build hb).continues.trans (.of_eq rfl rfl rfl)
  | dstart _ =>
    obtain ⟨_, rfl⟩ | ⟨u, hb, rfl⟩ := h
    · exact .raise s _ _
    · exact (built_of_build hb).continues.trans (.of_eq rfl rfl rfl)
  | cgen =>
    obtain ⟨_, rfl⟩ | ⟨_, _, rfl⟩ := h <;> exact .of_eq rfl rfl rfl
  | cput b =>
    obtain ⟨_, rfl⟩ | ⟨_, rfl⟩ := h
    · exact .raise s _ _
    · exact (Continues.emit s _).trans (.of_eq rfl rfl rfl)
  | cend =>
    obtain rfl := h
    exact (Continues.emit s _).trans (.of_eq rfl rfl rfl)
  | dbyte _ last =>
    obtain ⟨bs, d, _, hend⟩ := h
    have hwalk : Continues s ((s.emit bs).setDcur d) := (Continues.emit s bs).trans (.of_eq rfl rfl rfl)
    obtain rfl | ⟨_, rfl⟩ := hend
    · exact hwalk.trans (.endOfByte _ last)
    · exact hwalk.trans (.raise _ _ _)

/-- Whatever the front end makes of a command but `SRST`, the state goes on from where it was. -/
theorem exec_continues {i : Instr} {s t : State} (hi : i ≠ .srst) (h : exec i s = .next t) : Continues s t := by
  rcases exec_next i s t h with ⟨_, _, rfl⟩ | ⟨_, _, _, rfl⟩ | ⟨_, heffect⟩
  · exact .refl t
  · exact .raise s _ _
  · exact heffect.continues hi

theorem State.illegalWord_continues (s : State) (op : BitVec 8) : Continues s (s.illegalWord op) := by
  rw [State.illegalWord]
  split
  · exact .refl s
  · exact .raise s _ _

/-- No word, `SRST` and the illegal ones included, changes `MAXLEN` or the inputs still to come. -/
theorem runWord_cfg_port {w : CmdWord} {s t : State} (h : runWord w s = .next t) :
    t.cfg = s.cfg ∧ t.port = s.port := by
  rw [runWord] at h
  cases hw : decode w with
  | instr i =>
    simp only [hw] at h
    by_cases hi : i = .srst
    · subst hi
      obtain rfl := Host.Outcome.next.inj h
      exact ⟨rfl, rfl⟩
    · obtain ⟨hcfg, hport, _⟩ := exec_continues hi h
      exact ⟨hcfg, hport⟩
  | illegal why op =>
    simp only [hw] at h
    obtain rfl := Host.Outcome.next.inj h
    obtain ⟨hcfg, hport, _⟩ := s.illegalWord_continues op
    exact ⟨hcfg, hport⟩

/-! ## Where a command leaves `PHASE` -/

/-- The phase in which a legal command that raises no fault leaves the block: the seven commands that move `PHASE` have
one target each, every other one stays (rule R13). -/
def phaseAfter : Instr → Phase → Phase
  | .srst, _ => .idle
  | .tbuild, _ => .tree
  | .cgen, _ => .codes
  | .cstart, _ => .comp
  | .cend, _ => .done
  | .dstart _, _ => .decode
  | .dbyte _ last, p => if last then .done else p
  | .fclr, p | .fset _ _, p | .fget _, p | .tget _, p | .cget _, p | .cput _, p => p

/-- The transition table is the table of legal pairs (rule R69) with these targets. -/
theorem transition_eq_phaseAfter (i : Instr) (p : Phase) :
    transition p i = if legal i p then some (phaseAfter i p) else none := by
  cases i with
  | dbyte b last => cases p <;> cases last <;> rfl
  | _ => cases p <;> rfl

theorem legal_of_transition {i : Instr} {p q : Phase} (h : transition p i = some q) : legal i p = true := by
  rw [legal_eq_transition, h, Option.isSome_some]

theorem not_legal_of_transition {i : Instr} {p : Phase} (h : transition p i = none) : legal i p = false := by
  rw [legal_eq_transition, h, Option.isSome_none]

theorem phaseAfter_of_transition {i : Instr} {p q : Phase} (h : transition p i = some q) : phaseAfter i p = q := by
  have htable := transition_eq_phaseAfter i p
  rw [h, if_pos (legal_of_transition h)] at htable
  exact (Option.some.inj htable).symm

/-- A command's effect leaves `PHASE` at its target, or is a fault on record. -/
theorem Effect.phase {i : Instr} {s t : State} (h : Effect s t i) :
    t.phase = phaseAfter i s.phase ∨ (t.phase = .fault ∧ t.err ≠ 0) := by
  cases i with
  | srst | fclr | fset _ _ | fget _ | tget _ | cget _ | cstart | cend =>
    obtain rfl := h
    exact Or.inl rfl
  | tbuild | dstart _ | cgen =>
    obtain ⟨_, rfl⟩ | ⟨_, _, rfl⟩ := h
    · exact Or.inr (s.raise_fault_recorded _ _)
    · exact Or.inl rfl
  | cput b =>
    obtain ⟨_, rfl⟩ | ⟨_, rfl⟩ := h
    · exact Or.inr (s.raise_fault_recorded _ _)
    · exact Or.inl rfl
  | dbyte _ last =>
    obtain ⟨bs, d, _, rfl | ⟨_, rfl⟩⟩ := h
    · rcases ((s.emit bs).setDcur d).endOfByte_cases last with ⟨rfl, he⟩ | ⟨rfl, he⟩ | ⟨_, he⟩ <;> rw [he]
      · exact Or.inl rfl
      · exact Or.inl rfl
      · exact Or.inr (State.raise_fault_recorded _ _ _)
    · exact Or.inr (State.raise_fault_recorded _ _ _)

/-- A pair with an entry in the transition table is a legal one, so the command's own effect decides (rule R13). -/
theorem exec_phase_of_transition {i : Instr} {s t : State} {p : Phase} (hp : transition s.phase i = some p)
    (h : exec i s = .next t) : t.phase = p ∨ (t.phase = .fault ∧ t.err ≠ 0) := by
  have hl := legal_of_transition hp
  rcases exec_next i s t h with ⟨hi, hf, _⟩ | ⟨_, _, hl', _⟩ | ⟨_, heffect⟩
  · exact absurd hf (legal_not_fault i s.phase hl hi)
  · simp [hl] at hl'
  · rw [← phaseAfter_of_transition hp]
    exact heffect.phase

/-- A pair that is not in the table raises `BadSequence` (rules R13, R68). -/
theorem exec_badSequence {i : Instr} {s : State} (hf : s.phase ≠ .fault) (hp : transition s.phase i = none) :
    exec i s = .next (s.raise .badSequence (badSequenceInfo s.phase.code i.opcode)) := by
  have hl := not_legal_of_transition hp
  have hi : i ≠ .srst := by
    rintro rfl
    simp [legal] at hl
  obtain ⟨run, hrun⟩ := exec_frontEnd i s hi
  rw [hrun, frontEnd_badSequence i s run hf hl]

end Sys2Proof.Machine
end

section
open Sys2Proof Sys2Proof.Machine

/-- Settles O8: `SRST` resets in every phase, the front end ignores what comes in `FAULT` and refuses what is not in the
table, and each effect leaves `PHASE` at the entry's target or records a fault. -/
theorem phaseMovesAsTheTableSays : Obligations.PhaseMovesAsTheTableSays := by
  unfold Obligations.PhaseMovesAsTheTableSays
  refine ⟨fun s => ⟨s.resetState, rfl, s.resetState_phase⟩, exec_ignored, ?_, ?_⟩
  · exact fun i s t p hp h => exec_phase_of_transition hp h
  · exact fun i s hf hp => exec_badSequence hf hp

/-- Settles O53: every command but `SRST` continues from the state it found. -/
theorem outputIsNeverTakenBack : Obligations.OutputIsNeverTakenBack := by
  unfold Obligations.OutputIsNeverTakenBack
  exact fun i s t hi h => (exec_continues hi h).out

/-- Settles O54: the step drops the first input, and what it then runs keeps `MAXLEN` and the rest of the inputs. -/
theorem stepKeepsTheInstance : Obligations.StepKeepsTheInstance := by
  unfold Obligations.StepKeepsTheInstance
  intro s t h
  rw [step, takeInput] at h
  cases hport : s.port with
  | nil =>
    simp only [hport] at h
    obtain rfl := Host.Outcome.next.inj h
    exact ⟨rfl, hport⟩
  | cons input rest =>
    cases input with
    | rst =>
      simp only [hport] at h
      obtain rfl := Host.Outcome.next.inj h
      exact ⟨rfl, rfl⟩
    | command w =>
      simp only [hport] at h
      exact runWord_cfg_port h

end

section
/-! SUPPORT. What one byte of the payload holds: its bits from the most significant down, and the number that eight
bits spell (rule R42). -/

namespace Sys2Proof.Machine

/-- The recursion of `seqOf` takes bit 7 first and ends with bit 0, so the byte's first bit is its most significant. -/
theorem unpack8_eq_getLsbD (b : Byte) :
    unpack8 b = [b.getLsbD 7, b.getLsbD 6, b.getLsbD 5, b.getLsbD 4, b.getLsbD 3, b.getLsbD 2, b.getLsbD 1,
      b.getLsbD 0] := by
  simp only [unpack8, seqOf, BitVec.testBit_toNat]

/-- Eight bits spell a number below 256, so packing them loses nothing. -/
theorem pack8_toNat (g : BitSeq) (h : g.length = 8) : (pack8 g).toNat = valOf g := by
  have hlt : valOf g < 2 ^ 8 := h ▸ valOf_lt g
  rw [pack8, BitVec.toNat_ofNat, Nat.mod_eq_of_lt hlt]

end Sys2Proof.Machine
end

section
open Sys2Proof Sys2Proof.Machine

/-- Settles O32: the recursion of `seqOf` gives the bit order, and the inverses rest on `valOf` and `seqOf` undoing each
other on eight bits. -/
theorem packingIsMsbFirst : Obligations.PackingIsMsbFirst := by
  unfold Obligations.PackingIsMsbFirst
  refine ⟨unpack8_eq_getLsbD, pack8_unpack8, fun g hg => ⟨unpack8_pack8 g hg, pack8_toNat g hg⟩, ?_, ?_, ?_⟩
  · decide
  · decide
  · decide

end

section
/-! SUPPORT. The six formats of rule R62, each as the number of operand bits at the low end of `FLG`, `A` and `IMM`. The
decoder's reserved-bit checks and the table's masks are the same function of these numbers. -/

namespace Sys2Proof

/-- The formats of rule R62. -/
inductive WordFormat where
  | z | s | si | n | t | bl
  deriving DecidableEq

namespace WordFormat

/-- The opcodes of the commands of a format (rule R64). -/
def opcodes : WordFormat → List (BitVec 8)
  | z => [0x01#8, 0x10#8, 0x20#8, 0x30#8, 0x40#8, 0x42#8]
  | s => [0x12#8, 0x31#8, 0x41#8]
  | si => [0x11#8]
  | n => [0x21#8]
  | t => [0x50#8]
  | bl => [0x51#8]

/-- How many low bits of `FLG` are operand. -/
def flgBits : WordFormat → Nat
  | bl => 1
  | z | s | si | n | t => 0

/-- How many low bits of `A` are operand. -/
def aBits : WordFormat → Nat
  | z => 0
  | s | si | bl => 8
  | n => 9
  | t => 3

/-- How many low bits of `IMM` are operand. -/
def immBits : WordFormat → Nat
  | si => 32
  | z | s | n | t | bl => 0

/-- Some reserved bit of the format is 1 (rule R62). -/
def reserved (f : WordFormat) (w : CmdWord) : Prop :=
  (wordFLG w).extractLsb' f.flgBits (8 - f.flgBits) ≠ 0 ∨ (wordA w).extractLsb' f.aBits (16 - f.aBits) ≠ 0 ∨
    (wordIMM w).extractLsb' f.immBits (32 - f.immBits) ≠ 0

/-- The mask of the format's rows: `OP` and the reserved bits (rule R64). -/
def mask (f : WordFormat) : CmdWord :=
  assemble (BitVec.allOnes 8) (BitVec.allOnes 8 <<< f.flgBits) (BitVec.allOnes 16 <<< f.aBits)
    (BitVec.allOnes 32 <<< f.immBits)

/-- A condition on some format is a condition on one of the six. -/
theorem exists_iff {p : WordFormat → Prop} : (∃ f, p f) ↔ p z ∨ p s ∨ p si ∨ p n ∨ p t ∨ p bl := by
  constructor
  · rintro ⟨f, h⟩
    cases f <;> simp [h]
  · rintro (h | h | h | h | h | h) <;> exact ⟨_, h⟩

/-- No opcode has two formats. -/
theorem eq_of_mem_opcodes {f g : WordFormat} {op : BitVec 8} (hf : op ∈ f.opcodes) (hg : op ∈ g.opcodes) : f = g := by
  have hdisjoint : ∀ op ∈ f.opcodes, op ∈ g.opcodes → f = g := by cases f <;> cases g <;> decide
  exact hdisjoint op hf hg

/-- Masking with a format's mask asks for the opcode and for reserved bits that are 0 (rules R62, R64). -/
theorem and_mask_eq_iff (f : WordFormat) (w : CmdWord) (op : BitVec 8) :
    w &&& f.mask = assemble op 0 0 0 ↔ wordOP w = op ∧ ¬ f.reserved w := by
  have hflg : f.flgBits ≤ 8 := by cases f <;> decide
  have ha : f.aBits ≤ 16 := by cases f <;> decide
  have himm : f.immBits ≤ 32 := by cases f <;> decide
  simp only [and_eq_iff_fields, mask, wordOP_assemble, wordFLG_assemble, wordA_assemble, wordIMM_assemble,
    BitVec.and_allOnes, and_high_mask _ _ hflg, and_high_mask _ _ ha, and_high_mask _ _ himm, reserved, not_or, not_not]

/-! ## The reserved bits as the statements write them -/

section Reserved
variable (w : CmdWord)

theorem reserved_z : z.reserved w ↔ Machine.reservedZ w := by
  simp [reserved, flgBits, aBits, immBits, Machine.reservedZ]

theorem reserved_s : s.reserved w ↔ Machine.reservedS w := by
  simp [reserved, flgBits, aBits, immBits, Machine.reservedS]

theorem reserved_si : si.reserved w ↔ Machine.reservedSI w := by
  simp [reserved, flgBits, aBits, immBits, Machine.reservedSI]

/-- Without the index 511, which `reservedN` counts among the illegal values of the operand. -/
theorem reserved_n : n.reserved w ↔ wordFLG w ≠ 0 ∨ (wordA w).extractLsb' 9 7 ≠ 0 ∨ wordIMM w ≠ 0 := by
  simp [reserved, flgBits, aBits, immBits]

theorem reserved_t : t.reserved w ↔ Machine.reservedT w := by
  simp [reserved, flgBits, aBits, immBits, Machine.reservedT]

theorem reserved_bl : bl.reserved w ↔ Machine.reservedBL w := by
  simp [reserved, flgBits, aBits, immBits, Machine.reservedBL]

end Reserved

end WordFormat

/-! ## What a word decodes to -/

/-- The four things a word can be, each with the condition that makes it so: a command, or one of the cases (a), (b),
(c) of rule R65. The conditions exclude each other. -/
inductive Verdict (w : CmdWord) : Cmd → Prop where
  | command (f : WordFormat) (i : Instr) (hop : wordOP w ∈ f.opcodes) (hres : ¬ f.reserved w)
      (hidx : f = .n → operandIdx w ≠ NIL) (hi : i.opcode = wordOP w) : Verdict w (.instr i)
  | unknownOpcode (hop : ∀ f : WordFormat, wordOP w ∉ f.opcodes) : Verdict w (.illegal .unknownOpcode (wordOP w))
  | reservedBit (f : WordFormat) (hop : wordOP w ∈ f.opcodes) (hres : f.reserved w) :
      Verdict w (.illegal .reservedBit (wordOP w))
  | nilIndex (hop : wordOP w ∈ WordFormat.n.opcodes) (hres : ¬ WordFormat.n.reserved w) (hidx : operandIdx w = NIL) :
      Verdict w (.illegal .nilIndex (wordOP w))

section Formats
variable {w : CmdWord}

/-- A word that fails its format's check has a reserved bit set; one that passes is left to the rest of the format. -/
theorem Verdict.checked {f : WordFormat} {ok : Bool} {c : Cmd} (hop : wordOP w ∈ f.opcodes)
    (hok : ok = true ↔ ¬ f.reserved w) (hc : ¬ f.reserved w → Verdict w c) : Verdict w (checked ok w c) := by
  unfold Sys2Proof.checked
  split
  · next h => exact hc (hok.mp h)
  · next h => exact .reservedBit f hop (not_not.mp fun hres => h (hok.mpr hres))

theorem Verdict.formatZ {i : Instr} (hop : wordOP w ∈ WordFormat.z.opcodes) (hi : i.opcode = wordOP w) :
    Verdict w (formatZ w i) :=
  .checked hop (by simp [WordFormat.reserved_z, Machine.reservedZ, and_assoc])
    fun hres => .command .z i hop hres (by simp) hi

theorem Verdict.formatS {mk : BitVec 8 → Instr} (hop : wordOP w ∈ WordFormat.s.opcodes)
    (hi : (mk (operandA8 w)).opcode = wordOP w) : Verdict w (formatS w mk) :=
  .checked hop (by simp [WordFormat.reserved_s, Machine.reservedS, and_assoc])
    fun hres => .command .s _ hop hres (by simp) hi

theorem Verdict.formatSI {mk : BitVec 8 → BitVec 32 → Instr} (hop : wordOP w ∈ WordFormat.si.opcodes)
    (hi : (mk (operandA8 w) (wordIMM w)).opcode = wordOP w) : Verdict w (formatSI w mk) :=
  .checked hop (by simp [WordFormat.reserved_si, Machine.reservedSI])
    fun hres => .command .si _ hop hres (by simp) hi

theorem Verdict.formatT {mk : BitVec 3 → Instr} (hop : wordOP w ∈ WordFormat.t.opcodes)
    (hi : (mk (operandTbc w)).opcode = wordOP w) : Verdict w (formatT w mk) :=
  .checked hop (by simp [WordFormat.reserved_t, Machine.reservedT, and_assoc])
    fun hres => .command .t _ hop hres (by simp) hi

theorem Verdict.formatBL {mk : BitVec 8 → Bool → Instr} (hop : wordOP w ∈ WordFormat.bl.opcodes)
    (hi : (mk (operandA8 w) (operandLast w)).opcode = wordOP w) : Verdict w (formatBL w mk) :=
  .checked hop (by simp [WordFormat.reserved_bl, Machine.reservedBL, and_assoc])
    fun hres => .command .bl _ hop hres (by simp) hi

theorem Verdict.formatN {mk : NodeIdx → Instr} (hop : wordOP w ∈ WordFormat.n.opcodes)
    (hi : (mk (operandIdx w)).opcode = wordOP w) : Verdict w (formatN w mk) := by
  refine .checked hop (by simp [WordFormat.reserved_n, and_assoc])
    fun hres => ?_
  split
  · next hidx => exact .nilIndex hop hres hidx
  · next hidx => exact .command .n _ hop hres (fun _ => hidx) hi

/-- One comparison of the decoder. -/
theorem Verdict.ite {op : BitVec 8} {c d : Cmd} (hc : wordOP w = op → Verdict w c)
    (hd : wordOP w ≠ op → Verdict w d) : Verdict w (if wordOP w = op then c else d) := by
  split
  · next h => exact hc h
  · next h => exact hd h

end Formats

/-- The decoder asks for the thirteen opcodes one after another, and reads the word in the opcode's format. -/
theorem decode_verdict (w : CmdWord) : Verdict w (decode w) := by
  have hmem : ∀ {op : BitVec 8} {f : WordFormat}, wordOP w = op → op ∈ f.opcodes → wordOP w ∈ f.opcodes :=
    fun h hop => h ▸ hop
  refine .ite (fun h => .formatZ (hmem h (by decide)) h.symm) fun srst => ?_
  refine .ite (fun h => .formatZ (hmem h (by decide)) h.symm) fun fclr => ?_
  refine .ite (fun h => .formatSI (hmem h (by decide)) h.symm) fun fset => ?_
  refine .ite (fun h => .formatS (hmem h (by decide)) h.symm) fun fget => ?_
  refine .ite (fun h => .formatZ (hmem h (by decide)) h.symm) fun tbuild => ?_
  refine .ite (fun h => .formatN (hmem h (by decide)) h.symm) fun tget => ?_
  refine .ite (fun h => .formatZ (hmem h (by decide)) h.symm) fun cgen => ?_
  refine .ite (fun h => .formatS (hmem h (by decide)) h.symm) fun cget => ?_
  refine .ite (fun h => .formatZ (hmem h (by decide)) h.symm) fun cstart => ?_
  refine .ite (fun h => .formatS (hmem h (by decide)) h.symm) fun cput => ?_
  refine .ite (fun h => .formatZ (hmem h (by decide)) h.symm) fun cend => ?_
  refine .ite (fun h => .formatT (hmem h (by decide)) h.symm) fun dstart => ?_
  refine .ite (fun h => .formatBL (hmem h (by decide)) h.symm) fun dbyte => ?_
  refine .unknownOpcode fun f => ?_
  cases f <;> simp [WordFormat.opcodes, *]

/-! ## Each outcome by its condition -/

section Outcomes
variable {w : CmdWord}

/-- An illegal word is reported with its own opcode (rule R67). -/
theorem op_of_decode_illegal {why : IllegalWord} {op : BitVec 8} (h : decode w = .illegal why op) :
    op = wordOP w := by
  have hv := h ▸ decode_verdict w
  cases hv <;> rfl

/-- A command has the opcode of its word (rule R64). -/
theorem opcode_of_decode {i : Instr} (h : decode w = .instr i) : i.opcode = wordOP w := by
  have hv := h ▸ decode_verdict w
  cases hv with
  | command _ _ _ _ _ hi => exact hi

/-- The conditions of an illegal word leave no other outcome: an opcode has one format, and within a format they are
each other's negations. -/
theorem Verdict.eq_illegal {why : IllegalWord} {op : BitVec 8} {c : Cmd} (hv : Verdict w (.illegal why op))
    (hc : Verdict w c) : c = .illegal why op := by
  cases hv with
  | unknownOpcode hop =>
    cases hc with
    | unknownOpcode => rfl
    | command f _ h | reservedBit f h | nilIndex h => exact absurd h (hop _)
  | reservedBit f hop hres =>
    cases hc with
    | reservedBit => rfl
    | unknownOpcode h => exact absurd hop (h f)
    | command g _ h hclear | nilIndex h hclear => exact absurd (WordFormat.eq_of_mem_opcodes hop h ▸ hres) hclear
  | nilIndex hop hclear hidx =>
    cases hc with
    | nilIndex => rfl
    | unknownOpcode h => exact absurd hop (h .n)
    | reservedBit g h hres => exact absurd (WordFormat.eq_of_mem_opcodes h hop ▸ hres) hclear
    | command g _ h _ hne => exact absurd hidx (hne (WordFormat.eq_of_mem_opcodes h hop))

theorem decode_eq_illegal_iff {why : IllegalWord} {op : BitVec 8} :
    decode w = .illegal why op ↔ Verdict w (.illegal why op) :=
  ⟨fun h => h ▸ decode_verdict w, fun h => h.eq_illegal (decode_verdict w)⟩

variable (w)

theorem decode_unknownOpcode_iff :
    decode w = .illegal .unknownOpcode (wordOP w) ↔ ∀ f : WordFormat, wordOP w ∉ f.opcodes :=
  decode_eq_illegal_iff.trans ⟨fun | .unknownOpcode hop => hop, .unknownOpcode⟩

theorem decode_reservedBit_iff :
    decode w = .illegal .reservedBit (wordOP w) ↔ ∃ f : WordFormat, wordOP w ∈ f.opcodes ∧ f.reserved w :=
  decode_eq_illegal_iff.trans
    ⟨fun | .reservedBit f hop hres => ⟨f, hop, hres⟩, fun ⟨f, hop, hres⟩ => .reservedBit f hop hres⟩

theorem decode_nilIndex_iff :
    decode w = .illegal .nilIndex (wordOP w) ↔
      wordOP w ∈ WordFormat.n.opcodes ∧ ¬ WordFormat.n.reserved w ∧ operandIdx w = NIL :=
  decode_eq_illegal_iff.trans
    ⟨fun | .nilIndex hop hres hidx => ⟨hop, hres, hidx⟩, fun ⟨hop, hres, hidx⟩ => .nilIndex hop hres hidx⟩

/-- A command's word has an opcode of the table, no reserved bit and, for `TGET`, an index that names an entry. -/
theorem exists_decode_instr_iff :
    (∃ i, decode w = .instr i) ↔
      ∃ f : WordFormat, wordOP w ∈ f.opcodes ∧ ¬ f.reserved w ∧ (f = .n → operandIdx w ≠ NIL) := by
  have hv := decode_verdict w
  generalize decode w = c at hv ⊢
  cases hv with
  | command f i hop hres hidx _ => exact ⟨fun _ => ⟨f, hop, hres, hidx⟩, fun _ => ⟨i, rfl⟩⟩
  | unknownOpcode hop =>
    refine ⟨by simp, ?_⟩
    rintro ⟨f, hf, _⟩
    exact absurd hf (hop f)
  | reservedBit g hop hres =>
    refine ⟨by simp, ?_⟩
    rintro ⟨f, hf, hclear, _⟩
    exact absurd (WordFormat.eq_of_mem_opcodes hop hf ▸ hres) hclear
  | nilIndex hop _ hidx =>
    refine ⟨by simp, ?_⟩
    rintro ⟨f, hf, _, hne⟩
    exact absurd hidx (hne (WordFormat.eq_of_mem_opcodes hf hop))

end Outcomes

/-! ## The rows of the opcode table -/

/-- Each row is an opcode of a format over that format's mask; `TGET` is the only command of format `N`. -/
theorem opcodeTable_format : ∀ row ∈ opcodeTable, ∃ f ∈ [WordFormat.z, .s, .si, .n, .t, .bl],
    wordOP row.pattern ∈ f.opcodes ∧ row.mask = f.mask ∧ row.pattern = assemble (wordOP row.pattern) 0 0 0 ∧
      (row.mnemonic = "TGET" ↔ f = .n) := by
  decide

/-- A row's mnemonic and its opcode name the same commands. -/
theorem mnemonic_eq_iff_opcode_eq (i : Instr) :
    ∀ row ∈ opcodeTable, i.mnemonic = row.mnemonic ↔ i.opcode = wordOP row.pattern := by
  cases i <;> simp only [Instr.mnemonic, Instr.opcode] <;> decide

/-- Every command has a row. -/
theorem exists_row (i : Instr) : ∃ row ∈ opcodeTable, i.mnemonic = row.mnemonic := by
  cases i <;> simp only [Instr.mnemonic] <;> decide

/-- A word selects a row when it has the row's opcode and is a command's word. -/
theorem selects_iff {row : OpcodeRow} (hrow : row ∈ opcodeTable) (w : CmdWord) :
    row.selects w = true ↔ wordOP w = wordOP row.pattern ∧ ∃ i, decode w = .instr i := by
  obtain ⟨f, -, hop, hmask, hpattern, htget⟩ := opcodeTable_format row hrow
  have hmatch : w &&& row.mask = row.pattern ↔ wordOP w = wordOP row.pattern ∧ ¬ f.reserved w := by
    rw [hmask, hpattern, f.and_mask_eq_iff, wordOP_assemble]
  have hselects : row.selects w = true ↔
      (wordOP w = wordOP row.pattern ∧ ¬ f.reserved w) ∧ (f = .n → operandIdx w ≠ NIL) := by
    rw [← hmatch, ← htget]
    simp [OpcodeRow.selects, imp_iff_not_or]
  rw [hselects, exists_decode_instr_iff, and_assoc]
  refine and_congr_right fun hw => ⟨fun h => ⟨f, hw ▸ hop, h⟩, ?_⟩
  rintro ⟨g, hg, h⟩
  exact WordFormat.eq_of_mem_opcodes hg (hw ▸ hop) ▸ h

/-- Rule R64: the row a word selects is the row of the command it decodes to. -/
theorem selects_iff_decode {row : OpcodeRow} (hrow : row ∈ opcodeTable) (w : CmdWord) :
    row.selects w = true ↔ ∃ i, decode w = .instr i ∧ i.mnemonic = row.mnemonic := by
  rw [selects_iff hrow, and_comm, ← exists_and_right]
  refine exists_congr fun i => and_congr_right fun hi => ?_
  rw [mnemonic_eq_iff_opcode_eq i row hrow, opcode_of_decode hi]

/-- Rule R65: a word is illegal when no row selects it. -/
theorem decode_illegal_iff (w : CmdWord) :
    (∃ why, decode w = .illegal why (wordOP w)) ↔ ∀ row ∈ opcodeTable, row.selects w = false := by
  cases hw : decode w with
  | instr i =>
    obtain ⟨row, hrow, hi⟩ := exists_row i
    have hsel := (selects_iff_decode hrow w).mpr ⟨i, hw, hi⟩
    exact ⟨by simp, fun hnone => by simp [hnone row hrow] at hsel⟩
  | illegal why op =>
    obtain rfl := op_of_decode_illegal hw
    refine ⟨fun _ row hrow => ?_, fun _ => ⟨why, rfl⟩⟩
    rw [← Bool.not_eq_true, selects_iff_decode hrow]
    simp [hw]

/-- The one word that is illegal for its index alone (rule R65(c)). -/
theorem decode_nilIndex_iff_eq (w : CmdWord) :
    decode w = .illegal .nilIndex (wordOP w) ↔ w = 0x210001FF00000000#64 := by
  constructor
  · intro h
    obtain ⟨hop, hres, hidx⟩ := (decode_nilIndex_iff w).mp h
    rw [WordFormat.reserved_n, not_or, not_or, not_not, not_not, not_not] at hres
    obtain ⟨hflg, ha, himm⟩ := hres
    have hA : wordA w = 0x1FF#16 := by
      rw [← setWidth_of_high (wordA w) (n := 9) rfl ha, ← operandIdx, hidx]
      rfl
    exact eq_of_fields _ _ (List.mem_singleton.mp hop) hflg hA himm
  · rintro rfl
    decide

end Sys2Proof
end

section
open Sys2Proof

/-- Settles O3: a word selects the row of its opcode exactly when it is a command's word, and the row of an opcode is
the row of its mnemonic. -/
theorem selectedRowIsDecoded : Obligations.SelectedRowIsDecoded := by
  unfold Obligations.SelectedRowIsDecoded
  exact fun w row hrow => selects_iff_decode hrow w

end

section
/-! SUPPORT. What the block makes of one word (rule R68). -/

namespace Sys2Proof.Machine

theorem runWord_of_instr {w : CmdWord} {i : Instr} (s : State) (h : decode w = .instr i) : runWord w s = exec i s := by
  rw [runWord, h]

theorem runWord_of_illegal {w : CmdWord} {why : IllegalWord} {op : BitVec 8} (s : State)
    (h : decode w = .illegal why op) : runWord w s = .next (s.illegalWord op) := by
  rw [runWord, h]

/-- In `FAULT` the front end ignores every word but `SRST` (rule R173). -/
theorem runWord_ignored {w : CmdWord} {s : State} (hw : decode w ≠ .instr .srst) (hf : s.phase = .fault) :
    runWord w s = .next s := by
  cases h : decode w with
  | instr i => rw [runWord_of_instr s h, exec_ignored i s (fun hi => hw (hi ▸ h)) hf]
  | illegal why op => rw [runWord_of_illegal s h, State.illegalWord, if_pos hf]

/-- Outside `FAULT` an illegal word raises `IllegalCommand` (rules R65, R170). -/
theorem runWord_illegal {w : CmdWord} {why : IllegalWord} {op : BitVec 8} {s : State}
    (h : decode w = .illegal why op) (hf : s.phase ≠ .fault) :
    runWord w s = .next (s.raise .illegalCommand (op.setWidth 16)) := by
  rw [runWord_of_illegal s h, State.illegalWord, if_neg hf]

/-- The formats' opcodes are the thirteen values of rule R64. -/
theorem forall_not_mem_opcodes_iff (op : BitVec 8) : (∀ f : WordFormat, op ∉ f.opcodes) ↔
    op ∉ [0x01#8, 0x10#8, 0x11#8, 0x12#8, 0x20#8, 0x21#8, 0x30#8, 0x31#8, 0x40#8, 0x41#8, 0x42#8, 0x50#8, 0x51#8] := by
  rw [← not_exists, not_iff_not, WordFormat.exists_iff]
  simp only [WordFormat.opcodes, List.mem_cons, List.not_mem_nil, or_false]
  tauto

end Sys2Proof.Machine
end

section
open Sys2Proof Sys2Proof.Machine

/-- Settles O4: each illegal outcome by its condition, and what the front end makes of a word that no row selects. -/
theorem illegalWordsRaiseIllegalCommand : Obligations.IllegalWordsRaiseIllegalCommand := by
  unfold Obligations.IllegalWordsRaiseIllegalCommand
  refine ⟨decode_illegal_iff, ?_, ?_, decode_nilIndex_iff_eq, by decide, ?_⟩
  · exact fun w => (decode_unknownOpcode_iff w).trans (forall_not_mem_opcodes_iff _)
  · intro w
    rw [decode_reservedBit_iff, WordFormat.exists_iff, WordFormat.reserved_z, WordFormat.reserved_s,
      WordFormat.reserved_si, WordFormat.reserved_n, WordFormat.reserved_t, WordFormat.reserved_bl]
    simp only [WordFormat.opcodes, List.mem_singleton]
    rfl
  · intro w s hnone
    obtain ⟨why, hw⟩ := (decode_illegal_iff w).mpr hnone
    split
    · next hf => exact runWord_ignored (by simp [hw]) hf
    · next hf => exact runWord_illegal hw hf

/-- Settles O7: the checks of rule R68, each by the rule for its word. -/
theorem frontEndChecksInOrder : Obligations.FrontEndChecksInOrder := by
  unfold Obligations.FrontEndChecksInOrder
  refine fun w s => ⟨runWord_of_instr s, runWord_ignored, ?_, ?_, fun i => runWord_of_instr s⟩
  · exact fun why op hw hf => ⟨op_of_decode_illegal hw, runWord_illegal hw hf⟩
  · intro i hw _ hf hp
    rw [runWord_of_instr s hw, exec_badSequence hf hp, opcode_of_decode hw]
    rfl

end

section
/-! SUPPORT. The three clauses that every command's statement has: the word it is encoded as (rule R64), the phases it
may run in (rule R69), and what becomes of a word with a reserved bit set (rules R62, R65). With them, what the
commands of the frequency table do in the phases they are legal in (rules R81 to R83). -/

namespace Sys2Proof.Machine

/-- A command that may run in the listed phases only raises `BadSequence` outside them. -/
theorem outOfPhase_of_legal {i : Instr} {phases : List Phase} (h : ∀ p, legal i p = true → p ∈ phases) :
    outOfPhase i phases := by
  intro s hf hp
  have hnone : transition s.phase i = none := by
    rw [transition_eq_phaseAfter, if_neg (fun hl => hp (h s.phase hl))]
  rw [exec_badSequence hf hnone]
  rfl

/-- A reserved bit of the opcode's own format makes the word illegal. -/
theorem illegalWhen_reserved (f : WordFormat) {op : BitVec 8} {reserved : CmdWord → Prop} (hop : op ∈ f.opcodes)
    (hres : ∀ w, f.reserved w ↔ reserved w) : illegalWhen op reserved := by
  rintro w s rfl hw hf
  have hdecode := (decode_reservedBit_iff w).mpr ⟨f, hop, (hres w).mpr hw⟩
  rw [runWord_illegal hdecode hf]
  rfl

/-! ## Legal phases -/

theorem legal_fclr_iff (p : Phase) : legal .fclr p = true ↔ p ∈ [.idle] := by
  simp [legal]

theorem legal_fset_iff (sym : Sym) (count : Count) (p : Phase) : legal (.fset sym count) p = true ↔ p ∈ [.idle] := by
  simp [legal]

theorem legal_fget_iff (sym : Sym) (p : Phase) :
    legal (.fget sym) p = true ↔ p ∈ [.idle, .tree, .codes, .comp, .decode] := by
  simp [legal, or_assoc]

/-! ## Command words -/

theorem encode_fset (sym : Sym) (count : Count) :
    encode (.fset sym count) = 0x1100000000000000#64 ||| (sym.setWidth 64 <<< 32) ||| count.setWidth 64 := by
  simp [encode, assemble, Instr.opcode, Instr.fieldFLG, Instr.fieldA, Instr.fieldIMM]

theorem encode_fget (sym : Sym) : encode (.fget sym) = 0x1200000000000000#64 ||| (sym.setWidth 64 <<< 32) := by
  simp [encode, assemble, Instr.opcode, Instr.fieldFLG, Instr.fieldA, Instr.fieldIMM]

/-! ## What the commands do -/

/-- A command that may run is not ignored, so its own rule decides. -/
theorem frontEnd_legal {i : Instr} {s : State} (run : Host.Outcome State Fault Refusal) (hi : i ≠ .srst)
    (hl : legal i s.phase = true) : frontEnd i s run = run :=
  frontEnd_run i s run (legal_not_fault i s.phase hl hi) hl

theorem exec_fclr {s : State} (hp : s.phase = .idle) : exec .fclr s = .next s.clearFreq :=
  frontEnd_legal _ (by simp) (by simp [hp, legal_fclr_iff])

theorem exec_fset (sym : Sym) (count : Count) {s : State} (hp : s.phase = .idle) :
    exec (.fset sym count) s = .next (s.writeFreq sym count) :=
  frontEnd_legal _ (by simp) (by simp [hp, legal_fset_iff])

theorem exec_fget (sym : Sym) {s : State} (hp : s.phase ∈ [.idle, .tree, .codes, .comp, .decode]) :
    exec (.fget sym) s = .next (s.readBack ((s.readFreq sym).setWidth 64) 0) :=
  frontEnd_legal _ (by simp) ((legal_fget_iff sym s.phase).mpr hp)

@[simp] theorem State.readFreq_clearFreq (s : State) (k : Sym) : s.clearFreq.readFreq k = 0 := freqOf_nil k

@[simp] theorem State.readFreq_writeFreq (s : State) (sym k : Sym) (count : Count) :
    (s.writeFreq sym count).readFreq k = if k = sym then count else s.readFreq k :=
  freqOf_write s.freq sym k count

end Sys2Proof.Machine
end

section
open Sys2Proof Sys2Proof.Machine

/-- Settles O14: the cleared table has no entry, and only the table is cleared. -/
theorem fclrEmptiesTheTable : Obligations.FclrEmptiesTheTable := by
  unfold Obligations.FclrEmptiesTheTable
  refine ⟨by decide, fun s hp => ⟨s.clearFreq, exec_fclr hp, s.readFreq_clearFreq, rfl⟩, ?_, ?_⟩
  · exact outOfPhase_of_legal fun p => (legal_fclr_iff p).mp
  · exact illegalWhen_reserved .z (by decide) WordFormat.reserved_z

/-- Settles O15: a write to the table is read back at its own symbol and at no other (rule R20). -/
theorem fsetWritesOneCount : Obligations.FsetWritesOneCount := by
  unfold Obligations.FsetWritesOneCount
  refine ⟨fun sym count => ?_, fun sym count s hp => ?_, fun sym count => ?_, ?_⟩
  · rw [← encode_fset]
    exact Laws.RoundTrip.fset sym count rfl
  · exact ⟨s.writeFreq sym count, exec_fset sym count hp, fun k => s.readFreq_writeFreq sym k count, rfl⟩
  · exact outOfPhase_of_legal fun p => (legal_fset_iff sym count p).mp
  · exact illegalWhen_reserved .si (by decide) WordFormat.reserved_si

/-- Settles O16: the read-back writes `RDATA` and `RAUX` and nothing else (rule R25). -/
theorem fgetReadsOneCount : Obligations.FgetReadsOneCount := by
  unfold Obligations.FgetReadsOneCount
  refine ⟨fun sym => ?_, fun sym _ hp => exec_fget sym hp, fun sym => ?_, ?_⟩
  · rw [← encode_fget]
    exact Laws.RoundTrip.fget sym rfl
  · exact outOfPhase_of_legal fun p => (legal_fget_iff sym p).mp
  · exact illegalWhen_reserved .s (by decide) WordFormat.reserved_s

end

section
/-! SUPPORT. What `build()` leaves behind, in the words of the statements on the tree builder: the empty table (rule
R99), the one key (rule R98), the entries it does not write (rule R94), and how heavy a node can be (rule R96). -/

namespace Sys2Proof.Machine

/-- An empty table builds nothing (rule R99). -/
theorem build_eq_none {s : State} (h : ∀ k, s.readFreq k = 0) : s.build = none := by
  rcases build_spec s with ⟨_, hnone⟩ | ⟨hkeys, _⟩
  · exact hnone
  · exact absurd ((keysOf_eq_nil s.freq).mpr h) hkeys

/-- An entry that is not allocated keeps what it held (rule R94). -/
theorem readNode_of_build {s u : State} (hb : s.build = some u) {i : NodeIdx}
    (hi : allocIn s.freq u.nint i = false) : u.readNode i = s.readNode i := by
  rcases build_spec s with ⟨_, hnone⟩ | ⟨_, nd, r, nsym, nint, hsome, _, _, _, hframe, _⟩
  · simp [hnone] at hb
  · obtain rfl := Option.some.inj (hsome.symm.trans hb)
    exact hframe i hi

theorem keysOf_eq_singleton {t : Table Count} {k : Sym} (hk : freqOf t k ≠ 0) (h : ∀ j, j ≠ k → freqOf t j = 0) :
    keysOf t = [k] := by
  refine List.perm_singleton.mp ((List.perm_ext_iff_of_nodup (keysOf_nodup t) (List.nodup_singleton k)).mpr fun j => ?_)
  rw [mem_keysOf, List.mem_singleton]
  exact ⟨not_imp_comm.mp (h j), fun hj => hj ▸ hk⟩

section Weights
variable {freq : Table Count} {node : Table Node} {root : NodeIdx} {nsym : BitVec 9} {nint : BitVec 8}

/-- No node is heavier than a node above it: an internal node weighs the sum of its children (rule R23(b)). -/
theorem TreeOk.weight_le_of_follow (h : TreeOk freq node root nsym nint) (p : BitSeq) (i j : NodeIdx)
    (hi : allocIn freq nint i = true) (hf : follow node i p = some j) :
    (nodeOf node j).weight.toNat ≤ (nodeOf node i).weight.toNat := by
  induction p generalizing i with
  | nil => rw [Option.some.inj hf]
  | cons b p ih =>
    cases hl : isLeafIdx i with
    | true => exact absurd (follow_leaf node i j (b :: p) hl hf).1 (List.cons_ne_nil b p)
    | false =>
      rw [follow_cons node i b p hl (h.alloc_lt i hi)] at hf
      obtain ⟨hleft, hright, _⟩ := h.children i ⟨hi, hl⟩
      have hsum := h.weights i ⟨hi, hl⟩
      cases b with
      | false => exact (ih _ hleft hf).trans (by omega)
      | true => exact (ih _ hright hf).trans (by omega)

/-- Every allocated node is below the root, so none is heavier (rule R23(c)). -/
theorem TreeOk.weight_le_root (h : TreeOk freq node root nsym nint) (i : NodeIdx) (hi : allocIn freq nint i = true) :
    (nodeOf node i).weight.toNat ≤ (nodeOf node root).weight.toNat := by
  obtain ⟨p, hp⟩ := (h.reach_iff_alloc i).mpr hi
  exact h.weight_le_of_follow p root i h.rootAlloc hp

end Weights

end Sys2Proof.Machine
end

section
open Sys2Proof Sys2Proof.Machine

/-- Settles O19: the build loop's result is a Huffman tree, and the state differs from the old one in what the loop
writes. -/
theorem buildFollowsTheMergeRule : Obligations.BuildFollowsTheMergeRule := by
  unfold Obligations.BuildFollowsTheMergeRule
  refine fun s => ⟨build_eq_none, fun ⟨k, hk⟩ => ?_⟩
  obtain ⟨t, hb⟩ := build_exists hk
  have hbuilt := built_of_build hb
  exact ⟨t, hb, hbuilt.huffman, hbuilt.tree.nsymCounts, hbuilt.tree.nintCounts, fun i => readNode_of_build hb,
    hbuilt.frame⟩

/-- Settles O21: the root weighs the sum of all counts, and no node is heavier than the root. -/
theorem weightsAreExact : Obligations.WeightsAreExact := by
  unfold Obligations.WeightsAreExact
  intro s t hb
  have hbuilt := built_of_build hb
  refine ⟨hbuilt.weight, hbuilt.treeOk.weights, fun i hi => ?_⟩
  calc (t.readNode i).weight.toNat
      ≤ (t.readNode t.root).weight.toNat := hbuilt.treeOk.weight_le_root i hi
    _ = totalCount s.freq := hbuilt.weight
    _ ≤ 256 * (2 ^ 32 - 1) := totalCount_le s.freq

/-- Settles O22: the one key is the only allocated entry of a tree without merges. -/
theorem oneKeyGivesOneLeaf : Obligations.OneKeyGivesOneLeaf := by
  unfold Obligations.OneKeyGivesOneLeaf
  intro s k hk hother
  obtain ⟨t, hb⟩ := build_exists hk
  obtain ⟨hroot, hnsym, hnint⟩ :=
    (built_of_build hb).tree.leafRoot_of_one k (keysOf_eq_singleton hk hother)
  exact ⟨t, hb, by rw [hroot, leafIdx_toNat], hnsym, hnint⟩

/-- Settles O23: both commands build first, and an empty table builds nothing. -/
theorem emptyTableFaults : Obligations.EmptyTableFaults := by
  unfold Obligations.EmptyTableFaults
  intro s hp hempty
  constructor
  · rw [exec_tbuild s hp, build_eq_none hempty]
    rfl
  · intro tbc
    rw [exec_dstart tbc s hp, build_eq_none hempty]
    rfl

end

section
/-! SUPPORT. The commands `TBUILD` and `TGET`: their words, their legal phases and what they do (rules R64, R69, R95,
R100), and the fields of the record that `TGET` reads (rule R101). -/

namespace Sys2Proof.Machine

theorem legal_tbuild_iff (p : Phase) : legal .tbuild p = true ↔ p ∈ [.idle] := by
  simp [legal]

theorem legal_tget_iff (idx : NodeIdx) (p : Phase) :
    legal (.tget idx) p = true ↔ p ∈ [.tree, .codes, .comp, .decode] := by
  simp [legal, or_assoc]

theorem encode_tget (idx : NodeIdx) : encode (.tget idx) = 0x2100000000000000#64 ||| (idx.setWidth 64 <<< 32) := by
  simp [encode, assemble, Instr.opcode, Instr.fieldFLG, Instr.fieldA, Instr.fieldIMM]

theorem exec_tget (idx : NodeIdx) {s : State} (hp : s.phase ∈ [.tree, .codes, .comp, .decode]) :
    exec (.tget idx) s = .next (s.readBack (s.nodeReadBack idx) 0) :=
  frontEnd_legal _ (by simp) ((legal_tget_iff idx s.phase).mpr hp)

/-- The illegal words of format `N`: a reserved bit is 1, or the index names no entry (rule R65(b), (c)). -/
theorem reservedN_iff (w : CmdWord) : reservedN w ↔ WordFormat.n.reserved w ∨ operandIdx w = NIL := by
  rw [WordFormat.reserved_n, or_assoc, or_assoc]
  rfl

/-- A word of `TGET` with a reserved bit, or of index 511, is illegal. -/
theorem illegalWhen_reservedN {op : BitVec 8} (hop : op ∈ WordFormat.n.opcodes) : illegalWhen op reservedN := by
  rintro w s rfl hw hf
  have hillegal : ∃ why, decode w = .illegal why (wordOP w) := by
    by_cases hres : WordFormat.n.reserved w
    · exact ⟨_, (decode_reservedBit_iff w).mpr ⟨.n, hop, hres⟩⟩
    · exact ⟨_, (decode_nilIndex_iff w).mpr ⟨hop, hres, ((reservedN_iff w).mp hw).resolve_left hres⟩⟩
  obtain ⟨why, hdecode⟩ := hillegal
  rw [runWord_illegal hdecode hf]
  rfl

/-! ## The record of a node -/

/-- A field of a 64-bit record, its lowest bit at `pos`. -/
def fieldAt {n : Nat} (pos : Nat) (x : BitVec n) : BitVec 64 := x.setWidth 64 <<< pos

@[simp] theorem extract_fieldAt_same {n pos : Nat} (x : BitVec n) (h : pos + n ≤ 64) :
    (fieldAt pos x).extractLsb' pos n = x := by
  apply BitVec.eq_of_getLsbD_eq
  intro i hi
  simp [fieldAt, hi, show pos + i < 64 by omega]

/-- Bits above or below a field do not see it. -/
@[simp] theorem extract_fieldAt_disjoint {n pos start len : Nat} (x : BitVec n) (h : start + len ≤ pos ∨ pos + n ≤ start) :
    (fieldAt pos x).extractLsb' start len = 0#len := by
  apply BitVec.eq_of_getLsbD_eq
  intro i hi
  rcases h with h | h
  · simp [fieldAt, show start + i < pos by omega]
  · simp [fieldAt, BitVec.getLsbD_of_ge x (start + i - pos) (by omega)]

/-- `KIND` of the record: 0 for a leaf, 1 for an internal node (rule R101). -/
def kindBit (idx : NodeIdx) : BitVec 1 := if 256 ≤ idx.toNat then 1 else 0

/-- The record is its five fields, which do not overlap (rule R101). -/
theorem nodeRecord_eq_fields (idx : NodeIdx) (n : Node) :
    nodeRecord idx n = fieldAt 63 1#1 ||| fieldAt 62 (kindBit idx) ||| fieldAt 49 n.left ||| fieldAt 40 n.right |||
      fieldAt 0 n.weight := by
  have hkind : (if isLeafIdx idx then 0#64 else 1#64) = (kindBit idx).setWidth 64 := by
    by_cases h : 256 ≤ idx.toNat
    · simp [kindBit, h, (isLeafIdx_false_iff idx).mpr h]
    · simp [kindBit, h, (isLeafIdx_iff idx).mpr (Nat.lt_of_not_le h)]
  rw [nodeRecord, hkind]
  simp [fieldAt]

section Record
variable (idx : NodeIdx) (n : Node)

/-- Bits of the record, field by field; those of fields elsewhere are 0. -/
theorem extract_nodeRecord (start len : Nat) :
    (nodeRecord idx n).extractLsb' start len =
      (fieldAt 63 1#1).extractLsb' start len ||| (fieldAt 62 (kindBit idx)).extractLsb' start len |||
        (fieldAt 49 n.left).extractLsb' start len ||| (fieldAt 40 n.right).extractLsb' start len |||
        (fieldAt 0 n.weight).extractLsb' start len := by
  simp only [nodeRecord_eq_fields, BitVec.extractLsb'_or]

theorem nodeRecord_alloc : (nodeRecord idx n).extractLsb' 63 1 = 1 := by
  simp [extract_nodeRecord]

theorem nodeRecord_kind : (nodeRecord idx n).extractLsb' 62 1 = kindBit idx := by
  simp [extract_nodeRecord]

theorem nodeRecord_zero : (nodeRecord idx n).extractLsb' 58 4 = 0 := by
  simp [extract_nodeRecord]

theorem nodeRecord_left : (nodeRecord idx n).extractLsb' 49 9 = n.left := by
  simp [extract_nodeRecord]

theorem nodeRecord_right : (nodeRecord idx n).extractLsb' 40 9 = n.right := by
  simp [extract_nodeRecord]

theorem nodeRecord_weight : (nodeRecord idx n).extractLsb' 0 40 = n.weight := by
  simp [extract_nodeRecord]

end Record

end Sys2Proof.Machine
end

section
open Sys2Proof Sys2Proof.Machine

/-- Settles O25: `TBUILD` runs `build()` and moves to `TREE`, so what `build()` gives stands in the new state. -/
theorem tbuildBuildsTheTree : Obligations.TbuildBuildsTheTree := by
  unfold Obligations.TbuildBuildsTheTree
  refine ⟨by decide, fun s hp hkey => ?_, fun s hp hempty => (emptyTableFaults s hp hempty).1, ?_, ?_⟩
  · obtain ⟨u, hb, hhuffman, hnsym, hnint, hkept, hframe⟩ := (buildFollowsTheMergeRule s).2 hkey
    refine ⟨u.setPhase .tree, ?_, rfl, hhuffman, hnsym, hnint, hkept, congrArg (State.setPhase · .tree) hframe⟩
    rw [exec_tbuild s hp, hb]
  · exact outOfPhase_of_legal fun p => (legal_tbuild_iff p).mp
  · exact illegalWhen_reserved .z (by decide) WordFormat.reserved_z

/-- Settles O26: the read-back is the record of an allocated entry, field by field, and 0 for any other. -/
theorem tgetReadsOneNode : Obligations.TgetReadsOneNode := by
  unfold Obligations.TgetReadsOneNode
  refine ⟨fun idx hidx => ?_, fun idx s hp => ?_, fun idx => ?_, illegalWhen_reservedN (by decide)⟩
  · rw [← encode_tget]
    exact Laws.RoundTrip.tget idx (decide_eq_true hidx)
  · refine ⟨_, exec_tget idx hp, rfl, fun hfree => ?_, fun halloc => ?_⟩
    · simp [State.nodeReadBack, hfree]
    · have hrecord : s.nodeReadBack idx = nodeRecord idx (s.readNode idx) := if_pos halloc
      rw [State.readBack_rdata, hrecord]
      exact ⟨nodeRecord_alloc _ _, nodeRecord_kind _ _, nodeRecord_zero _ _, nodeRecord_left _ _,
        nodeRecord_right _ _, nodeRecord_weight _ _⟩
  · exact outOfPhase_of_legal fun p => (legal_tget_iff idx p).mp

end

section
/-! SUPPORT. The commands `CGEN` and `CGET`: their words, their legal phases and what they do (rules R64, R69, R113 to
R116), and which entry of the code table a symbol has (rules R24, R114). -/

namespace Sys2Proof.Machine

theorem legal_cgen_iff (p : Phase) : legal .cgen p = true ↔ p ∈ [.tree] := by
  simp [legal]

theorem legal_cget_iff (sym : Sym) (p : Phase) : legal (.cget sym) p = true ↔ p ∈ [.codes, .comp] := by
  simp [legal]

theorem encode_cget (sym : Sym) : encode (.cget sym) = 0x3100000000000000#64 ||| (sym.setWidth 64 <<< 32) := by
  simp [encode, assemble, Instr.opcode, Instr.fieldFLG, Instr.fieldA, Instr.fieldIMM]

/-! ## `CGEN` -/

section Cgen
variable {s : State}

/-- `CGEN` writes the tree's code table when no code word is longer than `MAXLEN` (rule R114). -/
theorem exec_cgen_of_short (hphase : s.phase = .tree) (ht : s.treeOk)
    (hshort : ∀ k p, s.readFreq k ≠ 0 → isCodeWord s.node s.root k p → p.length ≤ s.cfg.maxLen) :
    ∃ c, exec .cgen s = .next ((s.setCode c).setPhase .codes) ∧ CodeOk ((s.setCode c).setPhase .codes) := by
  rcases cgen_spec s hphase ht with ⟨k, p, hk, hp, hlong, _⟩ | ⟨_, c, hrun, _, hcode⟩
  · exact absurd (hshort k p hk hp) (Nat.not_le.mpr hlong)
  · exact ⟨c, hrun, hcode⟩

/-- `CGEN` raises its fault for the smallest key whose code word is longer than `MAXLEN` (rule R113). -/
theorem exec_cgen_of_long {k : Sym} {p : BitSeq} (hphase : s.phase = .tree) (ht : s.treeOk) (hk : s.readFreq k ≠ 0)
    (hp : isCodeWord s.node s.root k p) (hlong : s.cfg.maxLen < p.length)
    (hleast : ∀ j q, s.readFreq j ≠ 0 → isCodeWord s.node s.root j q → s.cfg.maxLen < q.length → k.toNat ≤ j.toNat) :
    exec .cgen s = .next (s.raise .maxCodeLengthExceeded (k.setWidth 16)) := by
  rcases cgen_spec s hphase ht with ⟨j, q, hj, hq, hjlong, hjleast, hrun⟩ | ⟨hshort, _⟩
  · have hkj : k = j :=
      BitVec.eq_of_toNat_eq (Nat.le_antisymm (hleast j q hj hq hjlong) (hjleast k p hk hp hlong))
    rw [hkj]
    exact hrun
  · exact absurd (hshort k p hk hp) (Nat.not_le.mpr hlong)

end Cgen

/-! ## The entry of a symbol -/

section Entry
variable {s : State}

/-- The entry of a key holds the key's one code word. -/
theorem CodeOk.readCode_eq_codeEntry (h : CodeOk s) (ht : s.treeOk) {k : Sym} {p : BitSeq} (hk : s.readFreq k ≠ 0)
    (hp : isCodeWord s.node s.root k p) : s.readCode k = codeEntry p := by
  obtain ⟨q, hq, _, _, hentry⟩ := h.present k hk
  rw [hentry, TreeOk.codeWord_unique ht k q p hq hp]

/-- On a legal instance every code word's length fits the entry (rule R24). -/
theorem CodeOk.len_toNat_eq_length (h : CodeOk s) (hc : s.cfg.legal = true) (ht : s.treeOk) {k : Sym} {p : BitSeq}
    (hk : s.readFreq k ≠ 0) (hp : isCodeWord s.node s.root k p) : (s.readCode k).len.toNat = p.length := by
  obtain ⟨q, hq, _, _, _, hlen⟩ := h.word hc k hk
  rw [hlen, TreeOk.codeWord_unique ht k p q hp hq]

/-- A symbol with no code is no key, and its entry is `{0, 0}`. -/
theorem CodeOk.readCode_eq_default (h : CodeOk s) (hc : s.cfg.legal = true) {k : Sym}
    (hnone : s.readFreq k = 0 ∨ (s.readCode k).len = 0) : s.readCode k = codeDefault := by
  refine h.absent k (hnone.elim id fun hlen => ?_)
  by_contra hk
  exact (h.len_ne_zero_iff hc k).mpr hk hlen

end Entry

/-! ## `CGET` -/

theorem exec_cget (sym : Sym) {s : State} (hp : s.phase ∈ [.codes, .comp]) :
    exec (.cget sym) s =
      .next (s.readBack ((s.readCode sym).bits.setWidth 64) ((s.readCode sym).len.setWidth 8)) :=
  frontEnd_legal _ (by simp) ((legal_cget_iff sym s.phase).mpr hp)

/-- The read-back registers are wide enough for an entry, so they hold its whole code word (rule R116). -/
theorem Code.word_eq_seqOf_setWidth (e : Code) :
    e.word = seqOf (e.bits.setWidth 64).toNat (e.len.setWidth 8).toNat := by
  rw [Code.word, BitVec.toNat_setWidth_of_le (by decide), BitVec.toNat_setWidth_of_le (by decide)]

end Sys2Proof.Machine
end

section
open Sys2Proof Sys2Proof.Machine

/-- Settles O27: the new code table is the tree's, so each key's entry holds its one code word. -/
theorem cgenWritesThePaths : Obligations.CgenWritesThePaths := by
  unfold Obligations.CgenWritesThePaths
  refine ⟨by decide, fun s _ hphase ht hshort => ?_, ?_, ?_, ?_⟩
  · obtain ⟨c, hrun, hcode⟩ := exec_cgen_of_short hphase ht hshort
    exact ⟨_, hrun, hcode.absent, fun k p => hcode.readCode_eq_codeEntry ht, rfl⟩
  · exact fun s k p _ => exec_cgen_of_long
  · exact outOfPhase_of_legal fun p => (legal_cgen_iff p).mp
  · exact illegalWhen_reserved .z (by decide) WordFormat.reserved_z

/-- Settles O28: the leaves that paths reach are the keys, and paths are unique. -/
theorem everyKeyHasOneCodeWord : Obligations.EveryKeyHasOneCodeWord := by
  unfold Obligations.EveryKeyHasOneCodeWord
  intro s ht k hk
  obtain ⟨p, hp⟩ := TreeOk.codeWord_exists ht k hk
  exact ⟨p, hp, codeWord_ne_nil k p hp, fun q hq => TreeOk.codeWord_unique ht k q p hq hp⟩

/-- Settles O31: the read-back is the symbol's entry, which is `{0, 0}` without a code and has the length of the code
word with one. -/
theorem cgetReadsOneCodeWord : Obligations.CgetReadsOneCodeWord := by
  unfold Obligations.CgetReadsOneCodeWord
  refine ⟨fun sym => ?_, fun sym _ hp => exec_cget sym hp, fun sym s t hp hrun => ?_, fun sym s hc hp hcode hnone => ?_,
    fun sym s n hc hp ht hcode hk hword => ?_, fun sym => ?_, ?_⟩
  · rw [← encode_cget]
    exact Laws.RoundTrip.cget sym rfl
  · obtain rfl := Host.Outcome.next.inj ((exec_cget sym hp).symm.trans hrun)
    exact ⟨(s.readCode sym).word_eq_seqOf_setWidth, by simp, setWidth_high _⟩
  · rw [exec_cget sym hp, hcode.readCode_eq_default hc hnone]
    rfl
  · have hraux : ((s.readCode sym).len.setWidth 8).toNat = n := by
      rw [BitVec.toNat_setWidth_of_le (by decide), hcode.len_toNat_eq_length hc ht hk hword]
      exact List.length_replicate
    have hbits : (s.readCode sym).bits = 0 := by
      rw [hcode.readCode_eq_codeEntry ht hk hword, codeEntry, valOf_zeros]
      rfl
    have hpos : 1 ≤ n := by simpa [zeros] using codeWord_ne_nil sym (zeros n) hword
    exact ⟨_, exec_cget sym hp, by simp [hbits], hraux, hraux.symm ▸ hpos⟩
  · exact outOfPhase_of_legal fun p => (legal_cget_iff sym p).mp
  · exact illegalWhen_reserved .s (by decide) WordFormat.reserved_s

end

section
/-! SUPPORT. The commands `CSTART`, `CPUT` and `CEND`: their words, their legal phases (rules R64, R69), and what `CPUT`
leaves of the buffer it flushes (rules R27, R122, R123). -/

namespace Sys2Proof.Machine

theorem legal_cstart_iff (p : Phase) : legal .cstart p = true ↔ p ∈ [.codes] := by
  simp [legal]

theorem legal_cput_iff (byte : Byte) (p : Phase) : legal (.cput byte) p = true ↔ p ∈ [.comp] := by
  simp [legal]

theorem legal_cend_iff (p : Phase) : legal .cend p = true ↔ p ∈ [.comp] := by
  simp [legal]

theorem encode_cput (byte : Byte) : encode (.cput byte) = 0x4100000000000000#64 ||| (byte.setWidth 64 <<< 32) := by
  simp [encode, assemble, Instr.opcode, Instr.fieldFLG, Instr.fieldA, Instr.fieldIMM]

/-- `CPUT` of a byte that has no code raises before anything is appended (rule R122). -/
theorem exec_cput_of_no_code (byte : Byte) {s : State} (hp : s.phase = .comp) (hnone : (s.readCode byte).len = 0) :
    exec (.cput byte) s = .next (s.raise .symbolNotInCodeTable (byte.setWidth 16)) :=
  (frontEnd_legal _ (by simp) (by simp [hp, legal_cput_iff])).trans (if_pos hnone)

theorem cputBuffer_length (s : State) (byte : Byte) :
    (s.cputBuffer byte).length = s.pcnt.toNat + (s.readCode byte).len.toNat := by
  rw [State.cputBuffer, List.length_append, pendingBits_length, Code.word, seqOf_length]

/-- `PBITS` is wide enough for the pending bits and the zeros under them (rule R27). -/
theorem pendingImage_toNat (p : BitSeq) (h : p.length ≤ 7) :
    (pendingImage p).toNat = valOf (p ++ zeros (7 - p.length)) := by
  have hlen : (p ++ zeros (7 - p.length)).length = 7 := by
    rw [List.length_append, zeros, List.length_replicate]
    omega
  have hlt := valOf_lt (p ++ zeros (7 - p.length))
  rw [hlen] at hlt
  rw [pendingImage, BitVec.toNat_ofNat, Nat.mod_eq_of_lt hlt]

end Sys2Proof.Machine
end

section
open Sys2Proof Sys2Proof.Machine

/-- Settles O33: `flush` takes the whole groups of 8 bits from the front. -/
theorem flushEmitsWholeBytes : Obligations.FlushEmitsWholeBytes := by
  unfold Obligations.FlushEmitsWholeBytes
  exact flush_spec

/-- Settles O34: the new stream has no pending bits. -/
theorem cstartOpensTheStream : Obligations.CstartOpensTheStream := by
  unfold Obligations.CstartOpensTheStream
  refine ⟨by decide, fun s hp => exec_cstart s hp, ?_, ?_⟩
  · exact outOfPhase_of_legal fun p => (legal_cstart_iff p).mp
  · exact illegalWhen_reserved .z (by decide) WordFormat.reserved_z

/-- Settles O35: the buffer of pending bits and code word is flushed, and what `flush` returns is less than a byte, so
`PCNT` and `PBITS` hold it. -/
theorem cputAppendsOneCodeWord : Obligations.CputAppendsOneCodeWord := by
  unfold Obligations.CputAppendsOneCodeWord
  refine ⟨fun byte => ?_, fun byte s hp hnone => exec_cput_of_no_code byte hp hnone, fun byte s hp hcode => ?_,
    fun byte => ?_, ?_⟩
  · rw [← encode_cput]
    exact Laws.RoundTrip.cput byte rfl
  · obtain ⟨hbits, hbytes, hleft⟩ := flush_spec (s.cputBuffer byte)
    have hshort : (flush (s.cputBuffer byte)).2.length ≤ 7 := by omega
    rw [cputBuffer_length] at hbytes
    exact ⟨_, _, _, exec_cput byte s hp hcode, rfl, hbytes, hbits, hshort, pendingCount_toNat _ hshort,
      pendingImage_toNat _ hshort⟩
  · exact outOfPhase_of_legal fun p => (legal_cput_iff byte p).mp
  · exact illegalWhen_reserved .s (by decide) WordFormat.reserved_s

/-- Settles O36: the last byte is the pending bits over zeros, and `TBC` is their number. -/
theorem cendClosesTheStream : Obligations.CendClosesTheStream := by
  unfold Obligations.CendClosesTheStream
  refine ⟨by decide, fun s hp => exec_cend s hp, unpack8_cend, ?_, ?_⟩
  · exact outOfPhase_of_legal fun p => (legal_cend_iff p).mp
  · exact illegalWhen_reserved .z (by decide) WordFormat.reserved_z

end

section
/-! SUPPORT. The commands `DSTART` and `DBYTE`: their words, their legal phases (rules R64, R69), the valid bits of a
byte one by one (rule R139), and where a walk under a one-leaf tree stops (rule R141). -/

namespace Sys2Proof.Machine

theorem legal_dstart_iff (tbc : BitVec 3) (p : Phase) : legal (.dstart tbc) p = true ↔ p ∈ [.idle] := by
  simp [legal]

theorem legal_dbyte_iff (byte : Byte) (last : Bool) (p : Phase) :
    legal (.dbyte byte last) p = true ↔ p ∈ [.decode] := by
  simp [legal]

theorem encode_dstart (tbc : BitVec 3) :
    encode (.dstart tbc) = 0x5000000000000000#64 ||| (tbc.setWidth 64 <<< 32) := by
  simp [encode, assemble, Instr.opcode, Instr.fieldFLG, Instr.fieldA, Instr.fieldIMM]

theorem encode_dbyte (byte : Byte) (last : Bool) :
    encode (.dbyte byte last) =
      0x5100000000000000#64 ||| ((BitVec.ofBool last).setWidth 64 <<< 48) ||| (byte.setWidth 64 <<< 32) := by
  cases last <;> simp [encode, assemble, Instr.opcode, Instr.fieldFLG, Instr.fieldA, Instr.fieldIMM]

/-- The symbol of a leaf is the low byte of its index (rule R21). -/
theorem leafSym_eq_setWidth (i : NodeIdx) : leafSym i = i.setWidth 8 := by
  rw [leafSym, BitVec.setWidth_eq_extractLsb' (by decide)]

/-- The valid bits of a byte are its bits from 7 down (rules R42, R139). -/
theorem take_validBits (byte : Byte) (last : Bool) (tbc : BitVec 3) :
    (unpack8 byte).take (validBits last tbc) =
      (List.range (if last = true ∧ tbc ≠ 0 then tbc.toNat else 8)).map (fun j => byte.getLsbD (7 - j)) := by
  have hbits : unpack8 byte = (List.range 8).map (fun j => byte.getLsbD (7 - j)) := unpack8_eq_getLsbD byte
  have hcount : validBits last tbc = if last = true ∧ tbc ≠ 0 then tbc.toNat else 8 := by simp [validBits]
  rw [hbits, ← List.map_take, List.take_range, Nat.min_eq_left (validBits_le last tbc), hcount]

/-- A command that runs in a phase it is legal in has its own effect (rules R68, R69). -/
theorem effect_of_legal {i : Instr} {s t : State} (hi : i ≠ .srst) (hl : legal i s.phase = true)
    (h : exec i s = .next t) : Effect s t i := by
  rcases exec_next i s t h with ⟨_, hfault, _⟩ | ⟨_, _, hillegal, _⟩ | ⟨_, heffect⟩
  · exact absurd hfault (legal_not_fault i s.phase hl hi)
  · simp [hl] at hillegal
  · exact heffect

/-- Under a one-leaf tree a walk stops at the first bit 1, whatever bits follow (rules R141, R170). -/
theorem walk_zeros_true (n : Nat) (rest : BitSeq) (s : State) (hl : isLeafIdx s.root = true) :
    walk (zeros n ++ true :: rest) s =
      .raised ((s.emit (List.replicate n (leafSym s.root))).raise .invalidCodeBit 0) := by
  have hroot : isLeafIdx (s.emit (List.replicate n (leafSym s.root))).root = true := hl
  rw [walk_append _ _ _ _ (walk_zeros n s hl), walk, walkStep_leafRoot true _ hroot]
  rfl

end Sys2Proof.Machine
end

section
open Sys2Proof Sys2Proof.Machine

/-- Settles O38: `DSTART` runs `build()`, whose tree always passes the defensive check (rule R137, the spec's own
inference), and opens the stream at the new root. -/
theorem dstartOpensTheStream : Obligations.DstartOpensTheStream := by
  unfold Obligations.DstartOpensTheStream
  refine ⟨fun tbc => ?_, fun tbc s hp hkey => ?_, fun tbc s hp hempty => (emptyTableFaults s hp hempty).2 tbc,
    fun tbc => ?_, ?_⟩
  · rw [← encode_dstart]
    exact Laws.RoundTrip.dstart tbc rfl
  · obtain ⟨u, hb, hhuffman, hnsym, hnint, hkept, hframe⟩ := (buildFollowsTheMergeRule s).2 hkey
    refine ⟨((u.setTbc tbc).setDcur u.root).setPhase .decode, ?_, rfl, rfl, rfl, hhuffman, hnsym, hnint, hkept,
      congrArg (fun v : State => ((v.setTbc tbc).setDcur u.root).setPhase .decode) hframe⟩
    rw [exec_dstart tbc s hp, hb]
  · exact outOfPhase_of_legal fun p => (legal_dstart_iff tbc p).mp
  · exact illegalWhen_reserved .t (by decide) WordFormat.reserved_t

/-- Settles O42: on a tree that meets rule R23 a walk goes on or, under a one-leaf tree, raises `InvalidCodeBit`, and
`DBYTE` answers by where it led. -/
theorem dbyteWalksTheValidBits : Obligations.DbyteWalksTheValidBits := by
  unfold Obligations.DbyteWalksTheValidBits
  refine ⟨fun byte last => ?_, fun byte last s hp htree hcursor => ?_, fun byte last => ?_, ?_⟩
  · rw [← encode_dbyte]
    exact Laws.RoundTrip.dbyte byte last rfl
  · rw [← take_validBits, exec_dbyte byte last s hp]
    rcases walk_spec ((unpack8 byte).take (validBits last s.tbc)) s htree hcursor with
      ⟨bs, d, hw, _⟩ | ⟨hroot, bs, hw⟩
    · rw [hw]
      exact Or.inl ⟨_, rfl, rfl⟩
    · rw [hw]
      exact Or.inr ⟨(isLeafIdx_iff s.root).mp hroot, _, rfl, rfl, rfl, rfl, rfl⟩
  · exact outOfPhase_of_legal fun p => (legal_dbyte_iff byte last p).mp
  · exact illegalWhen_reserved .bl (by decide) WordFormat.reserved_bl

/-- Settles O43: the walk writes `OUT` and `DCUR`, and each end of the byte writes `PHASE` and at most a fault's
registers. -/
theorem dbyteFrame : Obligations.DbyteFrame := by
  unfold Obligations.DbyteFrame
  intro byte last s t hp _ _ hrun
  obtain ⟨syms, d, hlen, hend | ⟨_, hraised⟩⟩ :=
    effect_of_legal (by simp) ((legal_dbyte_iff byte last s.phase).mpr (by simp [hp])) hrun
  · refine ⟨syms, hlen, ?_⟩
    rcases ((s.emit syms).setDcur d).endOfByte_cases last with ⟨_, heq⟩ | ⟨_, heq⟩ | ⟨_, heq⟩
    · obtain rfl := hend.trans heq
      exact ⟨rfl, fun _ => ⟨rfl, rfl⟩⟩
    · obtain rfl := hend.trans heq
      exact ⟨rfl, fun _ => ⟨rfl, rfl⟩⟩
    · obtain rfl := hend.trans heq
      exact ⟨rfl, fun hphase => absurd rfl hphase⟩
  · obtain rfl := hraised
    exact ⟨syms, hlen, rfl, fun hphase => absurd rfl hphase⟩

/-- Settles O45: bits 0 emit the root's symbol and leave the walk at the root; the first bit 1 stops it. -/
theorem dbyteUnderAOneLeafTree : Obligations.DbyteUnderAOneLeafTree := by
  unfold Obligations.DbyteUnderAOneLeafTree
  intro byte last s hp hroot hd
  have hl : isLeafIdx s.root = true := (isLeafIdx_iff s.root).mpr hroot
  rw [exec_dbyte byte last s hp, ← leafSym_eq_setWidth]
  refine ⟨fun hzeros => ?_, fun n hn hbits => ?_⟩
  · rw [hzeros, walk_zeros _ s hl]
    cases last with
    | true => simp [State.endOfByte, hd, State.emit, State.setPhase]
    | false => simp [State.endOfByte, State.emit, hp]
  · obtain ⟨m, hm⟩ := Nat.exists_eq_add_of_le (Nat.succ_le_of_lt hn)
    rw [hm, List.take_add, hbits, List.append_assoc, List.singleton_append, walk_zeros_true n _ s hl]
    rfl

/-- Settles O40: the child the bit selects, and whether it is a leaf. -/
theorem walkStepOfAnInternalRoot : Obligations.WalkStepOfAnInternalRoot := by
  unfold Obligations.WalkStepOfAnInternalRoot
  intro s bit hroot hd
  have hlt : s.dcur.toNat < 511 := by bv_omega
  rw [walkStep_internal bit s ((isLeafIdx_false_iff s.root).mpr hroot) hlt]
  generalize (if bit = true then (s.readNode s.dcur).right else (s.readNode s.dcur).left) = child
  by_cases hleaf : child.toNat < 256
  · rw [if_pos ((isLeafIdx_iff child).mpr hleaf), if_pos hleaf, leafSym_eq_setWidth]
    rfl
  · rw [if_neg (mt (isLeafIdx_iff child).mp hleaf), if_neg hleaf]
    rfl

/-- Settles O41: the bit 0 is the one code word of a one-leaf tree, and the bit 1 begins none. -/
theorem walkStepOfAOneLeafTree : Obligations.WalkStepOfAOneLeafTree := by
  unfold Obligations.WalkStepOfAOneLeafTree
  intro s hroot
  have hl : isLeafIdx s.root = true := (isLeafIdx_iff s.root).mpr hroot
  rw [walkStep_leafRoot false s hl, walkStep_leafRoot true s hl, leafSym_eq_setWidth]
  exact ⟨rfl, rfl⟩

end

section
/-! SUPPORT. The words and the reset state that the rule of `SRST` speaks of (rule R155). -/

namespace Sys2Proof.Machine

/-- The reset table of counts has no entry (rule R31). -/
@[simp] theorem State.readFreq_resetState (s : State) (k : Sym) : s.resetState.readFreq k = 0 := freqOf_nil k

/-- A word of the opcode of `SRST` with another bit set is not `SRST` (rules R62, R65). -/
theorem decode_ne_srst_of_reservedZ {w : CmdWord} (hop : wordOP w = 0x01) (hw : reservedZ w) :
    decode w ≠ .instr .srst := by
  have hmem : wordOP w ∈ WordFormat.z.opcodes := hop ▸ by decide
  have hdecode := (decode_reservedBit_iff w).mpr ⟨.z, hmem, (WordFormat.reserved_z w).mpr hw⟩
  simp [hdecode]

end Sys2Proof.Machine
end

section
open Sys2Proof Sys2Proof.Machine

/-- Settles O13: `SRST` answers the reset state, whatever the phase; any other word of its opcode is an illegal one, and
`FAULT` ignores it. -/
theorem srstResetsEverything : Obligations.SrstResetsEverything := by
  unfold Obligations.SrstResetsEverything
  refine ⟨by decide, fun s => ⟨s.resetState, rfl, ?_⟩, ?_, ?_⟩
  · simp [NIL]
  · exact illegalWhen_reserved .z (by decide) WordFormat.reserved_z
  · exact fun w s hop hw hf => runWord_ignored (decode_ne_srst_of_reservedZ hop hw) hf

end

section
/-! SUPPORT. The one word of `SRST` (rules R64, R173), and a step by the next input at the pins (rules R178, R190,
R195). -/

namespace Sys2Proof.Machine

/-- The mask of the row of `SRST` is all ones, so only the row's own pattern selects it (rule R64). -/
theorem decode_eq_srst_iff (w : CmdWord) : decode w = .instr .srst ↔ w = 0x0100000000000000#64 := by
  constructor
  · intro h
    have hsel : OpcodeRow.selects ⟨"SRST", 0x0100000000000000, 0xFFFFFFFFFFFFFFFF⟩ w = true :=
      (selects_iff_decode (by decide) w).mpr ⟨.srst, h, rfl⟩
    have hmask : w &&& BitVec.allOnes 64 = 0x0100000000000000#64 :=
      eq_of_beq (Bool.and_eq_true_iff.mp hsel).1
    rwa [BitVec.and_allOnes] at hmask
  · rintro rfl
    decide

theorem runWord_srst (s : State) : runWord 0x0100000000000000#64 s = .next s.resetState :=
  runWord_of_instr s ((decode_eq_srst_iff _).mpr rfl)

/-- In `FAULT` every word but the one word of `SRST` is ignored (rule R173). -/
theorem runWord_ignored_of_ne {w : CmdWord} {s : State} (hw : w ≠ 0x0100000000000000#64) (hf : s.phase = .fault) :
    runWord w s = .next s :=
  runWord_ignored (mt (decode_eq_srst_iff w).mp hw) hf

section Step
variable {s : State} {rest : List PortInput}

theorem step_of_port_nil (h : s.port = []) : step s = .next s := by
  rw [step, takeInput, h]

theorem step_of_port_rst (h : s.port = .rst :: rest) : step s = .next { s with port := rest }.resetState := by
  rw [step, takeInput, h]

theorem step_of_port_command {w : CmdWord} (h : s.port = .command w :: rest) :
    step s = runWord w { s with port := rest } := by
  rw [step, takeInput, h]

end Step

end Sys2Proof.Machine
end

section
open Sys2Proof Sys2Proof.Machine

/-- Settles O9: no other word decodes to `SRST`, and the front end ignores what is not `SRST`. -/
theorem faultPhaseIgnoresAllButSrst : Obligations.FaultPhaseIgnoresAllButSrst := by
  unfold Obligations.FaultPhaseIgnoresAllButSrst
  exact fun w s hf hw => runWord_ignored_of_ne hw hf

/-- Settles O55: by the invariant the block is in `FAULT`, where the next input is a reset or is ignored. -/
theorem firstFaultIsFinal : Obligations.FirstFaultIsFinal := by
  unfold Obligations.FirstFaultIsFinal
  intro s t hinv herr h
  have hf : s.phase = .fault := hinv.errIffFault.mp herr
  cases hport : s.port with
  | nil =>
    rw [step_of_port_nil hport] at h
    obtain rfl := Host.Outcome.next.inj h
    exact .inr ⟨by simp, rfl, rfl, hf⟩
  | cons input rest =>
    cases input with
    | rst =>
      rw [step_of_port_rst hport] at h
      obtain rfl := Host.Outcome.next.inj h
      exact .inl ⟨.inl rfl, rfl, rfl, rfl⟩
    | command w =>
      rw [step_of_port_command hport] at h
      by_cases hw : w = 0x0100000000000000#64
      · subst hw
        rw [runWord_srst] at h
        obtain rfl := Host.Outcome.next.inj h
        exact .inl ⟨.inr rfl, rfl, rfl, rfl⟩
      · rw [runWord_ignored_of_ne (s := { s with port := rest }) hw hf] at h
        obtain rfl := Host.Outcome.next.inj h
        exact .inr ⟨by simp [hw], rfl, rfl, hf⟩

end

section
/-! SUPPORT. A word that decodes to a command is that command's word: each format reads back the fields it checks (rules
R61 to R65). -/

namespace Sys2Proof

/-- A command read from a word is well formed and has this word as its encoding (rule R67). -/
def ReadsBack (w : CmdWord) (c : Cmd) : Prop := ∀ i, c = .instr i → i.wf = true ∧ encode i = w

section ReadsBack
variable {w : CmdWord}

theorem ReadsBack.illegal (why : IllegalWord) (op : BitVec 8) : ReadsBack w (.illegal why op) :=
  fun _ h => nomatch h

/-- A command whose four fields are those of the word. -/
theorem ReadsBack.instr {i : Instr} (hwf : i.wf = true) (hop : i.opcode = wordOP w) (hflg : i.fieldFLG = wordFLG w)
    (ha : i.fieldA = wordA w) (himm : i.fieldIMM = wordIMM w) : ReadsBack w (.instr i) := by
  intro j hj
  obtain rfl := Cmd.instr.inj hj
  exact ⟨hwf, by rw [encode, hop, hflg, ha, himm, assemble_fields]⟩

theorem ReadsBack.checked {ok : Bool} {c : Cmd} (hc : ok = true → ReadsBack w c) :
    ReadsBack w (checked ok w c) := by
  unfold Sys2Proof.checked
  split
  · next h => exact hc h
  · exact .illegal _ _

theorem ReadsBack.ite {p : Prop} [Decidable p] {c d : Cmd} (hc : p → ReadsBack w c) (hd : ¬ p → ReadsBack w d) :
    ReadsBack w (if p then c else d) := by
  split
  · next h => exact hc h
  · next h => exact hd h

/-- The fields of a command of format `Z` are 0. -/
theorem ReadsBack.formatZ {i : Instr} (hwf : i.wf = true) (hop : i.opcode = wordOP w) (hflg : i.fieldFLG = 0)
    (ha : i.fieldA = 0) (himm : i.fieldIMM = 0) : ReadsBack w (formatZ w i) := by
  refine .checked fun hok => ?_
  simp only [Bool.and_eq_true, beq_iff_eq] at hok
  obtain ⟨⟨hflg', ha'⟩, himm'⟩ := hok
  exact .instr hwf hop (hflg.trans hflg'.symm) (ha.trans ha'.symm) (himm.trans himm'.symm)

theorem ReadsBack.formatS {mk : BitVec 8 → Instr} (hop : (mk (operandA8 w)).opcode = wordOP w)
    (hwf : ∀ x, (mk x).wf = true) (hflg : ∀ x, (mk x).fieldFLG = 0) (ha : ∀ x, (mk x).fieldA = x.setWidth 16)
    (himm : ∀ x, (mk x).fieldIMM = 0) : ReadsBack w (formatS w mk) := by
  refine .checked fun hok => ?_
  simp only [Bool.and_eq_true, beq_iff_eq] at hok
  obtain ⟨⟨hflg', ha'⟩, himm'⟩ := hok
  exact .instr (hwf _) hop ((hflg _).trans hflg'.symm) ((ha _).trans (setWidth_of_high (n := 8) _ rfl ha'))
    ((himm _).trans himm'.symm)

theorem ReadsBack.fset (hop : 0x11#8 = wordOP w) : ReadsBack w (formatSI w .fset) := by
  refine .checked fun hok => ?_
  simp only [Bool.and_eq_true, beq_iff_eq] at hok
  obtain ⟨hflg, ha⟩ := hok
  exact .instr rfl hop hflg.symm (setWidth_of_high (n := 8) _ rfl ha) rfl

/-- Only the index 511 is ill-formed, and it is refused (rule R62). -/
theorem ReadsBack.tget (hop : 0x21#8 = wordOP w) : ReadsBack w (formatN w .tget) := by
  refine .checked fun hok => ?_
  simp only [Bool.and_eq_true, beq_iff_eq] at hok
  obtain ⟨⟨hflg, ha⟩, himm⟩ := hok
  refine .ite (fun _ => .illegal _ _) fun hidx => ?_
  exact .instr (decide_eq_true hidx) hop hflg.symm (setWidth_of_high (n := 9) _ rfl ha) himm.symm

theorem ReadsBack.dstart (hop : 0x50#8 = wordOP w) : ReadsBack w (formatT w .dstart) := by
  refine .checked fun hok => ?_
  simp only [Bool.and_eq_true, beq_iff_eq] at hok
  obtain ⟨⟨hflg, ha⟩, himm⟩ := hok
  exact .instr rfl hop hflg.symm (setWidth_of_high (n := 3) _ rfl ha) himm.symm

/-- `LAST` is the low bit of `FLG`, alone above reserved ones (rule R63). -/
theorem ReadsBack.dbyte (hop : 0x51#8 = wordOP w) : ReadsBack w (formatBL w .dbyte) := by
  refine .checked fun hok => ?_
  simp only [Bool.and_eq_true, beq_iff_eq] at hok
  obtain ⟨⟨hflg, ha⟩, himm⟩ := hok
  have hlast : BitVec.ofBool (operandLast w) = (wordFLG w).extractLsb' 0 1 := by
    rw [operandLast]
    apply BitVec.eq_of_getLsbD_eq
    intro i hi
    obtain rfl : i = 0 := by omega
    simp
  have hflg' : (BitVec.ofBool (operandLast w)).setWidth 8 = wordFLG w := by
    rw [hlast]
    exact setWidth_of_high (n := 1) _ rfl hflg
  exact .instr rfl hop hflg' (setWidth_of_high (n := 8) _ rfl ha) himm.symm

end ReadsBack

/-- The decoder asks for the thirteen opcodes one after another, and each branch reads back its word. -/
theorem decode_readsBack (w : CmdWord) : ReadsBack w (decode w) := by
  refine .ite (fun h => .formatZ rfl h.symm rfl rfl rfl) fun srst => ?_
  refine .ite (fun h => .formatZ rfl h.symm rfl rfl rfl) fun fclr => ?_
  refine .ite (fun h => .fset h.symm) fun fset => ?_
  refine .ite (fun h => .formatS h.symm (fun _ => rfl) (fun _ => rfl) (fun _ => rfl) fun _ => rfl) fun fget => ?_
  refine .ite (fun h => .formatZ rfl h.symm rfl rfl rfl) fun tbuild => ?_
  refine .ite (fun h => .tget h.symm) fun tget => ?_
  refine .ite (fun h => .formatZ rfl h.symm rfl rfl rfl) fun cgen => ?_
  refine .ite (fun h => .formatS h.symm (fun _ => rfl) (fun _ => rfl) (fun _ => rfl) fun _ => rfl) fun cget => ?_
  refine .ite (fun h => .formatZ rfl h.symm rfl rfl rfl) fun cstart => ?_
  refine .ite (fun h => .formatS h.symm (fun _ => rfl) (fun _ => rfl) (fun _ => rfl) fun _ => rfl) fun cput => ?_
  refine .ite (fun h => .formatZ rfl h.symm rfl rfl rfl) fun cend => ?_
  refine .ite (fun h => .dstart h.symm) fun dstart => ?_
  exact .ite (fun h => .dbyte h.symm) fun _ => .illegal _ _

theorem decode_encode (i : Instr) (hwf : i.wf = true) : decode (encode i) = .instr i := by
  cases i with
  | srst => exact Laws.RoundTrip.srst hwf
  | fclr => exact Laws.RoundTrip.fclr hwf
  | fset sym count => exact Laws.RoundTrip.fset sym count hwf
  | fget sym => exact Laws.RoundTrip.fget sym hwf
  | tbuild => exact Laws.RoundTrip.tbuild hwf
  | tget idx => exact Laws.RoundTrip.tget idx hwf
  | cgen => exact Laws.RoundTrip.cgen hwf
  | cget sym => exact Laws.RoundTrip.cget sym hwf
  | cstart => exact Laws.RoundTrip.cstart hwf
  | cput byte => exact Laws.RoundTrip.cput byte hwf
  | cend => exact Laws.RoundTrip.cend hwf
  | dstart tbc => exact Laws.RoundTrip.dstart tbc hwf
  | dbyte byte last => exact Laws.RoundTrip.dbyte byte last hwf

end Sys2Proof
end

section
open Sys2Proof

/-- Settles O2: each command's word is read back, and each format's fields are those it checks and reads, so a command
leaves only one word. -/
theorem decodeInvertsEncode : Obligations.DecodeInvertsEncode := by
  unfold Obligations.DecodeInvertsEncode
  refine ⟨decode_encode, decode_readsBack, fun v w i j hne hi hj hij => hne ?_⟩
  obtain ⟨_, hv⟩ := decode_readsBack v i hi
  obtain ⟨_, hw⟩ := decode_readsBack w j hj
  rw [← hv, ← hw, hij]

/-- Settles O1: the decoder, run on fourteen words. -/
theorem exampleWordsDecode : Obligations.ExampleWordsDecode := by
  unfold Obligations.ExampleWordsDecode
  decide

end

section
/-! SUPPORT. The invariant of every reachable state: it holds at reset, each named update keeps it, and so does each
command's effect (rules R14, R19, R23, R24, R27, R28). -/

namespace Sys2Proof.Machine

/-! ## Reset -/

/-- The reset value of every register and table meets the invariant; no tree and no code table is valid yet. -/
theorem Inv.resetOf {c : Config} (hc : c.legal = true) : Inv (State.resetOf c) where
  config := hc
  freqWf := rfl
  nodeWf := rfl
  codeWf := rfl
  errIffFault := by simp [State.resetOf]
  errCode := .inl ⟨rfl, rfl⟩
  pending := rfl
  tree := fun h => absurd h (by simp [State.resetOf, Phase.treeValid])
  code := fun h => absurd h (by simp [State.resetOf])
  cursor := fun h => absurd h (by simp [State.resetOf])

/-! ## What every update keeps -/

/-- The part of the invariant that speaks of no phase: what a raised fault leaves of it. -/
structure TablesInv (s : State) : Prop where
  config : s.cfg.legal = true
  freqWf : Table.wf 256 freqDefault s.freq = true
  nodeWf : Table.wf 511 nodeDefault s.node = true
  codeWf : Table.wf 256 codeDefault s.code = true
  pending : s.pbits = pendingImage (pendingBits s.pcnt s.pbits)

/-- What is on record outside `FAULT`: no error (rules R14, R161). -/
structure NoError (s : State) : Prop where
  phase : s.phase ≠ .fault
  err : s.err = 0
  einfo : s.einfo = 0

section Keeps
variable {s : State}

theorem Inv.tablesInv (h : Inv s) : TablesInv s :=
  ⟨h.config, h.freqWf, h.nodeWf, h.codeWf, h.pending⟩

theorem Inv.noError (h : Inv s) (hp : s.phase ≠ .fault) : NoError s := by
  have herr : s.err = 0 := not_not.mp (mt h.errIffFault.mp hp)
  refine ⟨hp, herr, ?_⟩
  obtain ⟨_, heinfo⟩ | ⟨f, hf⟩ := h.errCode
  · exact heinfo
  · exact absurd (hf.symm.trans herr) f.code_ne_zero

/-- With no error on record a state may move to a phase whose tables are valid (rules R14, R22, R24, R28). -/
theorem TablesInv.setPhase {p : Phase} (h : TablesInv s) (he : NoError s) (hp : p ≠ .fault)
    (htree : p.treeValid = true → s.treeOk) (hcode : p = .codes ∨ p = .comp → CodeOk (s.setPhase p))
    (hcursor : p = .decode → s.cursorOk) : Inv (s.setPhase p) where
  config := h.config
  freqWf := h.freqWf
  nodeWf := h.nodeWf
  codeWf := h.codeWf
  errIffFault := by simp [he.err, hp]
  errCode := .inl ⟨he.err, he.einfo⟩
  pending := h.pending
  tree := htree
  code := hcode
  cursor := hcursor

/-- A fault on record has one of the eight codes, and no table is valid any more (rules R22, R24, R161, R170). -/
theorem TablesInv.raise (h : TablesInv s) (f : HwFault) (info : BitVec 16) : Inv (s.raise f info) where
  config := h.config
  freqWf := h.freqWf
  nodeWf := h.nodeWf
  codeWf := h.codeWf
  errIffFault := ⟨fun _ => rfl, fun _ => f.code_ne_zero⟩
  errCode := .inr ⟨f, rfl⟩
  pending := h.pending
  tree := fun h => absurd h (by simp [Phase.treeValid])
  code := fun h => absurd h (by simp)
  cursor := fun h => absurd h (by simp)

/-- Of the port, `OUT` and the registers outside the tables the invariant asks only the form of `PBITS` and where `DCUR`
stands (rules R27, R28). -/
theorem Inv.withRegisters (h : Inv s) {port : List PortInput} {tbc : BitVec 3} {rdata : BitVec 64} {raux : BitVec 8}
    {pcnt : BitVec 3} {pbits : BitVec 7} {dcur : NodeIdx} {out : List Byte}
    (hpending : pbits = pendingImage (pendingBits pcnt pbits))
    (hcursor : s.phase = .decode → dcur = s.root ∨ internalIn s.freq s.nint dcur) :
    Inv { s with
      port := port, tbc := tbc, rdata := rdata, raux := raux, pcnt := pcnt, pbits := pbits, dcur := dcur, out := out } where
  config := h.config
  freqWf := h.freqWf
  nodeWf := h.nodeWf
  codeWf := h.codeWf
  errIffFault := h.errIffFault
  errCode := h.errCode
  pending := hpending
  tree := h.tree
  code := fun hp => ⟨(h.code hp).absent, (h.code hp).present⟩
  cursor := hcursor

theorem Inv.withPort (h : Inv s) (port : List PortInput) : Inv { s with port := port } :=
  h.withRegisters h.pending h.cursor

theorem Inv.readBack (h : Inv s) (data : BitVec 64) (aux : BitVec 8) : Inv (s.readBack data aux) :=
  h.withRegisters h.pending h.cursor

/-- The walk moves `DCUR` to where the invariant lets it stand. -/
theorem Inv.walked (h : Inv s) (bs : List Byte) {d : NodeIdx} (hd : d = s.root ∨ internalIn s.freq s.nint d) :
    Inv ((s.emit bs).setDcur d) :=
  h.withRegisters h.pending fun _ => hd

/-- In `IDLE` no table depends on the counts, so a canonical table may stand in the place of another (rule R82). -/
theorem Inv.withFreq (h : Inv s) (hp : s.phase = .idle) {freq : Table Count}
    (hwf : Table.wf 256 freqDefault freq = true) : Inv { s with freq := freq } where
  config := h.config
  freqWf := hwf
  nodeWf := h.nodeWf
  codeWf := h.codeWf
  errIffFault := h.errIffFault
  errCode := h.errCode
  pending := h.pending
  tree := fun hv => absurd hv (by simp [hp, Phase.treeValid])
  code := fun hv => absurd hv (by simp [hp])
  cursor := fun hv => absurd hv (by simp [hp])

/-- `PCNT` and `PBITS` written from fewer than 8 bits hold them and zeros (rule R27). -/
theorem pendingImage_canonical (p : BitSeq) (hp : p.length ≤ 7) :
    pendingImage p = pendingImage (pendingBits (pendingCount p) (pendingImage p)) := by
  rw [pendingBits_image p hp]

/-- `flush` leaves less than a byte (rule R123). -/
theorem flush_left_length_le (b : BitSeq) : (flush b).2.length ≤ 7 := by
  obtain ⟨_, _, hleft⟩ := flush_spec b
  omega

/-- `build()` keeps the arena in canonical form. -/
theorem nodeWf_of_build {u : State} (hb : s.build = some u) (hwf : Table.wf 511 nodeDefault s.node = true) :
    Table.wf 511 nodeDefault u.node = true := by
  rcases build_spec s with ⟨_, hnone⟩ | ⟨_, nd, r, nsym, nint, hsome, _, _, hkeep, _⟩
  · simp [hnone] at hb
  · obtain rfl := Option.some.inj (hsome.symm.trans hb)
    exact hkeep hwf

theorem TablesInv.of_build (h : TablesInv s) {u : State} (hb : s.build = some u) : TablesInv u := by
  have hnode := nodeWf_of_build hb h.nodeWf
  rw [(built_of_build hb).frame]
  exact ⟨h.config, h.freqWf, hnode, h.codeWf, h.pending⟩

theorem NoError.of_build (h : NoError s) {u : State} (hb : s.build = some u) : NoError u := by
  rw [(built_of_build hb).frame]
  exact ⟨h.phase, h.err, h.einfo⟩

theorem Inv.endOfByte (h : Inv s) (hp : s.phase ≠ .fault) (last : Bool) : Inv (s.endOfByte last) := by
  rcases s.endOfByte_cases last with ⟨_, heq⟩ | ⟨_, heq⟩ | ⟨_, heq⟩ <;> rw [heq]
  · exact h
  · exact h.tablesInv.setPhase (h.noError hp) (by simp) (by simp [Phase.treeValid]) (by simp) (by simp)
  · exact h.tablesInv.raise _ _

end Keeps

/-! ## What every command keeps -/

section Commands
variable {s t : State}

/-- `CGEN` writes the tree's code table or raises its fault (rules R113, R114). -/
theorem Inv.cgen (h : Inv s) (hp : s.phase = .tree) (hrun : exec .cgen s = .next t) : Inv t := by
  have htree : s.treeOk := h.tree (by rw [hp]; rfl)
  have he := h.noError (by simp [hp])
  have hrun' : execCgen s = .next t := hrun
  rcases cgen_spec s hp htree with ⟨k, _, _, _, _, _, hraise⟩ | ⟨_, c, hnext, hwf, hcode⟩
  · obtain rfl := Host.Outcome.next.inj (hraise.symm.trans hrun')
    exact h.tablesInv.raise _ _
  · obtain rfl := Host.Outcome.next.inj (hnext.symm.trans hrun')
    exact TablesInv.setPhase ⟨h.config, h.freqWf, h.nodeWf, hwf, h.pending⟩ ⟨he.phase, he.err, he.einfo⟩ (by simp)
      (fun _ => htree) (fun _ => hcode) (by simp)

/-- `DBYTE` walks on the tree and ends the byte (rules R138 to R142). -/
theorem Inv.dbyte (h : Inv s) (hp : s.phase = .decode) {byte : Byte} {last : Bool}
    (hrun : exec (.dbyte byte last) s = .next t) : Inv t := by
  have htree : s.treeOk := h.tree (by rw [hp]; rfl)
  have hcursor := h.cursor hp
  rw [exec_dbyte byte last s hp] at hrun
  rcases walk_spec ((unpack8 byte).take (validBits last s.tbc)) s htree hcursor with
    ⟨bs, d, hw, hd⟩ | ⟨_, bs, hw⟩
  · rw [hw] at hrun
    obtain rfl := Host.Outcome.next.inj hrun
    exact (h.walked bs hd).endOfByte (by simp [hp]) last
  · rw [hw] at hrun
    obtain rfl := Host.Outcome.next.inj hrun
    exact (h.walked bs hcursor).tablesInv.raise _ _

/-- A command that runs in a phase it is legal in keeps the invariant. -/
theorem Inv.of_legal {i : Instr} (h : Inv s) (hl : legal i s.phase = true) (heffect : Effect s t i)
    (hrun : exec i s = .next t) : Inv t := by
  have ht := h.tablesInv
  cases i with
  | srst =>
    obtain rfl := heffect
    exact (Inv.resetOf h.config).withPort s.port
  | fclr =>
    obtain rfl := heffect
    exact h.withFreq (by simpa using (legal_fclr_iff _).mp hl) rfl
  | fset sym count =>
    obtain rfl := heffect
    exact h.withFreq (by simpa using (legal_fset_iff _ _ _).mp hl) (Table.wf_write _ _ _ _ _ sym.isLt h.freqWf)
  | fget _ | tget _ | cget _ =>
    obtain rfl := heffect
    exact h.readBack _ _
  | tbuild =>
    have hp : s.phase = .idle := by simpa using (legal_tbuild_iff _).mp hl
    obtain ⟨_, rfl⟩ | ⟨u, hb, rfl⟩ := heffect
    · exact ht.raise _ _
    · exact (ht.of_build hb).setPhase ((h.noError (by simp [hp])).of_build hb) (by simp)
        (fun _ => (built_of_build hb).treeOk) (by simp) (by simp)
  | cgen => exact h.cgen (by simpa using (legal_cgen_iff _).mp hl) hrun
  | cstart =>
    have hp : s.phase = .codes := by simpa using (legal_cstart_iff _).mp hl
    have he := h.noError (by simp [hp])
    have hcode := h.code (.inl hp)
    obtain rfl := heffect
    exact TablesInv.setPhase ⟨ht.config, ht.freqWf, ht.nodeWf, ht.codeWf, pendingImage_canonical [] (by simp)⟩
      ⟨he.phase, he.err, he.einfo⟩ (by simp) (fun _ => h.tree (by rw [hp]; rfl))
      (fun _ => ⟨hcode.absent, hcode.present⟩) (by simp)
  | cput b =>
    obtain ⟨_, rfl⟩ | ⟨_, rfl⟩ := heffect
    · exact ht.raise _ _
    · exact h.withRegisters (pendingImage_canonical _ (flush_left_length_le _)) h.cursor
  | cend =>
    have hp : s.phase = .comp := by simpa using (legal_cend_iff _).mp hl
    have he := h.noError (by simp [hp])
    obtain rfl := heffect
    exact TablesInv.setPhase ⟨ht.config, ht.freqWf, ht.nodeWf, ht.codeWf, pendingImage_canonical [] (by simp)⟩
      ⟨he.phase, he.err, he.einfo⟩ (by simp) (by simp [Phase.treeValid]) (by simp) (by simp)
  | dstart tbc =>
    have hp : s.phase = .idle := by simpa using (legal_dstart_iff _ _).mp hl
    obtain ⟨_, rfl⟩ | ⟨u, hb, rfl⟩ := heffect
    · exact ht.raise _ _
    · have hu := ht.of_build hb
      have he := (h.noError (by simp [hp])).of_build hb
      exact TablesInv.setPhase ⟨hu.config, hu.freqWf, hu.nodeWf, hu.codeWf, hu.pending⟩
        ⟨he.phase, he.err, he.einfo⟩ (by simp) (fun _ => (built_of_build hb).treeOk) (by simp) (fun _ => .inl rfl)
  | dbyte _ _ => exact h.dbyte (by simpa using (legal_dbyte_iff _ _ _).mp hl) hrun

/-- Whatever the front end makes of a command, the invariant stays. -/
theorem Inv.of_exec {i : Instr} (h : Inv s) (hrun : exec i s = .next t) : Inv t := by
  rcases exec_next i s t hrun with ⟨_, _, rfl⟩ | ⟨_, _, _, rfl⟩ | ⟨hl, heffect⟩
  · exact h
  · exact h.tablesInv.raise _ _
  · exact h.of_legal hl heffect hrun

theorem Inv.illegalWord (h : Inv s) (op : BitVec 8) : Inv (s.illegalWord op) := by
  rw [State.illegalWord]
  split
  · exact h
  · exact h.tablesInv.raise _ _

theorem Inv.of_runWord {w : CmdWord} (h : Inv s) (hrun : runWord w s = .next t) : Inv t := by
  cases hw : decode w with
  | instr i => exact h.of_exec ((runWord_of_instr s hw).symm.trans hrun)
  | illegal why op =>
    obtain rfl := Host.Outcome.next.inj ((runWord_of_illegal s hw).symm.trans hrun)
    exact h.illegalWord op

theorem Inv.of_step (h : Inv s) (hrun : step s = .next t) : Inv t := by
  cases hport : s.port with
  | nil =>
    obtain rfl := Host.Outcome.next.inj ((step_of_port_nil hport).symm.trans hrun)
    exact h
  | cons input rest =>
    cases input with
    | rst =>
      obtain rfl := Host.Outcome.next.inj ((step_of_port_rst hport).symm.trans hrun)
      exact (Inv.resetOf h.config).withPort rest
    | command w => exact (h.withPort rest).of_runWord ((step_of_port_command hport).symm.trans hrun)

end Commands

/-! ## Every command answers a next state -/

section Completes
variable {s : State}

/-- The front end answers a next state where the command's own rule does (rule R68). -/
theorem frontEnd_completes {i : Instr} {run : Host.Outcome State Fault Refusal}
    (h : legal i s.phase = true → ∃ t, run = .next t) : ∃ t, frontEnd i s run = .next t := by
  rcases frontEnd_cases i s run with ⟨_, he⟩ | ⟨_, hl, he⟩ | ⟨_, _, he⟩
  · exact ⟨s, he⟩
  · rw [he]
    exact h hl
  · exact ⟨_, he⟩

/-- Only `CGEN` and `DBYTE` read a tree, and on a tree that meets rule R23 their walks end (rule R198). -/
theorem Inv.exec_completes (h : Inv s) (i : Instr) : ∃ t, exec i s = .next t := by
  cases i with
  | srst => exact ⟨_, rfl⟩
  | fclr | fset _ _ | fget _ | tget _ | cget _ | cstart | cend => exact frontEnd_completes fun _ => ⟨_, rfl⟩
  | tbuild =>
    refine frontEnd_completes fun _ => ?_
    cases s.build <;> exact ⟨_, rfl⟩
  | cput b =>
    refine frontEnd_completes fun _ => ?_
    split <;> exact ⟨_, rfl⟩
  | dstart tbc =>
    refine frontEnd_completes fun _ => ?_
    cases s.build with
    | none => exact ⟨_, rfl⟩
    | some u => dsimp only; split <;> exact ⟨_, rfl⟩
  | cgen =>
    by_cases hp : s.phase = .tree
    · rcases cgen_spec s hp (h.tree (by rw [hp]; rfl)) with ⟨_, _, _, _, _, _, hrun⟩ | ⟨_, _, hrun, _⟩
      · exact ⟨_, hrun⟩
      · exact ⟨_, hrun⟩
    · exact frontEnd_completes fun hl => absurd (by simpa using (legal_cgen_iff _).mp hl) hp
  | dbyte byte last =>
    refine frontEnd_completes fun hl => ?_
    have hp : s.phase = .decode := by simpa using (legal_dbyte_iff _ _ _).mp hl
    rcases walk_spec ((unpack8 byte).take (validBits last s.tbc)) s (h.tree (by rw [hp]; rfl)) (h.cursor hp) with
      ⟨_, _, hw, _⟩ | ⟨_, _, hw⟩
    · rw [hw]
      exact ⟨_, rfl⟩
    · rw [hw]
      exact ⟨_, rfl⟩

theorem Inv.step_completes (h : Inv s) : ∃ t, step s = .next t := by
  cases hport : s.port with
  | nil => exact ⟨s, step_of_port_nil hport⟩
  | cons input rest =>
    cases input with
    | rst => exact ⟨_, step_of_port_rst hport⟩
    | command w =>
      rw [step_of_port_command hport]
      cases hw : decode w with
      | instr i =>
        rw [runWord_of_instr _ hw]
        exact (h.withPort rest).exec_completes i
      | illegal why op => exact ⟨_, runWord_of_illegal _ hw⟩

end Completes

end Sys2Proof.Machine
end

section
open Sys2Proof Sys2Proof.Machine

/-- Settles O57: each command's effect keeps the invariant, and so does a raised fault. -/
theorem stepKeepsTheInvariant : Obligations.StepKeepsTheInvariant := by
  unfold Obligations.StepKeepsTheInvariant
  exact fun s t h hrun => h.of_step hrun

/-- Settles O58: the walks of `CGEN` and `DBYTE` end on a tree that meets rule R23, and nothing else can stop. -/
theorem everyStepCompletes : Obligations.EveryStepCompletes := by
  unfold Obligations.EveryStepCompletes
  exact fun s h => h.step_completes

/-- Settles O56: the reset values meet the invariant at every legal `MAXLEN`, and the default is one. -/
theorem invariantHoldsAtReset : Obligations.InvariantHoldsAtReset := by
  unfold Obligations.InvariantHoldsAtReset
  exact ⟨Inv.resetOf (by decide), fun c hc => Inv.resetOf hc⟩

end

section
/-! SUPPORT. Two states that the host cannot tell apart stay so (rules R22, R24): each command reads allocated entries
only, `TBUILD` and `DSTART` write the same tree in both, and `CGEN` the same code table. -/

namespace Sys2Proof.Machine

/-! ## What is seen of a state -/

theorem SameView.refl (s : State) : SameView s s := ⟨rfl, fun _ _ => rfl, fun _ _ => rfl⟩

theorem SameView.pins {s t : State} (h : SameView s t) : t.pins = s.pins := by
  rw [h.rest]
  rfl

theorem SameView.out {s t : State} (h : SameView s t) : t.out = s.out := by
  rw [h.rest]

/-- A view is one of a state with another arena and another code table. -/
theorem SameView.exists_overTables {s t : State} (h : SameView s t) : ∃ n c, t = s.overTables n c :=
  ⟨t.node, t.code, h.rest⟩

/-- Where no tree and no code table is valid, no entry is seen. -/
theorem SameView.of_invalid {s : State} (n : Table Node) (c : Table Code) (h : s.phase.treeValid = false) :
    SameView s (s.overTables n c) := by
  refine ⟨rfl, fun i hi => ?_, fun hp => ?_⟩
  · simp [State.alloc, h] at hi
  · rcases hp with hp | hp <;> simp [hp, Phase.treeValid] at h

section View
variable {s s' : State} {n : Table Node} {c : Table Code}

/-- The arenas agree at the allocated entries (rule R22). -/
theorem SameView.nodeOf_eq (h : SameView s (s.overTables n c)) (hp : s.phase.treeValid = true) (i : NodeIdx)
    (hi : allocIn s.freq s.nint i = true) : nodeOf n i = nodeOf s.node i :=
  h.nodes i (by rw [State.alloc, hp, hi]; rfl)

/-- A later state that has kept the tables, in a phase where no more of them is valid than was. -/
theorem SameView.of_kept (h : SameView s (s.overTables n c)) (hnode : s'.node = s.node) (hcode : s'.code = s.code)
    (htree : s'.phase.treeValid = true → s.phase.treeValid = true ∧ s'.freq = s.freq ∧ s'.nint = s.nint)
    (hcodes : s'.phase = .codes ∨ s'.phase = .comp → s.phase = .codes ∨ s.phase = .comp) :
    SameView s' (s'.overTables n c) := by
  refine ⟨rfl, fun i hi => ?_, fun hp k => ?_⟩
  · obtain ⟨hvalid, halloc⟩ := Bool.and_eq_true_iff.mp hi
    obtain ⟨hp, hfreq, hnint⟩ := htree hvalid
    rw [hfreq, hnint] at halloc
    exact (h.nodeOf_eq hp i halloc).trans (congrArg (nodeOf · i) hnode).symm
  · exact (h.codes (hcodes hp) k).trans (congrArg (codeOf · k) hcode).symm

/-- The record of a node is that of an allocated one, or 0 (rules R100, R101). -/
theorem SameView.nodeReadBack_eq (h : SameView s (s.overTables n c)) (idx : NodeIdx) :
    (s.overTables n c).nodeReadBack idx = s.nodeReadBack idx := by
  have halloc : (s.overTables n c).alloc idx = s.alloc idx := rfl
  rw [State.nodeReadBack, State.nodeReadBack, halloc]
  split
  · next hi => rw [h.nodes idx hi]
  · rfl

/-- The end of a byte reads `DCUR` and `ROOT` only (rule R142). -/
theorem endOfByte_overTables (last : Bool) : (s.overTables n c).endOfByte last = (s.endOfByte last).overTables n c := by
  have hroot : (s.overTables n c).dcur = (s.overTables n c).root ↔ s.dcur = s.root := Iff.rfl
  cases last with
  | false => rfl
  | true =>
    simp only [State.endOfByte, hroot, if_true]
    split <;> rfl

/-! ## `DBYTE` -/

theorem SameView.dbyte (h : SameView s (s.overTables n c)) (hinv : Inv s) (hp : s.phase = .decode) (byte : Byte)
    (last : Bool) (hrun : exec (.dbyte byte last) s = .next s') :
    exec (.dbyte byte last) (s.overTables n c) = .next (s'.overTables n c) ∧ SameView s' (s'.overTables n c) := by
  have hvalid : s.phase.treeValid = true := by rw [hp]; rfl
  have hcursor := hinv.cursor hp
  have hwalk := walk_agree ((unpack8 byte).take (validBits last s.tbc)) s n c (hinv.tree hvalid) hcursor
    (h.nodeOf_eq hvalid)
  rw [exec_dbyte byte last s hp] at hrun
  rw [exec_dbyte byte last (s.overTables n c) hp, show (s.overTables n c).tbc = s.tbc from rfl, hwalk]
  rcases walk_spec ((unpack8 byte).take (validBits last s.tbc)) s (hinv.tree hvalid) hcursor with
    ⟨bs, d, hw, _⟩ | ⟨_, bs, hw⟩
  · rw [hw] at hrun ⊢
    obtain rfl := Host.Outcome.next.inj hrun
    refine ⟨congrArg Host.Outcome.next (endOfByte_overTables last), ?_⟩
    rcases ((s.emit bs).setDcur d).endOfByte_cases last with ⟨_, he⟩ | ⟨_, he⟩ | ⟨_, he⟩ <;> rw [he]
    · exact h.of_kept rfl rfl (fun hv => ⟨hv, rfl, rfl⟩) id
    · exact .of_invalid n c rfl
    · exact .of_invalid n c rfl
  · rw [hw] at hrun ⊢
    obtain rfl := Host.Outcome.next.inj hrun
    exact ⟨rfl, .of_invalid n c rfl⟩

/-! ## `CGEN` -/

/-- Two code tables that `CGEN` wrote for one tree read alike (rule R114). -/
theorem CodeOk.readCode_eq {t : State} (hs : CodeOk s) (ht : CodeOk t) (htree : t.treeOk)
    (hfreq : ∀ k, t.readFreq k = s.readFreq k)
    (hwords : ∀ k p, isCodeWord t.node t.root k p ↔ isCodeWord s.node s.root k p) (k : Sym) :
    t.readCode k = s.readCode k := by
  by_cases hk : s.readFreq k = 0
  · rw [hs.absent k hk, ht.absent k ((hfreq k).trans hk)]
  · obtain ⟨p, hp, _, _, hentry⟩ := hs.present k hk
    rw [hentry, ht.readCode_eq_codeEntry htree (by rwa [hfreq]) ((hwords k p).mpr hp)]

theorem SameView.cgen (h : SameView s (s.overTables n c)) (hs : Inv s) (ht : Inv (s.overTables n c))
    (hp : s.phase = .tree) (hrun : exec .cgen s = .next s') :
    ∃ t', exec .cgen (s.overTables n c) = .next t' ∧ SameView s' t' := by
  have hvalid : s.phase.treeValid = true := by rw [hp]; rfl
  have htree : s.treeOk := hs.tree hvalid
  have htree' : (s.overTables n c).treeOk := ht.tree hvalid
  have hwords : ∀ k p, isCodeWord n s.root k p ↔ isCodeWord s.node s.root k p :=
    TreeOk.codeWord_agree htree (h.nodeOf_eq hvalid)
  have hrun' : execCgen s = .next s' := hrun
  rcases cgen_spec s hp htree with ⟨k, p, hk, hword, hlong, hleast, hraise⟩ | ⟨hshort, d, hnext, _, hcode⟩
  · obtain rfl := Host.Outcome.next.inj (hraise.symm.trans hrun')
    refine ⟨_, exec_cgen_of_long (s := s.overTables n c) hp htree' hk ((hwords k p).mpr hword) hlong ?_,
      .of_invalid n c rfl⟩
    exact fun j q hj hq => hleast j q hj ((hwords j q).mp hq)
  · obtain rfl := Host.Outcome.next.inj (hnext.symm.trans hrun')
    obtain ⟨d', hnext', hcode'⟩ := exec_cgen_of_short (s := s.overTables n c) hp htree'
      fun k q hk hq => hshort k q hk ((hwords k q).mp hq)
    refine ⟨_, hnext', rfl, fun i hi => ?_, fun _ => hcode.readCode_eq hcode' htree' (fun _ => rfl) hwords⟩
    exact h.nodeOf_eq hvalid i (Bool.and_eq_true_iff.mp hi).2

/-! ## `TBUILD` and `DSTART` -/

theorem build_eq_none_iff : s.build = none ↔ ∀ k, s.readFreq k = 0 := by
  refine ⟨fun hnone => ?_, build_eq_none⟩
  rcases build_spec s with ⟨hkeys, _⟩ | ⟨_, _, _, _, _, hsome, _⟩
  · exact (keysOf_eq_nil s.freq).mp hkeys
  · simp [hnone] at hsome

/-- Two views of a state build nothing or the same tree (rules R99, R102). -/
theorem build_overTables (s : State) (n : Table Node) (c : Table Code) :
    (s.build = none ∧ (s.overTables n c).build = none) ∨
    ∃ u m, s.build = some u ∧ (s.overTables n c).build = some (u.overTables m c) ∧ u.treeOk ∧
      SameTree u (u.overTables m c) := by
  cases hb : s.build with
  | none =>
    have hempty := build_eq_none_iff.mp hb
    exact .inl ⟨rfl, build_eq_none hempty⟩
  | some u =>
    have hbuilt := built_of_build hb
    obtain ⟨k, hk⟩ := hbuilt.key_exists
    obtain ⟨v, hv⟩ := build_exists (s := s.overTables n c) hk
    have hbuilt' := built_of_build hv
    have hsame := hbuilt.sameTree hbuilt' fun _ => rfl
    have hview : v = u.overTables v.node c := by
      conv_lhs => rw [hbuilt'.frame, hsame.root, hsame.nsym, hsame.nint]
      conv_rhs => rw [hbuilt.frame]
      rfl
    exact .inr ⟨u, v.node, rfl, hview ▸ hv, hbuilt.treeOk, hview ▸ hsame⟩

/-- After `build()` both views show the tree, and no code table yet. -/
theorem SameView.of_sameTree {u : State} {m : Table Node} (h : SameTree u (u.overTables m c)) (htree : u.treeOk)
    (hnode : s'.node = u.node) (hfreq : s'.freq = u.freq) (hnint : s'.nint = u.nint)
    (hcodes : ¬ (s'.phase = .codes ∨ s'.phase = .comp)) : SameView s' (s'.overTables m c) := by
  refine ⟨rfl, fun i hi => ?_, fun hp => absurd hp hcodes⟩
  have halloc := (Bool.and_eq_true_iff.mp hi).2
  rw [hfreq, hnint] at halloc
  exact (h.records i ((inTree_iff_alloc htree i).mpr halloc)).trans (congrArg (nodeOf · i) hnode).symm

theorem SameView.tbuild (hp : s.phase = .idle) (n : Table Node) (c : Table Code)
    (hrun : exec .tbuild s = .next s') :
    ∃ t', exec .tbuild (s.overTables n c) = .next t' ∧ SameView s' t' := by
  rw [exec_tbuild s hp] at hrun
  rw [exec_tbuild (s.overTables n c) hp]
  rcases build_overTables s n c with ⟨hb, hb'⟩ | ⟨u, m, hb, hb', htree, hsame⟩ <;> rw [hb] at hrun <;> rw [hb']
  · obtain rfl := Host.Outcome.next.inj hrun
    exact ⟨_, rfl, .of_invalid n c rfl⟩
  · obtain rfl := Host.Outcome.next.inj hrun
    exact ⟨_, rfl, .of_sameTree hsame htree rfl rfl rfl (by simp)⟩

theorem SameView.dstart (hp : s.phase = .idle) (n : Table Node) (c : Table Code) (tbc : BitVec 3)
    (hrun : exec (.dstart tbc) s = .next s') :
    ∃ t', exec (.dstart tbc) (s.overTables n c) = .next t' ∧ SameView s' t' := by
  rw [exec_dstart tbc s hp] at hrun
  rw [exec_dstart tbc (s.overTables n c) hp]
  rcases build_overTables s n c with ⟨hb, hb'⟩ | ⟨u, m, hb, hb', htree, hsame⟩ <;> rw [hb] at hrun <;> rw [hb']
  · obtain rfl := Host.Outcome.next.inj hrun
    exact ⟨_, rfl, .of_invalid n c rfl⟩
  · obtain rfl := Host.Outcome.next.inj hrun
    exact ⟨_, rfl, .of_sameTree hsame htree rfl rfl rfl (by simp)⟩

end View

/-! ## Every command and every step -/

section Step
variable {s t s' : State}

/-- A command that runs in a phase it is legal in leads two views to two views. -/
theorem SameView.of_legal {i : Instr} {n : Table Node} {c : Table Code} (h : SameView s (s.overTables n c))
    (hs : Inv s) (ht : Inv (s.overTables n c)) (hl : legal i s.phase = true) (heffect : Effect s s' i)
    (hrun : exec i s = .next s') : ∃ t', exec i (s.overTables n c) = .next t' ∧ SameView s' t' := by
  have hl' : legal i (s.overTables n c).phase = true := hl
  cases i with
  | srst =>
    obtain rfl := heffect
    exact ⟨_, rfl, SameView.refl _⟩
  | fclr =>
    have hp : s.phase = .idle := by simpa using (legal_fclr_iff _).mp hl
    obtain rfl := heffect
    exact ⟨_, frontEnd_legal _ (by simp) hl', .of_invalid n c (by simp [hp, Phase.treeValid])⟩
  | fset sym count =>
    have hp : s.phase = .idle := by simpa using (legal_fset_iff _ _ _).mp hl
    obtain rfl := heffect
    exact ⟨_, frontEnd_legal _ (by simp) hl', .of_invalid n c (by simp [hp, Phase.treeValid])⟩
  | fget sym =>
    obtain rfl := heffect
    exact ⟨_, frontEnd_legal _ (by simp) hl', h.of_kept rfl rfl (fun hv => ⟨hv, rfl, rfl⟩) id⟩
  | tget idx =>
    obtain rfl := heffect
    refine ⟨_, (frontEnd_legal _ (by simp) hl').trans ?_, h.of_kept rfl rfl (fun hv => ⟨hv, rfl, rfl⟩) id⟩
    rw [h.nodeReadBack_eq idx]
    rfl
  | cget sym =>
    have hcode := h.codes (by simpa using (legal_cget_iff _ _).mp hl) sym
    obtain rfl := heffect
    refine ⟨_, (frontEnd_legal _ (by simp) hl').trans ?_, h.of_kept rfl rfl (fun hv => ⟨hv, rfl, rfl⟩) id⟩
    rw [hcode]
    rfl
  | tbuild => exact SameView.tbuild (by simpa using (legal_tbuild_iff _).mp hl) n c hrun
  | dstart tbc => exact SameView.dstart (by simpa using (legal_dstart_iff _ _).mp hl) n c tbc hrun
  | cgen => exact h.cgen hs ht (by simpa using (legal_cgen_iff _).mp hl) hrun
  | cstart =>
    have hp : s.phase = .codes := by simpa using (legal_cstart_iff _).mp hl
    obtain rfl := heffect
    exact ⟨_, frontEnd_legal _ (by simp) hl',
      h.of_kept rfl rfl (fun _ => ⟨by rw [hp]; rfl, rfl, rfl⟩) fun _ => .inl hp⟩
  | cput byte =>
    have hp : s.phase = .comp := by simpa using (legal_cput_iff _ _).mp hl
    have hcode : (s.overTables n c).readCode byte = s.readCode byte := h.codes (.inr hp) byte
    obtain ⟨hnone, rfl⟩ | ⟨hlen, rfl⟩ := heffect
    · exact ⟨_, exec_cput_of_no_code byte (s := s.overTables n c) hp (by rwa [hcode]), .of_invalid n c rfl⟩
    · have hbuffer : (s.overTables n c).cputBuffer byte = s.cputBuffer byte := by
        rw [State.cputBuffer, hcode]
        rfl
      refine ⟨_, exec_cput byte (s.overTables n c) hp (by rwa [hcode]), ?_⟩
      rw [hbuffer]
      exact h.of_kept rfl rfl (fun hv => ⟨hv, rfl, rfl⟩) id
  | cend =>
    obtain rfl := heffect
    exact ⟨_, frontEnd_legal _ (by simp) hl', .of_invalid n c rfl⟩
  | dbyte byte last =>
    exact ⟨_, h.dbyte hs (by simpa using (legal_dbyte_iff _ _ _).mp hl) byte last hrun⟩

theorem SameView.of_exec {i : Instr} (h : SameView s t) (hs : Inv s) (ht : Inv t) (hrun : exec i s = .next s') :
    ∃ t', exec i t = .next t' ∧ SameView s' t' := by
  obtain ⟨n, c, rfl⟩ := h.exists_overTables
  rcases exec_next i s s' hrun with ⟨hi, hf, rfl⟩ | ⟨_, hf, hl, rfl⟩ | ⟨hl, heffect⟩
  · exact ⟨_, exec_ignored i (s'.overTables n c) hi hf, h⟩
  · have hnone : transition s.phase i = none := by rw [transition_eq_phaseAfter, if_neg (by simp [hl])]
    exact ⟨_, exec_badSequence (s := s.overTables n c) hf hnone, .of_invalid n c rfl⟩
  · exact h.of_legal hs ht hl heffect hrun

theorem SameView.of_runWord {w : CmdWord} (h : SameView s t) (hs : Inv s) (ht : Inv t)
    (hrun : runWord w s = .next s') : ∃ t', runWord w t = .next t' ∧ SameView s' t' := by
  cases hw : decode w with
  | instr i =>
    rw [runWord_of_instr t hw]
    exact h.of_exec hs ht ((runWord_of_instr s hw).symm.trans hrun)
  | illegal why op =>
    obtain rfl := Host.Outcome.next.inj ((runWord_of_illegal s hw).symm.trans hrun)
    refine ⟨_, runWord_of_illegal t hw, ?_⟩
    obtain ⟨n, c, rfl⟩ := h.exists_overTables
    have hphase : (s.overTables n c).phase = s.phase := rfl
    rw [State.illegalWord, State.illegalWord, hphase]
    split
    · exact h
    · exact .of_invalid n c rfl

/-- The inputs still to come decide nothing of what is seen. -/
theorem SameView.withPort (h : SameView s t) (port : List PortInput) :
    SameView { s with port := port } { t with port := port } :=
  ⟨by rw [h.rest], h.nodes, h.codes⟩

theorem SameView.of_step (h : SameView s t) (hs : Inv s) (ht : Inv t) (hrun : step s = .next s') :
    ∃ t', step t = .next t' ∧ SameView s' t' := by
  have hport : t.port = s.port := by rw [h.rest]
  cases hinput : s.port with
  | nil =>
    obtain rfl := Host.Outcome.next.inj ((step_of_port_nil hinput).symm.trans hrun)
    exact ⟨t, step_of_port_nil (hport.trans hinput), h⟩
  | cons input rest =>
    cases input with
    | rst =>
      obtain rfl := Host.Outcome.next.inj ((step_of_port_rst hinput).symm.trans hrun)
      refine ⟨_, step_of_port_rst (hport.trans hinput), ?_⟩
      obtain ⟨n, c, rfl⟩ := h.exists_overTables
      exact SameView.refl _
    | command w =>
      rw [step_of_port_command (hport.trans hinput)]
      exact (h.withPort rest).of_runWord (hs.withPort rest) (ht.withPort rest)
        ((step_of_port_command hinput).symm.trans hrun)

end Step

end Sys2Proof.Machine
end

section
open Sys2Proof Sys2Proof.Machine

/-- Settles O52: each command leads two views of a state to two views of the next one, which show the same pins and
the same `OUT`. -/
theorem staleEntriesAreUnobservable : Obligations.StaleEntriesAreUnobservable := by
  unfold Obligations.StaleEntriesAreUnobservable
  intro s t s' hs ht hview hrun
  obtain ⟨t', hrun', hview'⟩ := hview.of_step hs ht hrun
  exact ⟨t', hrun', hview', hview'.pins, hview'.out⟩

end

section
/-! SUPPORT. Frequency tables by what they read as (rule R82): the canonical form, and the order of a list of counts. -/

namespace Sys2Proof.Machine

/-- Two canonical frequency tables that read alike for every symbol are the same list: beyond the symbols neither lists
anything. -/
theorem freqTable_ext {t u : Table Count} (ht : Table.wf 256 freqDefault t = true)
    (hu : Table.wf 256 freqDefault u = true) (h : ∀ k, freqOf t k = freqOf u k) : t = u := by
  refine Table.ext 256 freqDefault t u ht hu fun j => ?_
  by_cases hj : j < 256
  · have hread := h (BitVec.ofNat 8 j)
    rwa [freqOf, freqOf, BitVec.toNat_ofNat, Nat.mod_eq_of_lt hj] at hread
  · rw [Table.read_beyond 256 _ t ht j (Nat.le_of_not_lt hj), Table.read_beyond 256 _ u hu j (Nat.le_of_not_lt hj)]

/-- In a list with no key twice, a lookup finds an entry exactly if it is in the list. -/
theorem lookup_eq_some_iff_mem {l : List (Sym × Count)} (hnd : (l.map Prod.fst).Nodup) (k : Sym) (c : Count) :
    l.lookup k = some c ↔ (k, c) ∈ l := by
  induction l with
  | nil => simp
  | cons e l ih =>
    obtain ⟨k', c'⟩ := e
    obtain ⟨hnot, hnd⟩ := List.nodup_cons.mp hnd
    rw [List.lookup_cons, List.mem_cons, Prod.mk.injEq]
    by_cases hk : k = k'
    · subst hk
      have hmem : (k, c) ∉ l := fun h => hnot (List.mem_map.mpr ⟨_, h, rfl⟩)
      simp [hmem, eq_comm]
    · simp [beq_eq_false_iff_ne.mpr hk, hk, ih hnd]

/-- The order of a list with no key twice does not matter to a lookup. -/
theorem lookup_perm {l m : List (Sym × Count)} (h : l.Perm m) (hnd : (m.map Prod.fst).Nodup) (k : Sym) :
    l.lookup k = m.lookup k := by
  have hnd' : (l.map Prod.fst).Nodup := (h.map Prod.fst).nodup_iff.mpr hnd
  ext c
  rw [lookup_eq_some_iff_mem hnd', lookup_eq_some_iff_mem hnd, h.mem_iff]

end Sys2Proof.Machine
end

section
open Sys2Proof Sys2Proof.Machine

/-- Settles O17: canonical tables are determined by their reads. -/
theorem frequencyTableIsItsReads : Obligations.FrequencyTableIsItsReads := by
  unfold Obligations.FrequencyTableIsItsReads
  exact fun s t hs ht hread => freqTable_ext hs ht hread

/-- Settles O18: a run of `FSET`s reads as its list, and tables that read alike are the same data. -/
theorem ftabLoadsTheTable : Obligations.FtabLoadsTheTable := by
  unfold Obligations.FtabLoadsTheTable
  intro entries s hp hnd
  obtain ⟨f, hrun, hwf, hread⟩ := execAll_fsets entries s hp
  refine ⟨⟨_, hrun, rfl, hread hnd⟩, fun hs others hperm => ?_⟩
  obtain ⟨g, hrun', hwf', hread'⟩ := execAll_fsets others s hp
  have hfg : g = f := freqTable_ext (hwf' hs) (hwf hs) fun k => by
    rw [hread hnd k, hread' ((hperm.map Prod.fst).nodup_iff.mpr hnd) k, lookup_perm hperm hnd k]
  exact hrun'.trans (hfg ▸ hrun.symm)

end

section
/-! SUPPORT. The tree of `build()` by whichever command runs it (rules R95, R102, R136). -/

namespace Sys2Proof.Machine

/-- `TBUILD` or `DSTART` on a table with a key leaves the tree that `build()` gives. -/
theorem tree_of_build {d v u : State} {i : Instr} (hp : d.phase = .idle) (hb : d.build = some v)
    (hi : i = .tbuild ∨ ∃ tbc, i = .dstart tbc) (hrun : exec i d = .next u) :
    u.root = v.root ∧ u.nsym = v.nsym ∧ u.nint = v.nint ∧ u.node = v.node := by
  rcases hi with rfl | ⟨tbc, rfl⟩
  · rw [exec_tbuild d hp, hb] at hrun
    obtain rfl := Host.Outcome.next.inj hrun
    exact ⟨rfl, rfl, rfl, rfl⟩
  · rw [exec_dstart tbc d hp, hb] at hrun
    obtain rfl := Host.Outcome.next.inj hrun
    exact ⟨rfl, rfl, rfl, rfl⟩

end Sys2Proof.Machine
end

section
open Sys2Proof Sys2Proof.Machine

/-- Settles O20: the merges of rule R94 give a tree that meets rule R23. -/
theorem buildGivesATree : Obligations.BuildGivesATree := by
  unfold Obligations.BuildGivesATree
  exact fun s t hb => (built_of_build hb).treeOk

/-- Settles O24: tables that read alike build the same tree, and both commands run the one `build()`. -/
theorem buildIsDeterministic : Obligations.BuildIsDeterministic := by
  unfold Obligations.BuildIsDeterministic
  intro c d t u i hc hd hf ht hphase hi hu
  obtain ⟨v, hv, rfl⟩ := built_of_tbuild hc ht hphase
  have hbuilt := built_of_build hv
  obtain ⟨k, hk⟩ := hbuilt.key_exists
  obtain ⟨w, hw⟩ := build_exists (hf k ▸ hk)
  have hsame := hbuilt.sameTree (built_of_build hw) hf
  obtain ⟨hroot, hnsym, hnint, hnode⟩ := tree_of_build hd hw hi hu
  refine ⟨hroot.trans hsame.root, hnsym.trans hsame.nsym, hnint.trans hsame.nint, fun j hj => ?_⟩
  have hin : v.inTree j := (inTree_iff_alloc hbuilt.treeOk j).mpr (by rwa [hbuilt.freq])
  exact (congrArg (nodeOf · j) hnode).trans (hsame.records j hin)

/-- Settles O30: the 58th edge of a path would need a total count of at least `fib 60` (rule R97). -/
theorem noCodeWordLongerThan57 : Obligations.NoCodeWordLongerThan57 := by
  unfold Obligations.NoCodeWordLongerThan57
  intro s t hp hrun hphase
  obtain ⟨u, hb, rfl⟩ := built_of_tbuild hp hrun hphase
  have hbuilt := built_of_build hb
  refine ⟨fun k p _ hword => hbuilt.codeWord_length_le k p hword, fun hmax => ?_⟩
  obtain ⟨c, hcgen, _⟩ := exec_cgen_of_short (s := u.setPhase .tree) rfl hbuilt.treeOk
    fun k p _ hword => (hbuilt.codeWord_length_le k p hword).trans hmax
  exact ⟨_, hcgen, rfl⟩

end

section
/-! SUPPORT. The properties of a code table that rule R117 lists. -/

namespace Sys2Proof.Machine

section CodeTable
variable {s t : State}

/-- `CGEN` that ends in `CODES` has written the tree's code table and nothing else (rule R114). -/
theorem codeOk_of_cgen (hp : s.phase = .tree) (ht : s.treeOk) (hrun : exec .cgen s = .next t)
    (hphase : t.phase = .codes) : t.cfg = s.cfg ∧ t.treeOk ∧ CodeOk t := by
  have hrun' : execCgen s = .next t := hrun
  rcases cgen_spec s hp ht with ⟨_, _, _, _, _, _, hraise⟩ | ⟨_, c, hnext, _, hcode⟩
  · obtain rfl := Host.Outcome.next.inj (hraise.symm.trans hrun')
    simp at hphase
  · obtain rfl := Host.Outcome.next.inj (hnext.symm.trans hrun')
    exact ⟨rfl, ht, hcode⟩

/-- With two keys the root is an internal node (rule R98). -/
theorem isLeafIdx_root_of_two_keys (ht : s.treeOk) (h : 2 ≤ s.nsym.toNat) : isLeafIdx s.root = false := by
  have hcount := ht.nintCounts
  refine Bool.eq_false_iff.mpr fun hl => ?_
  have hzero := TreeOk.leafRoot_nint ht hl
  omega

/-- Rule R117(c): under an internal root a walk of 255 bits ends at a leaf, and paths to two leaves part. -/
theorem CodeOk.complete (h : CodeOk s) (hc : s.cfg.legal = true) (ht : s.treeOk) (htwo : 2 ≤ s.nsym.toNat)
    (bs : BitSeq) (hbs : 255 ≤ bs.length) :
    ∃ k, (s.readFreq k ≠ 0 ∧ (s.readCode k).word <+: bs) ∧
      ∀ j, s.readFreq j ≠ 0 → (s.readCode j).word <+: bs → j = k := by
  have hroot := TreeOk.alloc_lt ht s.root (TreeOk.rootAlloc ht)
  have hl := isLeafIdx_root_of_two_keys ht htwo
  obtain ⟨k, p, hpre, hp, hk⟩ := TreeOk.prefix_exists ht 255 s.root (TreeOk.rootAlloc ht) (by omega) bs hbs
  have hword : ∀ j, s.readFreq j ≠ 0 → follow s.node s.root (s.readCode j).word = some (leafIdx j) := fun j hj => by
    obtain ⟨q, hq, _, _, hqw, _⟩ := h.word hc j hj
    rwa [isCodeWord, hl, if_neg Bool.false_ne_true, ← hqw] at hq
  have hkword : (s.readCode k).word = p := TreeOk.path_unique ht _ p _ (hword k hk) hp
  refine ⟨k, ⟨hk, hkword ▸ hpre⟩, fun j hj hjpre => ?_⟩
  rcases List.prefix_or_prefix_of_prefix hjpre hpre with hjp | hpj
  · exact follow_prefix s.node s.root _ p j k (hword j hj) hp hjp
  · exact (follow_prefix s.node s.root p _ k j hp (hword j hj) hpj).symm

end CodeTable

end Sys2Proof.Machine
end

section
open Sys2Proof Sys2Proof.Machine

/-- Settles O29: (a) and (d) from the entries of the tree's code table, (b) from paths to two leaves, (c) from the walk that
`255` bits are enough for. -/
theorem codeTableProperties : Obligations.CodeTableProperties := by
  unfold Obligations.CodeTableProperties
  intro s t hc hp ht hrun hphase
  obtain ⟨hcfg, ht', hcode⟩ := codeOk_of_cgen hp ht hrun hphase
  have hc' : t.cfg.legal = true := hcfg ▸ hc
  have hlen := hcode.len_ne_zero_iff hc'
  refine ⟨hlen, fun j k hne hj hk => ?_, hcode.complete hc' ht', fun k hk => ?_⟩
  · exact hcode.prefixFree hc' ht' j k hne ((hlen j).mpr hj) ((hlen k).mpr hk)
  · obtain ⟨p, _, hpos, hmax, _, hplen⟩ := hcode.word hc' k hk
    rw [hplen]
    exact ⟨hpos, hmax⟩

end

section
/-! SUPPORT. What a compression stream emits, bit by bit (rules R124, R125, R127), and a decompression stream from a
state whose counts read alike (rule R146). -/

namespace Sys2Proof.Machine

section Streams
variable {s : State}

/-- The bytes of `CEND` are the pending bits and the zeros that fill the last byte, or none (rule R124). -/
theorem cendBytes_spec (s : State) (q : BitSeq) (hq : q.length ≤ 7) :
    (s.setPending q).cendBytes.length = (q.length + 7) / 8 ∧
      (s.setPending q).cendBytes.flatMap unpack8 =
        q ++ zeros (8 * (s.setPending q).cendBytes.length - q.length) := by
  have hlen := pendingCount_toNat q hq
  by_cases h0 : pendingCount q = 0
  · have hnil : q = [] := List.length_eq_zero_iff.mp (by rw [← hlen, h0]; rfl)
    rw [State.cendBytes, State.setPending_pcnt, if_pos h0, hnil]
    exact ⟨rfl, rfl⟩
  · have hpos : q.length ≠ 0 := fun h => h0 (BitVec.eq_of_toNat_eq (hlen.trans h))
    rw [State.cendBytes, State.setPending_pcnt, if_neg h0, State.setPending_pbits, List.flatMap_singleton,
      unpack8_cend q hq, List.length_singleton]
    exact ⟨by omega, rfl⟩

/-- A number of bits, cut into whole bytes and a rest. -/
theorem flatMap_unpack8_length (bytes : List Byte) : (bytes.flatMap unpack8).length = 8 * bytes.length := by
  simp [List.length_flatMap, Nat.mul_comm]

/-- A compression stream over keys of the table: whole bytes of the code words, then `CEND`'s byte of what is pending
(rules R121 to R124). -/
theorem execAll_stream (data : List Byte) (words : List BitSeq) (hp : s.phase = .codes) (hc : s.cfg.legal = true)
    (htree : s.treeOk) (hcode : CodeOk s) (hw : CodeWordsOf s data words) :
    ∃ (r : State) (bytes : List Byte) (q : BitSeq), q.length ≤ 7 ∧ bytes.flatMap unpack8 ++ q = words.flatten ∧
      execAll (.cstart :: (data.map .cput ++ [.cend])) s =
        .next ((((s.emit (bytes ++ (r.setPending q).cendBytes)).setTbc (pendingCount q)).setPending []).setPhase
          .done) := by
  obtain ⟨bytes, q, hq, hbits, hrun⟩ := execAll_cputs data words ((s.setPending []).setPhase .comp) [] (by simp) hc rfl
    htree ⟨hcode.absent, hcode.present⟩ rfl rfl hw
  refine ⟨((s.setPending []).setPhase .comp).emit bytes, bytes, q, hq, hbits, ?_⟩
  simp only [execAll, exec_cstart s hp]
  rw [execAll_append _ _ _ _ hrun]
  simp only [execAll]
  rw [exec_cend _ rfl]
  simp [State.emit, State.setTbc, State.setPending, State.setPhase]

end Streams

end Sys2Proof.Machine
end

section
open Sys2Proof Sys2Proof.Machine

/-- Settles O37: the whole bytes hold the first bits of the code words, and the last byte the rest over zeros, so the
lengths are those of a division by 8. -/
theorem compressedStreamIsTheCodeWords : Obligations.CompressedStreamIsTheCodeWords := by
  unfold Obligations.CompressedStreamIsTheCodeWords
  intro s data words hc hp htree hcode hw
  obtain ⟨r, bytes, q, hq, hbits, hrun⟩ := execAll_stream data words hp hc htree hcode hw
  obtain ⟨hfinal, hfinalBits⟩ := cendBytes_spec r q hq
  have hlength : 8 * bytes.length + q.length = words.flatten.length := by
    rw [← hbits, List.length_append, flatMap_unpack8_length]
  refine ⟨_, bytes ++ (r.setPending q).cendBytes, hrun, rfl, rfl, ?_, ?_, ?_⟩
  · rw [List.length_append, hfinal]
    omega
  · rw [State.setPhase_tbc, State.setPending_tbc, State.setTbc_tbc, pendingCount_toNat q hq]
    omega
  · have hzeros : 8 * (bytes ++ (r.setPending q).cendBytes).length - words.flatten.length =
        8 * (r.setPending q).cendBytes.length - q.length := by
      rw [List.length_append]
      omega
    rw [List.flatMap_append, hfinalBits, hzeros, ← hbits, List.append_assoc]

/-- Settles O46: the payload's valid bits are the code words of the bytes, which are also those of the tree that
`DSTART` builds from counts that read alike. -/
theorem decompressionInvertsCompression : Obligations.DecompressionInvertsCompression := by
  unfold Obligations.DecompressionInvertsCompression
  intro c c2 d data hc hpc hpd hread hne hkeys hrun hphase
  obtain ⟨u, codes, hb, rfl, hcode⟩ := tables_of_codes hpc hrun hphase
  have hbuilt := built_of_build hb
  obtain ⟨k, hk⟩ := hbuilt.key_exists
  obtain ⟨v, hb'⟩ := build_exists (hread k ▸ hk)
  have hbuilt' := built_of_build hb'
  obtain ⟨words, hwords⟩ := codeWords_exist u hbuilt.treeOk data fun b hm => by
    rw [hbuilt.readFreq]
    exact hkeys b hm
  have hwords' : CodeWordsOf v data words := by
    refine List.Forall₂.imp (fun b p hbp => ⟨?_, ?_⟩) hwords
    · rw [hbuilt'.readFreq, ← hread, ← hbuilt.readFreq]
      exact hbp.1
    · exact ((hbuilt.sameTree hbuilt' hread).isCodeWord_iff hbuilt.treeOk b p).mpr hbp.2
  obtain ⟨payload, tbc, hbits, hcomp⟩ := execAll_compress data words ((u.setCode codes).setPhase .codes) rfl
    (by simpa [hbuilt.cfg] using hc) hbuilt.treeOk hcode hwords
  refine ⟨_, _, payload, hcomp, ?_,
    execAll_decompress data words payload tbc d v hpd hb' hne hwords' hbits, ?_, rfl, ?_⟩
  · simp [hbuilt.out]
  · simp [hbuilt'.out]
  · simp [hbuilt'.err]

/-- Settles O44: a walk under an internal root cuts its bits into code words and the path to where it stands, and only
the empty path leads back to the root. -/
theorem dbyteEmitsWholeCodeWords : Obligations.DbyteEmitsWholeCodeWords := by
  unfold Obligations.DbyteEmitsWholeCodeWords
  intro byte last s q hp htree hroot hq hdcur
  obtain ⟨syms, words, q', d, hwalk, hwords, hbits, hq', hd⟩ := walk_path_words
    ((unpack8 byte).take (validBits last s.tbc)) s q htree ((isLeafIdx_false_iff s.root).mpr hroot) hq
    ((isLeafIdx_false_iff s.dcur).mpr hdcur)
  have hrun := exec_dbyte byte last s hp
  rw [hwalk] at hrun
  have hdcur' : (((s.emit syms).setDcur d).endOfByte last).dcur = d := by
    rcases ((s.emit syms).setDcur d).endOfByte_cases last with ⟨_, he⟩ | ⟨_, he⟩ | ⟨_, he⟩ <;> rw [he] <;> rfl
  refine ⟨_, syms, words, q', hrun, hwords, hbits, by rw [hdcur', hq'], ?_, ?_, ?_, ?_⟩
  · rw [hdcur']
    exact (isLeafIdx_false_iff d).mp hd
  · rintro rfl
    rfl
  · rintro rfl rfl
    obtain rfl : s.root = d := Option.some.inj hq'
    simp [State.endOfByte, State.emit, State.setDcur, State.setPhase]
  · rintro rfl hne
    have hd' : d ≠ s.root := fun h => hne (TreeOk.path_unique htree q' [] s.root (h ▸ hq') rfl)
    simp [State.endOfByte, State.emit, State.setDcur, State.raise, hd', HwFault.code]

end

section
/-! SUPPORT. What each command writes, which faults it raises and how much it emits (rules R17 to R30, R41, R46, R126,
R162, R198): read off `Effect`, one case split over the commands for each. -/

namespace Sys2Proof.Machine

/-! ## The registers and their writers -/

/-- The registers and tables that differ between `s` and `t` are ones the command writes, and `ERR` and `EINFO` where it
ends in `FAULT` (rules R17 to R30, R41). -/
structure WrittenBy (i : Instr) (s t : State) : Prop where
  freq : (i ≠ .fclr ∧ ∀ k c, i ≠ .fset k c) → t.freq = s.freq
  tree : (i ≠ .tbuild ∧ ∀ n, i ≠ .dstart n) → t.node = s.node ∧ t.root = s.root ∧ t.nsym = s.nsym ∧ t.nint = s.nint
  code : i ≠ .cgen → t.code = s.code
  tbc : (i ≠ .cend ∧ ∀ n, i ≠ .dstart n) → t.tbc = s.tbc
  readBack : ((∀ k, i ≠ .fget k) ∧ (∀ j, i ≠ .tget j) ∧ ∀ k, i ≠ .cget k) → t.rdata = s.rdata ∧ t.raux = s.raux
  pending : (i ≠ .cstart ∧ (∀ b, i ≠ .cput b) ∧ i ≠ .cend) → t.pcnt = s.pcnt ∧ t.pbits = s.pbits
  dcur : ((∀ n, i ≠ .dstart n) ∧ ∀ b l, i ≠ .dbyte b l) → t.dcur = s.dcur
  out : ((∀ b, i ≠ .cput b) ∧ i ≠ .cend ∧ ∀ b l, i ≠ .dbyte b l) → t.out = s.out
  error : t.phase ≠ .fault → t.err = s.err ∧ t.einfo = s.einfo

section Commands
variable {i : Instr} {s t : State}

theorem WrittenBy.refl (i : Instr) (s : State) : WrittenBy i s s := by
  constructor <;> simp

theorem WrittenBy.raise (i : Instr) (s : State) (f : HwFault) (info : BitVec 16) : WrittenBy i s (s.raise f info) := by
  constructor <;> simp

/-- What `build()` does not write (rule R94). -/
theorem Built.kept {u : State} (h : Built s u) :
    u.freq = s.freq ∧ u.code = s.code ∧ u.tbc = s.tbc ∧ u.rdata = s.rdata ∧ u.raux = s.raux ∧ u.pcnt = s.pcnt ∧
      u.pbits = s.pbits ∧ u.dcur = s.dcur ∧ u.out = s.out ∧ u.err = s.err ∧ u.einfo = s.einfo := by
  rw [h.frame]
  exact ⟨rfl, rfl, rfl, rfl, rfl, rfl, rfl, rfl, rfl, rfl, rfl⟩

theorem Effect.writtenBy (h : Effect s t i) (hi : i ≠ .srst) : WrittenBy i s t := by
  cases i with
  | srst => exact absurd rfl hi
  | fclr | fset _ _ | fget _ | tget _ | cget _ | cstart | cend =>
    obtain rfl := h
    constructor <;> simp
  | tbuild | dstart _ =>
    obtain ⟨_, rfl⟩ | ⟨u, hb, rfl⟩ := h
    · exact .raise _ s _ _
    · constructor <;> simp [(built_of_build hb).kept]
  | cgen =>
    obtain ⟨_, rfl⟩ | ⟨_, _, rfl⟩ := h
    · exact .raise _ s _ _
    · constructor <;> simp
  | cput _ =>
    obtain ⟨_, rfl⟩ | ⟨_, rfl⟩ := h
    · exact .raise _ s _ _
    · constructor <;> simp
  | dbyte _ last =>
    obtain ⟨bs, d, _, rfl | ⟨_, rfl⟩⟩ := h
    · rcases ((s.emit bs).setDcur d).endOfByte_cases last with ⟨_, he⟩ | ⟨_, he⟩ | ⟨_, he⟩ <;> rw [he] <;>
        constructor <;> simp
    · constructor <;> simp

theorem writtenBy_of_exec (hi : i ≠ .srst) (h : exec i s = .next t) : WrittenBy i s t := by
  rcases exec_next i s t h with ⟨_, _, rfl⟩ | ⟨_, _, _, rfl⟩ | ⟨_, heffect⟩
  · exact .refl i t
  · exact .raise i s _ _
  · exact heffect.writtenBy hi

/-! ## The read-back commands -/

/-- A read-back command does not read what it writes, `RDATA` and `RAUX`, so it answers the same again (rule R46). -/
theorem exec_readBack_again (hi : (∃ k, i = .fget k) ∨ (∃ j, i = .tget j) ∨ ∃ k, i = .cget k)
    (hl : legal i s.phase = true) (h : exec i s = .next t) :
    t = { s with rdata := t.rdata, raux := t.raux } ∧ exec i t = .next t := by
  rcases hi with ⟨k, rfl⟩ | ⟨j, rfl⟩ | ⟨k, rfl⟩
  all_goals
    obtain rfl := effect_of_legal (by simp) hl h
    exact ⟨rfl, frontEnd_legal _ (by simp) hl⟩

/-! ## The faults -/

/-- The fault of a command's own rule, with the condition it is raised under (rules R99, R113, R122, R141, R142). -/
inductive OwnFault (s t : State) : Instr → Prop where
  | tbuild (herr : t.err = 0x01) (hempty : ∀ k, s.readFreq k = 0) : OwnFault s t .tbuild
  | cgen (herr : t.err = 0x02) : OwnFault s t .cgen
  | cput (b : Byte) (herr : t.err = 0x04) (hnone : (s.readCode b).len = 0) : OwnFault s t (.cput b)
  | dstart (tbc : BitVec 3) (herr : t.err = 0x01) (hempty : ∀ k, s.readFreq k = 0) : OwnFault s t (.dstart tbc)
  | invalidCodeBit (b : Byte) (last : Bool) (herr : t.err = 0x12) (hroot : s.root.toNat < 256) :
      OwnFault s t (.dbyte b last)
  | truncatedStream (b : Byte) (herr : t.err = 0x05) (hdcur : t.dcur ≠ t.root) : OwnFault s t (.dbyte b true)

/-- What a fault leaves: the three registers of `raise` and, of `DBYTE`, the walk of the bits before it (rules R170,
R171). -/
structure FaultFrame (i : Instr) (s t : State) : Prop where
  walk : t = { s with out := t.out, dcur := t.dcur, err := t.err, einfo := t.einfo, phase := .fault }
  other : (∀ b l, i ≠ .dbyte b l) → t = { s with err := t.err, einfo := t.einfo, phase := .fault }

theorem FaultFrame.raise (i : Instr) (s : State) (f : HwFault) (info : BitVec 16) : FaultFrame i s (s.raise f info) :=
  ⟨rfl, fun _ => rfl⟩

theorem FaultFrame.raise_walked (s : State) (b : Byte) (last : Bool) (bs : List Byte) (d : NodeIdx) (f : HwFault)
    (info : BitVec 16) : FaultFrame (.dbyte b last) s (((s.emit bs).setDcur d).raise f info) :=
  ⟨rfl, fun h => absurd rfl (h b last)⟩

/-- A byte flagged `LAST` that leaves the walk off the root raises `TruncatedStream` (rule R142). -/
theorem State.endOfByte_fault (hs : s.phase ≠ .fault) {last : Bool} (hf : (s.endOfByte last).phase = .fault) :
    last = true ∧ s.dcur ≠ s.root ∧ s.endOfByte last = s.raise .truncatedStream (s.dcur.setWidth 16) := by
  cases last with
  | false => exact absurd hf hs
  | true =>
    by_cases hd : s.dcur = s.root
    · simp [State.endOfByte, hd] at hf
    · exact ⟨rfl, hd, by simp [State.endOfByte, hd]⟩

/-- A command's own effect that ends in `FAULT` is one of its own faults. -/
theorem Effect.ownFault (h : Effect s t i) (hs : s.phase ≠ .fault) (ht : t.phase = .fault) :
    FaultFrame i s t ∧ OwnFault s t i := by
  cases i with
  | srst | fclr | fset _ _ | fget _ | tget _ | cget _ | cstart | cend =>
    obtain rfl := h
    simp [hs] at ht
  | tbuild =>
    obtain ⟨hnone, rfl⟩ | ⟨_, _, rfl⟩ := h
    · exact ⟨.raise _ s _ _, .tbuild rfl (build_eq_none_iff.mp hnone)⟩
    · simp at ht
  | dstart tbc =>
    obtain ⟨hnone, rfl⟩ | ⟨_, _, rfl⟩ := h
    · exact ⟨.raise _ s _ _, .dstart tbc rfl (build_eq_none_iff.mp hnone)⟩
    · simp at ht
  | cgen =>
    obtain ⟨_, rfl⟩ | ⟨_, _, rfl⟩ := h
    · exact ⟨.raise _ s _ _, .cgen rfl⟩
    · simp at ht
  | cput b =>
    obtain ⟨hnone, rfl⟩ | ⟨_, rfl⟩ := h
    · exact ⟨.raise _ s _ _, .cput b rfl hnone⟩
    · simp [hs] at ht
  | dbyte b last =>
    obtain ⟨bs, d, _, rfl | ⟨hroot, rfl⟩⟩ := h
    · obtain ⟨rfl, hd, he⟩ := State.endOfByte_fault (s := (s.emit bs).setDcur d) hs ht
      rw [he]
      exact ⟨.raise_walked s b true bs d _ _, .truncatedStream b rfl hd⟩
    · exact ⟨.raise_walked s b last bs d _ _, .invalidCodeBit b last rfl ((isLeafIdx_iff s.root).mp hroot)⟩

/-- A fault that a command ends in is `BadSequence`, out of phase, or one of its own (rules R68, R162). -/
theorem fault_of_exec (hs : s.phase ≠ .fault) (h : exec i s = .next t) (ht : t.phase = .fault) :
    FaultFrame i s t ∧ (t.err = 0x11 ∧ transition s.phase i = none ∨ OwnFault s t i) := by
  rcases exec_next i s t h with ⟨_, hf, _⟩ | ⟨_, _, hl, rfl⟩ | ⟨_, heffect⟩
  · exact absurd hf hs
  · exact ⟨.raise i s _ _, .inl ⟨rfl, by rw [transition_eq_phaseAfter, if_neg (by simp [hl])]⟩⟩
  · obtain ⟨hframe, hown⟩ := heffect.ownFault hs ht
    exact ⟨hframe, .inr hown⟩

/-- No command's own fault is `CorruptTree` (rule R137). -/
theorem OwnFault.err_ne (h : OwnFault s t i) : t.err ≠ 0x03 := by
  cases h with
  | tbuild herr | cgen herr | cput _ herr | dstart _ herr | invalidCodeBit _ _ herr | truncatedStream _ herr =>
    rw [herr]
    decide

/-- No command leads to `CorruptTree`: outside `FAULT` it leaves `ERR` alone or raises a fault of its own, and in `FAULT`
only `SRST` does anything. -/
theorem err_ne_corruptTree (hs : s.err ≠ 0x03) (h : exec i s = .next t) : t.err ≠ 0x03 := by
  by_cases hi : i = .srst
  · subst hi
    obtain rfl := Host.Outcome.next.inj h
    simp
  · by_cases hf : s.phase = .fault
    · obtain rfl := Host.Outcome.next.inj ((exec_ignored i s hi hf).symm.trans h)
      exact hs
    · by_cases ht : t.phase = .fault
      · rcases (fault_of_exec hf h ht).2 with ⟨herr, _⟩ | hown
        · rw [herr]
          decide
        · exact hown.err_ne
      · rwa [((writtenBy_of_exec hi h).error ht).1]

/-! ## The output -/

/-- The most bytes a command can emit (rules R126, R198). -/
def outputBound (maxLen : Nat) : Instr → Nat
  | .cput _ => (7 + maxLen) / 8
  | .dbyte _ _ => 8
  | .cend => 1
  | .srst | .fclr | .fset _ _ | .fget _ | .tbuild | .tget _ | .cgen | .cget _ | .cstart | .dstart _ => 0

/-- No code word in the table is longer than `MAXLEN` (rules R113, R117(d)). -/
theorem CodeOk.len_le (h : CodeOk s) (hc : s.cfg.legal = true) (k : Sym) :
    (s.readCode k).len.toNat ≤ s.cfg.maxLen := by
  by_cases hk : s.readFreq k = 0
  · rw [h.absent k hk]
    exact Nat.zero_le _
  · obtain ⟨p, _, _, hmax, _, hlen⟩ := h.word hc k hk
    rwa [hlen]

theorem cendBytes_length_le (s : State) : s.cendBytes.length ≤ 1 := by
  rw [State.cendBytes]
  split <;> simp

theorem Effect.output_le (h : Effect s t i) (hi : i ≠ .srst) (hl : legal i s.phase = true) (hinv : Inv s) :
    t.out.length ≤ s.out.length + outputBound s.cfg.maxLen i := by
  have hout := (h.writtenBy hi).out
  cases i with
  | srst => exact absurd rfl hi
  | fclr | fset _ _ | fget _ | tbuild | tget _ | cgen | cget _ | cstart | dstart _ =>
    exact Nat.le_of_eq (congrArg List.length (hout (by simp)))
  | cput b =>
    have hp : s.phase = .comp := by simpa using (legal_cput_iff _ _).mp hl
    have hlen := (hinv.code (.inr hp)).len_le hinv.config b
    have hpending := s.pcnt.isLt
    obtain ⟨_, rfl⟩ | ⟨_, rfl⟩ := h
    · exact Nat.le_add_right _ _
    · obtain ⟨_, hbytes, _⟩ := flush_spec (s.cputBuffer b)
      rw [cputBuffer_length] at hbytes
      simp only [State.setPending_out, State.emit_out, List.length_append, hbytes, outputBound]
      omega
  | cend =>
    obtain rfl := h
    simp only [State.setPhase_out, State.setPending_out, State.setTbc_out, State.emit_out, List.length_append]
    exact Nat.add_le_add_left (cendBytes_length_le s) _
  | dbyte _ last =>
    obtain ⟨bs, d, hbs, rfl | ⟨_, rfl⟩⟩ := h
    · have hend : (((s.emit bs).setDcur d).endOfByte last).out = s.out ++ bs := by
        rcases ((s.emit bs).setDcur d).endOfByte_cases last with ⟨_, he⟩ | ⟨_, he⟩ | ⟨_, he⟩ <;> rw [he] <;> rfl
      rw [hend, List.length_append]
      exact Nat.add_le_add_left hbs _
    · rw [State.raise_out, State.setDcur_out, State.emit_out, List.length_append]
      exact Nat.add_le_add_left hbs _

theorem output_le_of_exec (hinv : Inv s) (hi : i ≠ .srst) (h : exec i s = .next t) :
    t.out.length ≤ s.out.length + outputBound s.cfg.maxLen i := by
  rcases exec_next i s t h with ⟨_, _, rfl⟩ | ⟨_, _, _, rfl⟩ | ⟨hl, heffect⟩
  · exact Nat.le_add_right _ _
  · exact Nat.le_add_right _ _
  · exact heffect.output_le hi hl hinv

end Commands

end Sys2Proof.Machine
end

section
open Sys2Proof Sys2Proof.Machine

/-- Settles O39: the leaves below the root are the keys, so the defensive check passes and `DSTART` has no other fault
than that of the empty table. -/
theorem corruptTreeIsUnreachable : Obligations.CorruptTreeIsUnreachable := by
  unfold Obligations.CorruptTreeIsUnreachable
  refine ⟨fun s t hb k => ?_, fun i s t hs h => err_ne_corruptTree hs h⟩
  have hbuilt := built_of_build hb
  rw [← hbuilt.readFreq]
  exact (TreeOk.reachable hbuilt.treeOk k).symm

/-- Settles O48: the three commands write the read-back registers from what they leave alone. -/
theorem readBackChangesNothingElse : Obligations.ReadBackChangesNothingElse := by
  unfold Obligations.ReadBackChangesNothingElse
  intro i s t hi hp h
  have hl : legal i s.phase = true := by rwa [legal_eq_transition, Option.isSome_iff_ne_none]
  exact exec_readBack_again hi hl h

/-- Settles O49: each command's effect is an update of its own registers. -/
theorem eachRegisterHasItsWriters : Obligations.EachRegisterHasItsWriters := by
  unfold Obligations.EachRegisterHasItsWriters
  intro i s t hi h
  obtain ⟨hfreq, htree, hcode, htbc, hread, hpending, hdcur, hout, herror⟩ := writtenBy_of_exec hi h
  exact ⟨hfreq, htree, hcode, htbc, hread, hpending, hdcur, hout, herror⟩

/-- Settles O50: a fault is `BadSequence` of the front end or one of the command's own. -/
theorem ownFaultsOfEachCommand : Obligations.OwnFaultsOfEachCommand := by
  unfold Obligations.OwnFaultsOfEachCommand
  intro i s t hs h ht
  obtain ⟨⟨hwalk, hother⟩, hbad | hown⟩ := fault_of_exec hs h ht
  · exact ⟨hother, hwalk, .inl hbad⟩
  · refine ⟨hother, hwalk, .inr ?_⟩
    cases hown with
    | tbuild herr hempty => exact .inl ⟨rfl, herr, hempty⟩
    | cgen herr => exact .inr (.inl ⟨rfl, herr⟩)
    | cput b herr hnone => exact .inr (.inr (.inl ⟨b, rfl, herr, hnone⟩))
    | dstart tbc herr hempty => exact .inr (.inr (.inr (.inl ⟨tbc, rfl, herr, hempty⟩)))
    | invalidCodeBit b last herr hroot => exact .inr (.inr (.inr (.inr ⟨b, last, rfl, .inl ⟨herr, hroot⟩⟩)))
    | truncatedStream b herr hd => exact .inr (.inr (.inr (.inr ⟨b, true, rfl, .inr ⟨herr, rfl, hd⟩⟩)))

/-- Settles O51: a buffer of fewer than 8 pending bits and a code word, one symbol a valid bit, one last byte. -/
theorem outputOfEachCommandIsBounded : Obligations.OutputOfEachCommandIsBounded := by
  unfold Obligations.OutputOfEachCommandIsBounded
  intro i s t hinv hi h
  have hle := output_le_of_exec hinv hi h
  cases i <;> exact hle

/-- Settles O5: the input is taken off the port, and the word goes through the front end. -/
theorem stepRunsTheDecodedCommand : Obligations.StepRunsTheDecodedCommand := by
  unfold Obligations.StepRunsTheDecodedCommand
  refine ⟨fun s w rest hport => step_of_port_command hport, fun s w rest i hport hw => ?_, fun s w i hw => ?_⟩
  · rw [step_of_port_command hport, runWord_of_instr _ hw]
  · have hword : BitVec.ofNat 64 (w % 2 ^ 64) = BitVec.ofNat 64 w := BitVec.eq_of_toNat_eq (by simp)
    have hport : (s.withFetchWord 64 w).port = .command (BitVec.ofNat 64 w) :: s.port :=
      congrArg (PortInput.command · :: s.port) hword
    rw [step_of_port_command hport, runWord_of_instr _ hw]
    rfl

/-- Settles O6: an empty port leaves the state, and a sampled `rst` does what `SRST` does. -/
theorem stepIdlesAndResets : Obligations.StepIdlesAndResets := by
  unfold Obligations.StepIdlesAndResets
  refine ⟨fun s hport => step_of_port_nil hport, fun s rest hport => ⟨_, step_of_port_rst hport, ?_⟩⟩
  simp [NIL]

/-- Settles O10: the three registers are those of the definition, and the codes those of the table. -/
theorem raiseWritesThreeRegisters : Obligations.RaiseWritesThreeRegisters := by
  unfold Obligations.RaiseWritesThreeRegisters
  exact ⟨fun _ _ _ => rfl, rfl, rfl, rfl, rfl, rfl, rfl, rfl, rfl⟩

/-- Settles O11: each register is at the value of the reset table, and the empty table of counts reads 0. -/
theorem resetStateValues : Obligations.ResetStateValues := by
  unfold Obligations.ResetStateValues
  exact ⟨rfl, rfl, rfl, rfl, rfl, rfl, rfl, rfl, rfl, rfl, rfl, rfl, freqOf_nil, rfl⟩

/-- Settles O12: every pin is its register; the level `fault` compares `ERR` with 0. -/
theorem pinsShowTheRegisters : Obligations.PinsShowTheRegisters := by
  unfold Obligations.PinsShowTheRegisters
  refine ⟨by decide, fun s => ⟨?_, rfl, rfl, rfl, rfl, rfl, rfl, rfl, rfl, rfl, rfl, rfl, rfl⟩⟩
  exact bne_iff_ne

end
